-- ==== Sys2Proof/Word.lean ====
section
/-! DEFINITION. The word types of the hardware, and nothing else (spec/00_scope.md R7, R9). -/

namespace Sys2Proof

/-- The data word: a 4-bit register or digit (R7, R20). -/
abbrev Nibble := BitVec 4

/-- One byte of the internal or external region (R70). -/
abbrev Byte := BitVec 8

/-- One instruction word (R100). -/
abbrev Word16 := BitVec 16

/-- A word address of the internal region, as the PC and the call stack hold it (R23, R29). -/
abbrev Addr12 := BitVec 12

end Sys2Proof
end

