-- ==== Sys2Proof/Syntax.lean ====
section
/-! DEFINITION. The abstract syntax of the instructions (spec/30_encoding.md R105, R106): one constructor
per row of spec/opcode_table.json. Mnemonics are the spec's own (R110); the row `in` is the constructor
`inp`, since `in` is a Lean keyword. -/

namespace Sys2Proof

/-- A general-register operand, 0..31 (R106). -/
abbrev Reg := Fin 32

/-- A 4-bit immediate, zero-extended (R106). -/
abbrev Imm4 := BitVec 4

/-- A page of 8 consecutive general registers, 0..3 (R22, R106). -/
abbrev Page := Fin 4

/-- A window start or end within a page, 0..7 (R106, R108). -/
abbrev Off3 := Fin 8

/-- A register bank, 0..3 (R21, R106). -/
abbrev Bank := Fin 4

/-- A special-register index, 0..15 (R33, R106). -/
abbrev SRIdx := Fin 16

/-- A bit number of a nibble, 0..3 (R106). -/
abbrev BitIdx := Fin 4

/-- The raw target bits of a control form; the width is not in the source (R106), so the value is a
natural number and `Instr.WellFormed` bounds it by the instruction word. -/
abbrev Field := Nat

/-- The instructions of R105. -/
inductive Instr where
  -- arithmetic, R132..R144
  | add (x y : Reg)
  | adb (x y : Reg)
  | sub (x y : Reg)
  | sbb (x y : Reg)
  | addi (x : Reg) (i : Imm4)
  | adbi (x : Reg) (i : Imm4)
  | subi (x : Reg) (i : Imm4)
  | sbbi (x : Reg) (i : Imm4)
  | radd (pd ps : Page) (hi lo : Off3)
  | radb (pd ps : Page) (hi lo : Off3)
  | rsub (pd ps : Page) (hi lo : Off3)
  | rsbb (pd ps : Page) (hi lo : Off3)
  -- compare, R145..R147
  | cmp (x y : Reg)
  | cmpi (x : Reg) (i : Imm4)
  | rcmp (pd ps : Page) (hi lo : Off3)
  -- logic immediate, R148..R150
  | andi (x : Reg) (i : Imm4)
  | ori (x : Reg) (i : Imm4)
  | xori (x : Reg) (i : Imm4)
  -- ranged shift, R152, R153
  | rshl (p : Page) (hi lo : Off3)
  | rshr (p : Page) (hi lo : Off3)
  -- moves, R180..R187
  | mov (x y : Reg)
  | movi (x : Reg) (i : Imm4)
  | rmov (pd ps : Page) (hi lo : Off3)
  | rclr (p : Page) (hi lo : Off3)
  | mvca (x y : Reg)
  | mvac (x y : Reg)
  -- bank switches, R190, R191
  | scb (n : Bank)
  | sab (n : Bank)
  -- special-register I/O, R201..R203
  | inp (x : Reg) (s : SRIdx)
  | out (s : SRIdx) (y : Reg)
  | outi (s : SRIdx) (i : Imm4)
  -- display writes, R204, R205
  | dw (y : Reg)
  | dw2 (y1 y2 : Reg)
  -- control, R240..R253
  | call (v : Fin 3) (f : Field)
  | ret
  | br (f : Field)
  | jmp (v : Fin 4) (f : Field)
  | jz (f : Field)
  | jnz (f : Field)
  | jc (f : Field)
  | jnc (f : Field)
  | btb (x : Reg) (b : BitIdx) (pol : Bool) (f : Field)
  | cib (x : Reg) (i : Imm4) (eq : Bool) (f : Field)
  | ijmp (x : Reg) (f : Field)
  | wfe
  -- implied forms, R280..R284; their operands are not in the source
  | xld
  | xst
  | ssa
  | sla
  | bsar
  deriving DecidableEq, Repr

end Sys2Proof
end

