-- ==== Sys2Proof/WellFormed.lean ====
section
/-! DEFINITION. Which abstract instructions are well formed (spec/30_encoding.md R104 (d), R106). Every
operand range of R106 with a stated bound is a type of Syntax.lean, so the one check left is on the raw
target field, which is made of bits of the one 16-bit instruction word (R100). -/

namespace Sys2Proof

/-- A raw target field fits in the instruction word it comes from (R100, R106). DEDUCED, log 3. -/
abbrev FieldFits (f : Field) : Prop := f < 65536

/-- The operands lie in the ranges of R106. -/
def Instr.WellFormed : Instr → Bool
  | .call _ f | .br f | .jmp _ f | .jz f | .jnz f | .jc f | .jnc f => decide (FieldFits f)
  | .btb _ _ _ f | .cib _ _ _ f | .ijmp _ f => decide (FieldFits f)
  | .add _ _ | .adb _ _ | .sub _ _ | .sbb _ _ => true
  | .addi _ _ | .adbi _ _ | .subi _ _ | .sbbi _ _ => true
  | .radd _ _ _ _ | .radb _ _ _ _ | .rsub _ _ _ _ | .rsbb _ _ _ _ => true
  | .cmp _ _ | .cmpi _ _ | .rcmp _ _ _ _ => true
  | .andi _ _ | .ori _ _ | .xori _ _ => true
  | .rshl _ _ _ | .rshr _ _ _ => true
  | .mov _ _ | .movi _ _ | .rmov _ _ _ _ | .rclr _ _ _ | .mvca _ _ | .mvac _ _ => true
  | .scb _ | .sab _ => true
  | .inp _ _ | .out _ _ | .outi _ _ => true
  | .dw _ | .dw2 _ _ => true
  | .ret | .wfe => true
  | .xld | .xst | .ssa | .sla | .bsar => true

end Sys2Proof
end

