-- ==== Sys2Proof/Config.lean ====
section
/-! DEFINITION. The open parameters of the hardware (spec/00_scope.md R8; spec/92_eei_decisions.md Part 2).
`Cfg` is the record of every `P_*`; `Cfg.Valid` holds the constraints 92 states; `Config.chip` is one valid
record about which nothing else is known, and the machine runs over it, so a theorem about the machine
holds for every record. The field defaults are the reference instantiation of 92: non-normative, they serve
simulation and tests, and they carry no evidence (R8). -/

namespace Sys2Proof

/-- The four sources that raise SR12 bits (R354, R355). -/
inductive Timer0Source where
  | t128
  | t256
  | t1024
  | sec
  deriving DecidableEq, Repr

/-- The commands an SR10 write can give (R215). -/
inductive Sr10Cmd where
  | enable
  | disable
  | clear
  | gate
  | none
  deriving DecidableEq, Repr

/-- The three mirroring states of a half-screen (R311, R326). -/
inductive MirrorMode where
  | none
  | v
  | vh
  deriving DecidableEq, Repr

/-- The two half-screens: character rows 0..1 and 2..3 (R326). -/
inductive Half where
  | top
  | bot
  deriving DecidableEq, Repr

/-- The two readings of the paired-nibble display write (R205). -/
inductive Dw2Mode where
  | twoNibbles
  | oneByte
  deriving DecidableEq, Repr

/-- The four logical buttons of the host (R373). -/
inductive Button where
  | left
  | mode
  | transmit
  | right
  deriving DecidableEq, Repr

/-- What a scan-cursor value stands for: character row, dot row, start column (R328). -/
structure ScanPos where
  row : Fin 4
  dotRow : Fin 8
  col : Fin 16
  deriving DecidableEq, Repr

/-- One pixel write: row y, column x, value (R305). -/
structure PixelWrite where
  y : Fin 28
  x : Fin 50
  on : Bool
  deriving DecidableEq, Repr

/-! ### The reference instantiation of 92 Part 2, where it is more than a literal -/

/-- Reference `P_SR10_CMD`: bit 3 Enable, else bit 2 Disable, else bit 1 Clear, else Gate. -/
def Config.refSr10Cmd (v : Nibble) : Sr10Cmd :=
  if v.getLsbD 3 then .enable else if v.getLsbD 2 then .disable else if v.getLsbD 1 then .clear else .gate

/-- Reference `P_SR12_BIT`: T128 0, T256 1, T1024 2, SEC 3. -/
def Config.refSr12Bit : Timer0Source → Fin 4
  | .t128 => 0
  | .t256 => 1
  | .t1024 => 2
  | .sec => 3

/-- Reference `P_BUTTON_LINE`. -/
def Config.refButtonLine : Button → Fin 4
  | .left => 0
  | .mode => 1
  | .transmit => 2
  | .right => 3

/-- Reference `P_CELL_CODE`: 16·row + col. -/
def Config.refCellCode (row : Fin 4) (col : Fin 10) : Fin 64 := ⟨16 * row.val + col.val, by omega⟩

/-- Reference `P_MIRROR_MODE`: v mod 4, 1 is V, 2 is VH. -/
def Config.refMirrorMode (v : Nibble) : MirrorMode :=
  if v.toNat % 4 = 1 then .v else if v.toNat % 4 = 2 then .vh else .none

/-- Vertical reflection within a half: y' = 2·b + 13 − y with b = 0 or 14. Outside the half (where the
rasterizer never puts a pixel) the row is left as it is, so that the result stays in the buffer. -/
def Config.refFlipRow (h : Half) (y : Fin 28) : Fin 28 :=
  match h with
  | .top => if hy : y.val ≤ 13 then ⟨13 - y.val, by omega⟩ else y
  | .bot => if hy : 14 ≤ y.val then ⟨41 - y.val, by omega⟩ else y

/-- Reference `P_MIRROR_APPLY`. -/
def Config.refMirrorApply (m : MirrorMode) (h : Half) (y : Fin 28) (x : Fin 50) : Fin 28 × Fin 50 :=
  match m with
  | .none => (y, x)
  | .v => (Config.refFlipRow h y, x)
  | .vh => (Config.refFlipRow h y, ⟨49 - x.val, by omega⟩)

/-- Reference `P_SCAN_CELLS`: (c >> 7, (c >> 4) & 7, c & 15). -/
def Config.refScanCells (c : Fin 512) : ScanPos where
  row := ⟨c.val / 128, by omega⟩
  dotRow := ⟨c.val / 16 % 8, by omega⟩
  col := ⟨c.val % 16, by omega⟩

/-- Reference `P_DIRECT_PAINT`: five bits of v, bit 4 leftmost, at the cell column the cursor decodes to;
the bottom half through the mirror mode; nothing at cursor 512, dot row 7 or column 10 and above. -/
def Config.refDirectPaint (c : Nat) (v : Byte) (mb : MirrorMode) : List PixelWrite :=
  if hc : c < 512 then
    let pos := Config.refScanCells ⟨c, hc⟩
    if hp : pos.dotRow.val < 7 ∧ pos.col.val < 10 then
      [(0 : Fin 5), 1, 2, 3, 4].map fun dx =>
        let y : Fin 28 := ⟨7 * pos.row.val + pos.dotRow.val, by omega⟩
        let x : Fin 50 := ⟨5 * pos.col.val + dx.val, by omega⟩
        let yx := if 2 ≤ pos.row.val then Config.refMirrorApply mb .bot y x else (y, x)
        ⟨yx.1, yx.2, v.getLsbD (4 - dx.val)⟩
    else []
  else []

/-- NO decoder: the spec gives no reference instantiation of `P_DECODE` (R104). This is only the smallest
function that R104 (c) allows, the witness that `Cfg.Valid` can be met; log 1. -/
def Config.witnessDecode (slot : BitVec 6) (rest : BitVec 10) : Option Instr :=
  if slot = 0 ∧ rest = 0 then some (.mov 0 0) else none

/-- The parameters of 92 Part 2. Ranges the spec states as a range of one value are types; the others are
in `Cfg.Valid`. -/
structure Cfg where
  /-- `P_DECODE` as a function of the primary slot, bits [15:10], and the ten other bits (R101, R104 (b)). -/
  decodeSlot : BitVec 6 → BitVec 10 → Option Instr := Config.witnessDecode
  /-- `P_CALL_TARGET(v, f)` (R107). -/
  callTarget : Fin 3 → Field → Addr12 := fun _ f => BitVec.ofNat 12 f
  /-- `P_JMP_TARGET(v, f)` (R107). -/
  jmpTarget : Fin 4 → Field → Addr12 := fun _ f => BitVec.ofNat 12 f
  /-- `P_BR_TARGET(pc, f)` (R107). -/
  brTarget : Addr12 → Field → Addr12 := fun _ f => BitVec.ofNat 12 f
  /-- `P_JCC_TARGET(pc, f)` (R107). -/
  jccTarget : Addr12 → Field → Addr12 := fun _ f => BitVec.ofNat 12 f
  /-- `P_BTB_TARGET(pc, f)` (R107). -/
  btbTarget : Addr12 → Field → Addr12 := fun _ f => BitVec.ofNat 12 f
  /-- `P_CIB_TARGET(pc, f)` (R107). -/
  cibTarget : Addr12 → Field → Addr12 := fun _ f => BitVec.ofNat 12 f
  /-- `P_IJMP_TARGET(pc, f, v)` (R107). -/
  ijmpTarget : Addr12 → Field → Nibble → Addr12 := fun _ f v => BitVec.ofNat 12 (f + v.toNat)
  /-- `P_SR0_TIMER_BIT` (R34). -/
  sr0TimerBit : BitIdx := 0
  /-- `P_SR0_KEY_BIT` (R34); may equal the timer bit. -/
  sr0KeyBit : BitIdx := 1
  /-- `P_SR0_SW_BIT` (R34). -/
  sr0SwBit : BitIdx := 2
  /-- `P_SR0_ISP_BIT` (R34). -/
  sr0IspBit : BitIdx := 3
  /-- `P_ACK_SR1` (R210). -/
  ackSr1 : Nibble := 8
  /-- `P_ACK_SR7` (R212). -/
  ackSr7 : Nibble := 2
  /-- `P_ISP_MODE_BIT` (R213). -/
  ispModeBit : BitIdx := 0
  /-- `P_ISP_TXEN_BIT` (R213). -/
  ispTxenBit : BitIdx := 1
  /-- `P_ISP_RXEN_BIT` (R214). -/
  ispRxenBit : BitIdx := 0
  /-- `P_ISP_TXREQ_BIT` (R214). -/
  ispTxreqBit : BitIdx := 1
  /-- `P_ISP_STATUS_SR` (R364). -/
  ispStatusSr : SRIdx := 1
  /-- `P_ISP_DONE_BIT` (R364). -/
  ispDoneBit : BitIdx := 0
  /-- `P_ISP_IMM_BIT` (R367). -/
  ispImmBit : BitIdx := 1
  /-- `P_ISP_PAGE` (R364, R367). -/
  ispPage : Nat := 256
  /-- `P_T1_GATE_BIT` (R358). -/
  t1GateBit : BitIdx := 3
  /-- `P_SW_PEND_BIT`, 0..2 (R359). -/
  swPendBit : Fin 3 := 0
  /-- `P_SR10_CMD` (R215). -/
  sr10Cmd : Nibble → Sr10Cmd := Config.refSr10Cmd
  /-- `P_SR12_BIT` (R354). -/
  sr12Bit : Timer0Source → BitIdx := Config.refSr12Bit
  /-- The SR13 bit of each source, for `P_SR13_ENABLES` (R357); log 15. -/
  sr13Bit : Timer0Source → BitIdx := Config.refSr12Bit
  /-- The polarity of each source's bit: the value that enables it, for `P_SR13_ENABLES` (R357); log 15. -/
  sr13On : Timer0Source → Bool := fun _ => true
  /-- `P_SR3_CNT_SHIFT`, 0..2 (R359). -/
  sr3CntShift : Fin 3 := 0
  /-- `P_SR4_CNT_SHIFT`, 0..2 (R355). -/
  sr4CntShift : Fin 3 := 0
  /-- `P_BUTTON_LINE` (R373). -/
  buttonLine : Button → Fin 4 := Config.refButtonLine
  /-- `P_CELL_CODE` (R327). -/
  cellCode : Fin 4 → Fin 10 → Fin 64 := Config.refCellCode
  /-- `P_FONT` (R327): five bits, bit 4 the leftmost dot. -/
  font : Nibble → Fin 7 → BitVec 5 := fun _ _ => 0
  /-- `P_MIRROR_MODE` (R326). -/
  mirrorMode : Nibble → MirrorMode := Config.refMirrorMode
  /-- `P_MIRROR_APPLY` (R326). -/
  mirrorApply : MirrorMode → Half → Fin 28 → Fin 50 → Fin 28 × Fin 50 := Config.refMirrorApply
  /-- `P_SCAN_CELLS` on the cursor values the rasterizer decodes (R328). -/
  scanCells : Fin 512 → ScanPos := Config.refScanCells
  /-- `P_DIRECT_PAINT(cursor, v, MirrorBot)` (R305); a `dw` value is zero-extended to 8 bits, log 14. -/
  directPaint : Nat → Byte → MirrorMode → List PixelWrite := Config.refDirectPaint
  /-- `P_CTRL_ON` (R304). -/
  ctrlOn : Nibble → Bool := fun v => v != 0
  /-- `P_ACTION_FIRES` (R310), a test of the written value: 8 bits from `dw2` as `OneByte`, a nibble with zeros above
  it from every other display write; log 25. -/
  actionFires : Byte → Bool := fun v => v != 0
  /-- `P_CONTRAST_RESET`, 0..32 (R40, R42). -/
  contrastReset : Fin 33 := 16
  /-- `P_DW2_MODE` (R205). -/
  dw2Mode : Dw2Mode := .twoNibbles

/-- `P_SR13_ENABLES(s, m)`: whether mask value m lets source s set its SR12 bit (R357). -/
def Cfg.sr13Enables (c : Cfg) (s : Timer0Source) (m : Nibble) : Bool :=
  m.getLsbD (c.sr13Bit s).val == c.sr13On s

/-- The constraints 92 Part 2 and R104 state on the parameters. -/
structure Cfg.Valid (c : Cfg) : Prop where
  /-- R104 (c): the all-zero word is a defined instruction. -/
  decode_zero : c.decodeSlot 0 0 ≠ none
  /-- R104 (d): a decoded form carries fields inside the ranges of R106. -/
  decode_wellFormed : ∀ slot rest i, c.decodeSlot slot rest = some i → i.WellFormed = true
  ispModeBit_ne_txen : c.ispModeBit ≠ c.ispTxenBit
  ispRxenBit_ne_txreq : c.ispRxenBit ≠ c.ispTxreqBit
  ispDoneBit_ne_imm : c.ispDoneBit ≠ c.ispImmBit
  ispPage_dvd : c.ispPage ∣ 0x800
  swPendBit_ne_gate : c.swPendBit.val ≠ c.t1GateBit.val
  sr12Bit_injective : Function.Injective c.sr12Bit
  sr13Bit_injective : Function.Injective c.sr13Bit
  buttonLine_bijective : Function.Bijective c.buttonLine
  /-- R327: injective on the 40 cells. -/
  cellCode_injective : ∀ r k r' k', c.cellCode r k = c.cellCode r' k' → r = r' ∧ k = k'
  /-- R326: no-mirror is the identity. -/
  mirrorApply_none : ∀ h y x, c.mirrorApply .none h y x = (y, x)
  /-- R305: at most five pixel writes. -/
  directPaint_length : ∀ n v m, (c.directPaint n v m).length ≤ 5
  /-- 92, P_SCAN_CELLS: nothing is painted at cursor 512. -/
  directPaint_done : ∀ v m, c.directPaint 512 v m = []

/-- The reference instantiation of 92 Part 2, but for the decoder, of which the spec gives none. -/
def Cfg.reference : Cfg := { }

/-- The reference instantiation meets the constraints, so that a valid record exists. -/
theorem Cfg.reference_valid : Cfg.reference.Valid where
  decode_zero := by decide
  decode_wellFormed := by
    intro slot rest i h
    simp only [Cfg.reference, Config.witnessDecode] at h
    split at h
    · cases h; rfl
    · cases h
  ispModeBit_ne_txen := by decide
  ispRxenBit_ne_txreq := by decide
  ispDoneBit_ne_imm := by decide
  ispPage_dvd := by decide
  swPendBit_ne_gate := by decide
  sr12Bit_injective := by intro a b; cases a <;> cases b <;> decide
  sr13Bit_injective := by intro a b; cases a <;> cases b <;> decide
  buttonLine_bijective := by
    refine ⟨by intro a b; cases a <;> cases b <;> decide, fun l => ?_⟩
    match l with
    | 0 => exact ⟨.left, rfl⟩
    | 1 => exact ⟨.mode, rfl⟩
    | 2 => exact ⟨.transmit, rfl⟩
    | 3 => exact ⟨.right, rfl⟩
  cellCode_injective := by
    intro r k r' k' h
    have h' : 16 * r.val + k.val = 16 * r'.val + k'.val := congrArg Fin.val h
    exact ⟨Fin.ext (by omega), Fin.ext (by omega)⟩
  mirrorApply_none := fun _ _ _ => rfl
  directPaint_length := by
    intro n v m
    simp only [Cfg.reference, Config.refDirectPaint]
    split
    · split <;> simp
    · simp
  directPaint_done := by intro v m; rfl

/-- A parameter record together with the proof that it meets the constraints. -/
structure Config.Chip where
  cfg : Cfg := Cfg.reference
  valid : cfg.Valid := by exact Cfg.reference_valid
  deriving Inhabited

/-- The parameters of the chip at hand: some valid record, with no body, so that nothing more can be
proved of it (R8). -/
opaque Config.chip : Config.Chip

end Sys2Proof
end

