-- ==== Sys2Proof/Machine/Params.lean ====
section
/-! DEFINITION. The one place where the machine takes its parameter record from (spec/00_scope.md R8). Every
shared operation has a parameter `c : Cfg`; the meanings, the step and the reset state pass `chipCfg`. -/

namespace Sys2Proof.Machine

/-- The parameters of the chip at hand: an arbitrary valid record (R8, log 2). -/
def chipCfg : Cfg := Config.chip.cfg

/-- All that is known of the parameters: the constraints of spec/92_eei_decisions.md Part 2. -/
theorem chipCfg_valid : chipCfg.Valid := Config.chip.valid

end Sys2Proof.Machine
end

