-- ==== Sys2Proof/Decode.lean ====
section
/-! DEFINITION. The decoder `P_DECODE` (spec/30_encoding.md R104) over words and bytes, and the encoder. The
source gives no bit layout (spec/91_not_in_source.md N1), so the decoder is the open parameter of
`Cfg`, and no word but 0x0000 is known to decode (R104 (c)). The encoder is `enc(form)` of
spec/95_test_vectors.md: a word that decodes to the form. Log 1. -/

namespace Sys2Proof

/-- Why a list of bytes is no instruction: it holds no whole word, or `P_DECODE` gives no form (R109). -/
inductive DecodeError where
  | tooShort
  | undecoded (w : Word16)
  deriving DecidableEq, Repr

/-- `P_DECODE` for a parameter record: a function of the word alone, through the primary dispatch field,
bits [15:10] (R101, R104 (a), (b)). -/
def decodeWith (c : Cfg) (w : Word16) : Option Instr :=
  c.decodeSlot (w.extractLsb' 10 6) (w.extractLsb' 0 10)

/-- `P_DECODE` of the chip at hand (R104). -/
def decode (w : Word16) : Option Instr := decodeWith Machine.chipCfg w

/-- The word of two bytes, the first byte in bits [15:8] (R73, R100). -/
def wordOfBytes (b0 b1 : Byte) : Word16 := b0 ++ b1

/-- The high byte of a word, the byte at the even address (R73). -/
def wordHi (w : Word16) : Byte := w.extractLsb' 8 8

/-- The low byte of a word, the byte at the odd address (R73). -/
def wordLo (w : Word16) : Byte := w.extractLsb' 0 8

/-- Decode the first instruction of a list of bytes, big-endian; the rest of the list is what follows it. -/
def decodeBytes : List Byte → Except DecodeError (Instr × List Byte)
  | b0 :: b1 :: rest =>
    match decode (wordOfBytes b0 b1) with
    | some i => .ok (i, rest)
    | none => .error (.undecoded (wordOfBytes b0 b1))
  | _ => .error .tooShort

/-- The first of the `n` words from `w` on that a decoder reads as `i`. -/
def searchWord (dec : Word16 → Option Instr) (i : Instr) : Nat → Nat → Option Word16
  | 0, _ => none
  | n + 1, w => if dec (BitVec.ofNat 16 w) = some i then some (BitVec.ofNat 16 w) else searchWord dec i n (w + 1)

/-- `enc(form)` for a decoder: its least word, `none` for a form no word stands for. -/
def encodeWith (dec : Word16 → Option Instr) (i : Instr) : Option Word16 := searchWord dec i 65536 0

/-- `enc(form)` of the chip at hand (spec/95_test_vectors.md). -/
def encode (i : Instr) : Option Word16 := encodeWith decode i

/-- The bytes of a form's word as they stand in memory (R73). -/
def encodeBytes (i : Instr) : Option (List Byte) := (encode i).map fun w => [wordHi w, wordLo w]

/-- The instruction the decoder reads from the word `w`, of which the lowest `nbits` bits count. -/
def decodeTableWord (nbits w : Nat) : Option Instr :=
  let word : Word16 := BitVec.ofNat 16 (w % 2 ^ nbits)
  match decodeBytes [wordHi word, wordLo word] with
  | .ok (i, _) => some i
  | .error _ => none

end Sys2Proof
end

