-- ==== Sys2Proof/Machine/State.lean ====
section
/-! DEFINITION. The state of the machine as plain data (spec/10_state.md), the reasons a step can stop
(spec/60_exceptions.md R351), and the state after power-on (R42, R401). -/

namespace Sys2Proof.Machine

/-- The model's fault (R13, R351). -/
inductive Fault where
  /-- Raised by the fetch at a PC at or above 0xC00, beyond the internal region (R74). Safe: the source
  gives no word there. -/
  | fetchOutsideInternal (pc : Addr12)
  deriving DecidableEq, Repr

/-- What a `refuse(Unmodelled(...))` of R351 names. -/
inductive Unmodelled where
  | xld
  | xst
  | ssa
  | sla
  | bsar
  | lap
  deriving DecidableEq, Repr

/-- The model's refusals (R13, R351). -/
inductive Refusal where
  /-- Raised by an arm of `exec` that has no meaning. Safe. No arm is left so. -/
  | notModelled (mnemonic : String)
  /-- Raised by the decode of a word for which `P_DECODE` gives no form (R109). Safe. -/
  | undecoded (word : Word16)
  /-- Raised by the five implied forms (R280..R284) and by a lap press (R372). Safe. -/
  | unmodelled (form : Unmodelled)
  /-- Raised by a display write at an address of 128 or more (R85). Safe. -/
  | displayAddressHigh (a : BitVec 8)
  /-- Raised by a display write to 127 with bit 0 set (R306). Safe. -/
  | transientDirectDraw
  /-- Raised by a press or release of a line outside 0..3 (R370, R371). Safe. -/
  | keyLine (l : Nat)
  deriving DecidableEq, Repr

/-- The sticky outcome a tick or host event can leave (R13, R38). -/
inductive Mark where
  | fault (r : Fault)
  | refused (r : Refusal)
  deriving DecidableEq, Repr

/-- The stopwatch mode machine (R37, R372). -/
inductive Stopwatch where
  | disabled
  | enabled
  | running
  | stopped
  deriving DecidableEq, Repr

/-- The commands of the audio port (R219, R369). -/
inductive AudioCmd where
  | playTone
  | startTremolo
  | stopTremolo
  deriving DecidableEq, Repr

/-- What leaves the block: a byte at `tx` or a command at `audio` (R6, R368, R369). -/
inductive PortEvent where
  | tx (b : Byte)
  | audio (cmd : AudioCmd)
  deriving DecidableEq, Repr

/-- The register file and the program counter (R20..R32). -/
structure RegFile where
  /-- `GR[b][i]` (R20). -/
  gr : Vector (Vector Nibble 32) 4
  /-- The current bank (R21). -/
  cb : Bank
  /-- The alternate bank (R21). -/
  ab : Bank
  /-- The address of the instruction being executed (R23). -/
  pc : Addr12
  /-- Carry (R27). -/
  cf : Bool
  /-- Zero (R28). -/
  zf : Bool
  /-- The call stack, oldest entry first, at most 3 entries (R29). -/
  stk : List Addr12
  /-- The bus latch that captures overwritten register values (R25). -/
  bsa : BitVec 12
  deriving DecidableEq, Repr

/-- The special registers and the hidden device state (R33..R37). -/
structure Devices where
  /-- `sr[0..15]` (R33). -/
  sr : Vector Nibble 16
  /-- False is register mode, true is DMA mode (R35). -/
  ispMode : Bool
  /-- Transmit enable (R35). -/
  ispTxen : Bool
  /-- Receive enable (R35). -/
  ispRxen : Bool
  /-- A transmit is armed (R35). -/
  ispTxpend : Bool
  /-- The divider of the 24-tick transmit slot, 0..23 (R35). -/
  ispDiv : Nat
  /-- Timer0's count of base ticks mod 1024 (R36). -/
  t0 : BitVec 10
  /-- Timer1's count, 0..37 (R36). -/
  t1 : Nat
  /-- The stopwatch mode machine (R37). -/
  sw : Stopwatch
  deriving DecidableEq, Repr

/-- A byte memory: the cells that differ from what an unlisted address reads as, addresses rising. -/
abbrev Memory := List Host.Cell

/-- A set of word indices, rising (R78). -/
abbrev WordSet := List Nat

/-- The memory bus (R39). -/
structure MemoryBus where
  /-- The internal region, 6144 bytes (R70). -/
  imem : Memory
  /-- The external region, 2048 bytes (R70). -/
  xmem : Memory
  /-- The external-memory pointer (R79). -/
  sa : BitVec 11
  /-- The dirty words of the internal region (R78). -/
  dirtyI : WordSet
  /-- The dirty words of the external region (R78). -/
  dirtyX : WordSet
  deriving DecidableEq, Repr

/-- The display controller (R40). -/
structure Lcd where
  /-- Character codes (R40). -/
  ddram : Vector Nibble 64
  /-- Blink flags (R40). -/
  daram : Vector Bool 64
  /-- Control registers (R40). -/
  dctrl : Vector Nibble 16
  /-- The write-address latch (R40). -/
  la : BitVec 8
  /-- The pixel buffer, `pix[y][x]` (R40). -/
  pix : Vector (Vector Bool 50) 28
  /-- The scan cursor, 0..512 (R40, R329). -/
  cursor : Nat
  /-- The contrast, 0..32 (R40). -/
  contrast : Nat
  /-- The global blink glyph: false is blank, true is flood fill (R40, R331). -/
  blinkOn : Bool
  /-- The blink period counter, mod 1024 (R40). -/
  blinkCtr : BitVec 10
  /-- The full-redraw request of DCTRL 12 (R40, R322). -/
  redrawReq : Bool
  deriving DecidableEq, Repr

/-- The engine's hidden state (R38) and the record of the output ports (R416, log 9). -/
structure Engine where
  /-- The ticks the current instruction still occupies, 0..7 (R38, R404). -/
  busy : Nat
  /-- Base ticks since reset (R38). -/
  cycles : Nat
  /-- The sticky outcome (R13, R38). -/
  mark : Option Mark
  /-- What left the `tx` and `audio` ports, oldest first, each with its tick (R416). -/
  trace : List (Nat × PortEvent)
  deriving DecidableEq, Repr

/-- The whole state of the block. -/
structure State where
  regs : RegFile
  dev : Devices
  bus : MemoryBus
  lcd : Lcd
  eng : Engine
  deriving DecidableEq, Repr

/-- The number of bytes of the internal region (R7, R70). -/
def imemSize : Nat := 6144

/-- The number of bytes of the external region (R7, R70). -/
def xmemSize : Nat := 2048

/-- The register file after reset (R42). -/
def RegFile.reset : RegFile where
  gr := Vector.replicate 4 (Vector.replicate 32 0)
  cb := 0
  ab := 0
  pc := 0
  cf := false
  zf := false
  stk := []
  bsa := 0

/-- The devices after reset (R33, R35..R37, R42). -/
def Devices.reset : Devices where
  sr := Vector.replicate 16 0
  ispMode := false
  ispTxen := false
  ispRxen := false
  ispTxpend := false
  ispDiv := 0
  t0 := 0
  t1 := 0
  sw := .disabled

/-- The memory bus at power-on with no image: both regions zero, both dirty sets full (R77, R401). -/
def MemoryBus.powerOn : MemoryBus where
  imem := []
  xmem := []
  sa := 0
  dirtyI := List.range (imemSize / 2)
  dirtyX := List.range (xmemSize / 2)

/-- The display controller after reset, for a parameter record (R40, R42). -/
def Lcd.reset (c : Cfg) : Lcd where
  ddram := Vector.replicate 64 0
  daram := Vector.replicate 64 false
  dctrl := Vector.replicate 16 0
  la := 0
  pix := Vector.replicate 28 (Vector.replicate 50 false)
  cursor := 0
  contrast := c.contrastReset.val
  blinkOn := false
  blinkCtr := 0
  redrawReq := false

/-- The engine after reset (R38, R42). -/
def Engine.reset : Engine where
  busy := 0
  cycles := 0
  mark := none
  trace := []

/-- The state right after power-on with no image loaded (R42, R401, R414); log 6. -/
def State.reset : State where
  regs := RegFile.reset
  dev := Devices.reset
  bus := MemoryBus.powerOn
  lcd := Lcd.reset chipCfg
  eng := Engine.reset

end Sys2Proof.Machine
end

