-- ==== Sys2Proof/Machine/Ops.lean ====
section
/-! DEFINITION. The shared operations on the state: bits, memory, the memory bus, the register file with its
bSA capture, the call stack, the special registers and their write dispatch (spec/10_state.md,
spec/20_memory.md, spec/42_io_display_write.md). The hardware takes no exception (R350); the one thing
beside a normal step is the sticky mark (R13), which `State.raise` sets. -/

namespace Sys2Proof.Machine

/-! ### Bits of a nibble -/

/-- `bit(n)`: 1 << n (spec/42_io_display_write.md). -/
def bit (n : BitIdx) : Nibble := 1#4 <<< n.val

/-- Set bit n. -/
def setBit (v : Nibble) (n : BitIdx) : Nibble := v ||| bit n

/-- Clear bit n. -/
def clearBit (v : Nibble) (n : BitIdx) : Nibble := v &&& ~~~(bit n)

/-- Write bit n. -/
def putBit (v : Nibble) (n : BitIdx) (b : Bool) : Nibble := if b then setBit v n else clearBit v n

/-- `v[n]`. -/
def testBit (v : Nibble) (n : BitIdx) : Bool := v.getLsbD n.val

/-- Add 1 to the 2-bit counter at a shift, the other bits kept (R355, R359). -/
def bumpCounter (v : Nibble) (shift : Fin 3) : Nibble :=
  let c := ((v >>> shift.val) + 1) &&& 3
  (v &&& ~~~(3#4 <<< shift.val)) ||| (c <<< shift.val)

/-- Zero-extend a nibble to the 8 bits of a display value (R305, log 14). -/
def nibbleByte (v : Nibble) : Byte := v.setWidth 8

/-! ### Byte memories and dirty sets -/

/-- What an address that no cell lists reads as: the zero fill of R77; log 16. -/
def Memory.unlisted : Byte := 0

/-- The byte at an address. -/
def Memory.read : Memory → Nat → Byte
  | [], _ => Memory.unlisted
  | (a', b) :: t, a => if a = a' then b else Memory.read t a

/-- Store a byte at an address, keeping the canonical form. -/
def Memory.write : Memory → Nat → Byte → Memory
  | [], a, b => if b = Memory.unlisted then [] else [(a, b)]
  | (a', b') :: t, a, b =>
    if a < a' then (if b = Memory.unlisted then (a', b') :: t else (a, b) :: (a', b') :: t)
    else if a = a' then (if b = Memory.unlisted then t else (a, b) :: t)
    else (a', b') :: Memory.write t a b

/-- The memory that holds a list of bytes from an address on (R77). -/
def Memory.ofBytes : Nat → List Byte → Memory
  | _, [] => []
  | a, b :: t => if b = Memory.unlisted then Memory.ofBytes (a + 1) t else (a, b) :: Memory.ofBytes (a + 1) t

/-- The canonical form from an address on: addresses strictly rising, below the region's size, no cell
that holds what an unlisted address reads as. -/
def Memory.wfFrom (lo size : Nat) : Memory → Bool
  | [] => true
  | (a, b) :: t => decide (lo ≤ a) && decide (a < size) && (b != Memory.unlisted) && Memory.wfFrom (a + 1) size t

/-- The canonical form of a region's memory. -/
def Memory.wf (size : Nat) (m : Memory) : Bool := Memory.wfFrom 0 size m

/-- Add a word index to a dirty set (R78). -/
def WordSet.insert : WordSet → Nat → WordSet
  | [], w => [w]
  | w' :: t, w => if w < w' then w :: w' :: t else if w = w' then w' :: t else w' :: WordSet.insert t w

/-- The canonical form of a dirty set from an index on: strictly rising, below the region's word count. -/
def WordSet.wfFrom (lo words : Nat) : WordSet → Bool
  | [] => true
  | w :: t => decide (lo ≤ w) && decide (w < words) && WordSet.wfFrom (w + 1) words t

/-- The canonical form of a region's dirty set. -/
def WordSet.wf (words : Nat) (s : WordSet) : Bool := WordSet.wfFrom 0 words s

/-! ### The memory bus -/

/-- `fetchOpcode(pc)`: the word at byte address 2·pc, big-endian (R72, R73). -/
def MemoryBus.fetchOpcode (m : MemoryBus) (pc : Addr12) : Word16 :=
  wordOfBytes (m.imem.read (2 * pc.toNat)) (m.imem.read (2 * pc.toNat + 1))

/-- `ExtReadByte()` (R80). -/
def MemoryBus.extReadByte (m : MemoryBus) : Byte × MemoryBus :=
  (m.xmem.read m.sa.toNat, { m with sa := m.sa + 1 })

/-- `ExtWriteByte(v)` (R81). -/
def MemoryBus.extWriteByte (m : MemoryBus) (v : Byte) : MemoryBus :=
  { m with
    xmem := m.xmem.write m.sa.toNat v
    dirtyX := WordSet.insert m.dirtyX (m.sa.toNat / 2)
    sa := m.sa + 1 }

/-- `ExtReadNibble()` (R82). -/
def MemoryBus.extReadNibble (m : MemoryBus) : Nibble := (m.xmem.read m.sa.toNat).setWidth 4

/-- `setSA(v)`: store v & 0x7FF (R79). -/
def MemoryBus.setSA (m : MemoryBus) (v : Nat) : MemoryBus := { m with sa := BitVec.ofNat 11 v }

/-- `getSA()` (R79). -/
def MemoryBus.getSA (m : MemoryBus) : BitVec 11 := m.sa

/-! ### The register file -/

/-- bSA after one capture of an old register value (R25). -/
def capture (bsa : BitVec 12) (old : Nibble) : BitVec 12 := (bsa >>> 4) ||| (old.setWidth 12 <<< 8)

/-- `GR[b][i]`. -/
def RegFile.reg (r : RegFile) (b : Bank) (i : Reg) : Nibble := r.gr[b][i]

/-- `x[i]`: register i of the current bank (R10). -/
def RegFile.x (r : RegFile) (i : Reg) : Nibble := r.reg r.cb i

/-- `xa[i]`: register i of the alternate bank (R10). -/
def RegFile.xa (r : RegFile) (i : Reg) : Nibble := r.reg r.ab i

/-- `GR[b][i] <- v` with no capture: what a host edit does (R25). -/
def RegFile.rawWrite (r : RegFile) (b : Bank) (i : Reg) (v : Nibble) : RegFile :=
  { r with gr := r.gr.set b ((r.gr[b]).set i v) }

/-- A register write of an instruction: bSA captures the old value, then the register changes (R25). -/
def RegFile.write (r : RegFile) (b : Bank) (i : Reg) (v : Nibble) : RegFile :=
  { r.rawWrite b i v with bsa := capture r.bsa (r.reg b i) }

/-- `x[i] <- v` (R10, R25). -/
def RegFile.writeX (r : RegFile) (i : Reg) (v : Nibble) : RegFile := r.write r.cb i v

/-- `xa[i] <- v` (R10, R25). -/
def RegFile.writeXa (r : RegFile) (i : Reg) (v : Nibble) : RegFile := r.write r.ab i v

/-- Register writes in the current bank, in list order. -/
def RegFile.writeAll : List (Reg × Nibble) → RegFile → RegFile
  | [], r => r
  | (i, v) :: t, r => RegFile.writeAll t (r.writeX i v)

/-- Register-to-register moves in the current bank, in list order, each read after the earlier writes. -/
def RegFile.moveAll : List (Reg × Reg) → RegFile → RegFile
  | [], r => r
  | (d, s) :: t, r => RegFile.moveAll t (r.writeX d (r.x s))

/-- `pc <- PC + 1` (R24). -/
def RegFile.advance (r : RegFile) : RegFile := { r with pc := r.pc + 1 }

/-- `pc <- target`, taken or not (spec/43_control.md). -/
def RegFile.branch (r : RegFile) (taken : Bool) (target : Addr12) : RegFile :=
  if taken then { r with pc := target } else r.advance

/-- `Push(a)` on a call stack (R30). -/
def pushStack (stk : List Addr12) (a : Addr12) : List Addr12 :=
  let stk' := stk ++ [a]
  if stk'.length = 4 then stk'.tail else stk'

/-- `Pop()` on a call stack: the newest entry, if any, and the stack without it (R31). -/
def popStack (stk : List Addr12) : Option Addr12 × List Addr12 := (stk.getLast?, stk.dropLast)

/-! ### The special registers -/

/-- `sr[i]`, raw (R10). -/
def Devices.getSr (d : Devices) (i : SRIdx) : Nibble := d.sr[i]

/-- `sr[i] <- v`, raw. -/
def Devices.setSr (d : Devices) (i : SRIdx) (v : Nibble) : Devices := { d with sr := d.sr.set i v }

/-- Apply a function to one special register. -/
def Devices.modSr (d : Devices) (i : SRIdx) (f : Nibble → Nibble) : Devices := d.setSr i (f (d.getSr i))

/-- The devices after `SRRead(i)` (R206, R207). -/
def Devices.afterRead (d : Devices) (i : SRIdx) : Devices :=
  if i = 3 ∨ i = 4 then d.setSr i 0
  else if i = 15 then d.modSr 15 (· &&& 0b1110)
  else d

/-- `SRRead(i)`: the value before the clear, and the devices after it (R206). -/
def Devices.srRead (d : Devices) (i : SRIdx) : Nibble × Devices := (d.getSr i, d.afterRead i)

/-- The SR10 arm: the stopwatch command (R215). -/
def Devices.sr10Write (c : Cfg) (v : Nibble) (d : Devices) : Devices :=
  match c.sr10Cmd v with
  | .enable => if d.sw = .disabled then { d with sw := .enabled } else d
  | .disable => { d.modSr 9 (clearBit · c.t1GateBit) with sw := .disabled }
  | .clear => { d.setSr 10 0 with t1 := 0 }
  | .gate => d.modSr 9 (putBit · c.t1GateBit (testBit v 0))
  | .none => d

/-- The SR9 arm: clear-on-write-1 of bits 0..2; at zero the SR0 stopwatch bit is cleared (R216). -/
def Devices.sr9Write (c : Cfg) (v : Nibble) (d : Devices) : Devices :=
  let d' := d.modSr 9 (· &&& ~~~(v &&& 0b0111))
  if d'.getSr 9 = 0 then d'.modSr 0 (clearBit · c.sr0SwBit) else d'

/-- The SR12 arm: clear by inverse mask; at zero the SR0 timer bit is cleared (R217). -/
def Devices.sr12Write (c : Cfg) (v : Nibble) (d : Devices) : Devices :=
  let d' := d.modSr 12 (· &&& ~~~v)
  if d'.getSr 12 = 0 then d'.modSr 0 (clearBit · c.sr0TimerBit) else d'

/-- `SRWrite(i, v)`: one arm of the 16-entry dispatch table, but for the audio port (R208..R219). -/
def Devices.srWrite (c : Cfg) (i : SRIdx) (v : Nibble) (d : Devices) : Devices :=
  match i.val with
  | 1 => (d.setSr 1 v).modSr 0 (· &&& ~~~c.ackSr1)
  | 3 => { d with ispMode := testBit v c.ispModeBit, ispTxen := testBit v c.ispTxenBit }
  | 4 => { d with ispRxen := testBit v c.ispRxenBit, ispTxpend := d.ispTxpend || testBit v c.ispTxreqBit }
  | 7 => (d.setSr 7 v).modSr 0 (· &&& ~~~c.ackSr7)
  | 9 => d.sr9Write c v
  | 10 => d.sr10Write c v
  | 12 => d.sr12Write c v
  | 14 => d.setSr 14 0
  -- 0, 2, 8, 11, 13 (R209); 5, 6 (R211); 15 (R219)
  | _ => d.setSr i v

/-- The audio commands an SR15 write issues, in the order bit 0, bit 2, bit 1 (R219). -/
def audioCommands (v : Nibble) : List AudioCmd :=
  (if testBit v 0 then [.playTone] else []) ++ (if testBit v 2 then [.startTremolo] else [])
    ++ (if testBit v 1 then [.stopTremolo] else [])

/-! ### The whole state -/

/-- Change the register file only. -/
def State.mapRegs (s : State) (f : RegFile → RegFile) : State := { s with regs := f s.regs }

/-- Change the devices only. -/
def State.mapDev (s : State) (f : Devices → Devices) : State := { s with dev := f s.dev }

/-- Put the display controller. -/
def State.setLcd (s : State) (l : Lcd) : State := { s with lcd := l }

/-- Put an event on the output record, tagged with the number of the tick now running (R416). -/
def State.emit (s : State) (e : PortEvent) : State :=
  { s with eng := { s.eng with trace := s.eng.trace ++ [(s.eng.cycles + 1, e)] } }

/-- Put several events on the output record. -/
def State.emitAll : List PortEvent → State → State
  | [], s => s
  | e :: t, s => State.emitAll t (s.emit e)

/-- `SRWrite(i, v)` with its audio commands (R208, R219, R369). -/
def State.srWrite (c : Cfg) (i : SRIdx) (v : Nibble) (s : State) : State :=
  let s' := s.mapDev (Devices.srWrite c i v)
  if i = 15 then State.emitAll ((audioCommands v).map PortEvent.audio) s' else s'

/-- Set the sticky mark; the first one stays (R13, R416). -/
def State.raise (s : State) (m : Mark) : State :=
  match s.eng.mark with
  | some _ => s
  | none => { s with eng := { s.eng with mark := some m } }

end Sys2Proof.Machine
end

