-- ==== Sys2Proof/Machine/Operands.lean ====
section
/-! DEFINITION. Operand forms: the ranged window (spec/00_scope.md R12, spec/30_encoding.md R108) and the
cost it gives an instruction (spec/70_reset_and_hazards.md R406). Register, immediate, bank and
special-register operands are the typed fields themselves; control targets are the `P_*_TARGET`
functions of `Cfg` (R107). -/

namespace Sys2Proof.Machine

/-- `len(hi, lo) = ((lo − hi) & 7) + 1` (R12). -/
def windowLen (hi lo : Off3) : Nat := (lo.val + 8 - hi.val) % 8 + 1

/-- `W(p, hi, lo)[k] = 8·p + ((hi + k) mod 8)` (R12). -/
def windowReg (p : Page) (hi : Off3) (k : Nat) : Reg := ⟨8 * p.val + (hi.val + k) % 8, by omega⟩

/-- `W(p, hi, lo)`: element 0 is the hi end, the last element the lo end (R12). -/
def window (p : Page) (hi lo : Off3) : List Reg := (List.range (windowLen hi lo)).map (windowReg p hi)

/-- The destination and source registers of a two-window form, element for element (R108, R184). -/
def windowPairs (pd ps : Page) (hi lo : Off3) : List (Reg × Reg) :=
  (List.range (windowLen hi lo)).map fun k => (windowReg pd hi k, windowReg ps hi k)

/-- The digits of a window as they stand, hi end first. -/
def RegFile.digits (r : RegFile) (w : List Reg) : List Nibble := w.map r.x

/-- The cost of an instruction in base ticks (R406). A refused form has none; it is given 1 here and the
engine never reads it, because the run ends. -/
def cost : Instr → Nat
  | .radd _ _ hi lo | .radb _ _ hi lo | .rsub _ _ hi lo | .rsbb _ _ hi lo => windowLen hi lo
  | .rcmp _ _ hi lo | .rmov _ _ hi lo => windowLen hi lo
  | .rshl _ hi lo | .rshr _ hi lo | .rclr _ hi lo => windowLen hi lo
  | .add _ _ | .adb _ _ | .sub _ _ | .sbb _ _ => 1
  | .addi _ _ | .adbi _ _ | .subi _ _ | .sbbi _ _ => 1
  | .cmp _ _ | .cmpi _ _ | .andi _ _ | .ori _ _ | .xori _ _ => 1
  | .mov _ _ | .movi _ _ | .mvca _ _ | .mvac _ _ | .scb _ | .sab _ => 1
  | .inp _ _ | .out _ _ | .outi _ _ | .dw _ | .dw2 _ _ => 1
  | .call _ _ | .ret | .br _ | .jmp _ _ | .jz _ | .jnz _ | .jc _ | .jnc _ => 1
  | .btb _ _ _ _ | .cib _ _ _ _ | .ijmp _ _ | .wfe => 1
  | .xld | .xst | .ssa | .sla | .bsar => 1

end Sys2Proof.Machine
end

