-- ==== Sys2Proof/Machine/Flags.lean ====
section
/-! DEFINITION. The digit functions and every flag computation (spec/40_arithmetic.md R130, R131, R140,
R148): each digit function computes exactly and narrows at the end. -/

namespace Sys2Proof.Machine

/-- A digit function: two digits and a carry or borrow in; a digit and a carry or borrow out (R130). -/
abbrev DigitFn := Nibble → Nibble → Bool → Nibble × Bool

/-- `AddBin` (R130). -/
def addBin : DigitFn := fun a b c =>
  let s := a.toNat + b.toNat + c.toNat
  (BitVec.ofNat 4 s, decide (16 ≤ s))

/-- `AddDec`: decimal adjust on overflow past 9 (R130). -/
def addDec : DigitFn := fun a b c =>
  let s := a.toNat + b.toNat + c.toNat
  if 9 < s then (BitVec.ofNat 4 (s + 6), true) else (BitVec.ofNat 4 s, false)

/-- `SubBin`: the carry out means borrow (R130). -/
def subBin : DigitFn := fun a b c =>
  let d : Int := (a.toNat : Int) - b.toNat - c.toNat
  (BitVec.ofInt 4 d, decide (d < 0))

/-- `SubDec`: decimal adjust on a borrow (R130). -/
def subDec : DigitFn := fun a b c =>
  let d : Int := (a.toNat : Int) - b.toNat - c.toNat
  if d < 0 then (BitVec.ofInt 4 (d + 10), true) else (BitVec.ofInt 4 d, false)

/-- `CF <- c; ZF <- z` (R131). -/
def RegFile.setFlags (r : RegFile) (c z : Bool) : RegFile := { r with cf := c, zf := z }

/-- `ZF <- z`, CF kept (R148). -/
def RegFile.setZero (r : RegFile) (z : Bool) : RegFile := { r with zf := z }

/-- A single-digit add or subtract of a value into register x (R131, R132..R139). -/
def RegFile.aluDigit (f : DigitFn) (x : Reg) (b : Nibble) (r : RegFile) : RegFile :=
  let (d, c) := f (r.x x) b false
  ((r.writeX x d).setFlags c (d == 0)).advance

/-- A single-digit compare: the flags of the subtraction, no register written (R145, R146). -/
def RegFile.compareDigit (x : Reg) (b : Nibble) (r : RegFile) : RegFile :=
  let (d, c) := subBin (r.x x) b false
  (r.setFlags c (d == 0)).advance

/-- A logic operation with an immediate (R148..R150). -/
def RegFile.logicDigit (f : Nibble → Nibble → Nibble) (x : Reg) (i : Nibble) (r : RegFile) : RegFile :=
  let d := f (r.x x) i
  ((r.writeX x d).setZero (d == 0)).advance

/-- The digit loop of R140 over register pairs in processing order (lo end first), from a carry and a
zero flag; `keep` writes the digits back, without it this is the loop of R147. -/
def RegFile.rippleLoop (f : DigitFn) (keep : Bool) : List (Reg × Reg) → RegFile → Bool → Bool → RegFile × Bool × Bool
  | [], r, c, z => (r, c, z)
  | (wd, ws) :: t, r, c, z =>
    let (d, c') := f (r.x wd) (r.x ws) c
    RegFile.rippleLoop f keep t (if keep then r.writeX wd d else r) c' (z && d == 0)

/-- The common rule of the ranged arithmetic forms and of the ranged compare (R140, R147). -/
def RegFile.rippleForm (f : DigitFn) (keep : Bool) (pd ps : Page) (hi lo : Off3) (r : RegFile) : RegFile :=
  let (r', c, z) := RegFile.rippleLoop f keep (windowPairs pd ps hi lo).reverse r false true
  (r'.setFlags c z).advance

end Sys2Proof.Machine
end

