-- ==== Sys2Proof/Machine/Arith.lean ====
section
/-! DEFINITION. The add and subtract forms (spec/40_arithmetic.md R132..R144). -/

namespace Sys2Proof.Machine

/-- `add x y`: binary add (R132). -/
def execAdd (x y : Reg) (s : State) : Host.Outcome State Fault Refusal :=
  .next (s.mapRegs fun r => r.aluDigit addBin x (r.x y))

/-- `adb x y`: decimal-adjust add (R133). -/
def execAdb (x y : Reg) (s : State) : Host.Outcome State Fault Refusal :=
  .next (s.mapRegs fun r => r.aluDigit addDec x (r.x y))

/-- `sub x y`: binary subtract (R134). -/
def execSub (x y : Reg) (s : State) : Host.Outcome State Fault Refusal :=
  .next (s.mapRegs fun r => r.aluDigit subBin x (r.x y))

/-- `sbb x y`: decimal-adjust subtract (R135). -/
def execSbb (x y : Reg) (s : State) : Host.Outcome State Fault Refusal :=
  .next (s.mapRegs fun r => r.aluDigit subDec x (r.x y))

/-- `addi x i`: binary add of an immediate (R136). -/
def execAddi (x : Reg) (i : Imm4) (s : State) : Host.Outcome State Fault Refusal :=
  .next (s.mapRegs (RegFile.aluDigit addBin x i))

/-- `adbi x i`: decimal-adjust add of an immediate (R137). -/
def execAdbi (x : Reg) (i : Imm4) (s : State) : Host.Outcome State Fault Refusal :=
  .next (s.mapRegs (RegFile.aluDigit addDec x i))

/-- `subi x i`: binary subtract of an immediate (R138). -/
def execSubi (x : Reg) (i : Imm4) (s : State) : Host.Outcome State Fault Refusal :=
  .next (s.mapRegs (RegFile.aluDigit subBin x i))

/-- `sbbi x i`: decimal-adjust subtract of an immediate (R139). -/
def execSbbi (x : Reg) (i : Imm4) (s : State) : Host.Outcome State Fault Refusal :=
  .next (s.mapRegs (RegFile.aluDigit subDec x i))

/-- `radd`: ranged binary add (R141, R140). -/
def execRadd (pd ps : Page) (hi lo : Off3) (s : State) : Host.Outcome State Fault Refusal :=
  .next (s.mapRegs (RegFile.rippleForm addBin true pd ps hi lo))

/-- `radb`: ranged decimal-adjust add (R142, R140). -/
def execRadb (pd ps : Page) (hi lo : Off3) (s : State) : Host.Outcome State Fault Refusal :=
  .next (s.mapRegs (RegFile.rippleForm addDec true pd ps hi lo))

/-- `rsub`: ranged binary subtract (R143, R140). -/
def execRsub (pd ps : Page) (hi lo : Off3) (s : State) : Host.Outcome State Fault Refusal :=
  .next (s.mapRegs (RegFile.rippleForm subBin true pd ps hi lo))

/-- `rsbb`: ranged decimal-adjust subtract (R144, R140). -/
def execRsbb (pd ps : Page) (hi lo : Off3) (s : State) : Host.Outcome State Fault Refusal :=
  .next (s.mapRegs (RegFile.rippleForm subDec true pd ps hi lo))

end Sys2Proof.Machine
end

