-- ==== Sys2Proof/Machine/Control.lean ====
section
/-! DEFINITION. Control transfer and wait-for-event (spec/43_control.md). A field of more than the bits a target
function reads is that function's own matter (R107). -/

namespace Sys2Proof.Machine

/-- `call v f`: push the own address, jump (R240). -/
def execCall (v : Fin 3) (f : Field) (s : State) : Host.Outcome State Fault Refusal :=
  .next (s.mapRegs fun r => { r with stk := pushStack r.stk r.pc, pc := chipCfg.callTarget v f })

/-- `ret`: to the popped address + 1; on an empty stack to PC + 1 (R241). -/
def execRet (s : State) : Host.Outcome State Fault Refusal :=
  .next (s.mapRegs fun r =>
    match popStack r.stk with
    | (some a, stk) => { r with stk := stk, pc := a + 1 }
    | (none, _) => r.advance)

/-- `br f` (R243). -/
def execBr (f : Field) (s : State) : Host.Outcome State Fault Refusal :=
  .next (s.mapRegs fun r => r.branch true (chipCfg.brTarget r.pc f))

/-- `jmp v f` (R244). -/
def execJmp (v : Fin 4) (f : Field) (s : State) : Host.Outcome State Fault Refusal :=
  .next (s.mapRegs fun r => r.branch true (chipCfg.jmpTarget v f))

/-- `jz f` (R245). -/
def execJz (f : Field) (s : State) : Host.Outcome State Fault Refusal :=
  .next (s.mapRegs fun r => r.branch r.zf (chipCfg.jccTarget r.pc f))

/-- `jnz f` (R246). -/
def execJnz (f : Field) (s : State) : Host.Outcome State Fault Refusal :=
  .next (s.mapRegs fun r => r.branch (!r.zf) (chipCfg.jccTarget r.pc f))

/-- `jc f` (R247). -/
def execJc (f : Field) (s : State) : Host.Outcome State Fault Refusal :=
  .next (s.mapRegs fun r => r.branch r.cf (chipCfg.jccTarget r.pc f))

/-- `jnc f` (R248). -/
def execJnc (f : Field) (s : State) : Host.Outcome State Fault Refusal :=
  .next (s.mapRegs fun r => r.branch (!r.cf) (chipCfg.jccTarget r.pc f))

/-- `btb x b pol f`: bit test and branch (R249). -/
def execBtb (x : Reg) (b : BitIdx) (pol : Bool) (f : Field) (s : State) : Host.Outcome State Fault Refusal :=
  .next (s.mapRegs fun r => r.branch (testBit (r.x x) b == pol) (chipCfg.btbTarget r.pc f))

/-- `cib x i eq f`: compare immediate and branch, no flag written (R250). -/
def execCib (x : Reg) (i : Imm4) (eq : Bool) (f : Field) (s : State) : Host.Outcome State Fault Refusal :=
  .next (s.mapRegs fun r => r.branch ((r.x x == i) == eq) (chipCfg.cibTarget r.pc f))

/-- `ijmp x f`: indexed jump (R251). -/
def execIjmp (x : Reg) (f : Field) (s : State) : Host.Outcome State Fault Refusal :=
  .next (s.mapRegs fun r => r.branch true (chipCfg.ijmpTarget r.pc f (r.x x)))

/-- `wfe`: hold PC while the whole of SR0 is zero (R253). -/
def execWfe (s : State) : Host.Outcome State Fault Refusal :=
  .next (if s.dev.getSr 0 = 0 then s else s.mapRegs RegFile.advance)

end Sys2Proof.Machine
end

