-- ==== Sys2Proof/Machine/Display.lean ====
section
/-! DEFINITION. The character-LCD controller (spec/45_display_controller.md, spec/20_memory.md R85): display
writes, control-register effects, the blink step, the raster step and the opacity outputs. -/

namespace Sys2Proof.Machine

/-! ### Levels and modes -/

/-- The level test of one control register (R304). -/
def Lcd.level (c : Cfg) (l : Lcd) (i : Fin 16) : Bool := c.ctrlOn l.dctrl[i]

/-- `ScanStop()` (R304, R314). -/
def Lcd.scanStop (c : Cfg) (l : Lcd) : Bool := l.level c 4

/-- `BlinkEnable()` (R304, R315). -/
def Lcd.blinkEnable (c : Cfg) (l : Lcd) : Bool := l.level c 5

/-- `TestFill()` (R304, R316). -/
def Lcd.testFill (c : Cfg) (l : Lcd) : Bool := l.level c 6

/-- `DirectDraw()` (R304, R317). -/
def Lcd.directDraw (c : Cfg) (l : Lcd) : Bool := l.level c 7

/-- `AutoReset()` (R304, R318). -/
def Lcd.autoReset (c : Cfg) (l : Lcd) : Bool := l.level c 8

/-- `MirrorTop` and `MirrorBot`: the mode of a half (R311, R312, R326). -/
def Lcd.mirrorOf (c : Cfg) (l : Lcd) : Half → MirrorMode
  | .top => c.mirrorMode l.dctrl[0]
  | .bot => c.mirrorMode l.dctrl[1]

/-- The half of a character row (R326). -/
def halfOf (row : Fin 4) : Half := if row.val < 2 then .top else .bot

/-! ### The pixel buffer -/

/-- `PIX[y][x] <- b`. -/
def Lcd.setPix (l : Lcd) (y : Fin 28) (x : Fin 50) (b : Bool) : Lcd :=
  { l with pix := l.pix.set y ((l.pix[y]).set x b) }

/-- Pixel writes in list order. -/
def Lcd.paint : List PixelWrite → Lcd → Lcd
  | [], l => l
  | p :: t, l => Lcd.paint t (l.setPix p.y p.x p.on)

/-- Every pixel on (R316). -/
def Lcd.fillPix (l : Lcd) : Lcd := { l with pix := Vector.replicate 28 (Vector.replicate 50 true) }

/-! ### Display writes -/

/-- The effect that follows the store into DCTRL[i] (R310..R325): 6 fills at once while test-fill is set,
9..15 act if `P_ACTION_FIRES` holds of the written value v, the others have no effect at the write; log 25. -/
def Lcd.controlEffect (c : Cfg) (i : Nat) (v : Byte) (l : Lcd) : Lcd :=
  match i with
  | 6 => if l.testFill c then l.fillPix else l
  | 9 => if c.actionFires v then { l with contrast := min (l.contrast + 1) 32 } else l
  | 10 => if c.actionFires v then { l with contrast := l.contrast - 1 } else l
  | 11 => if c.actionFires v then { l with dctrl := Vector.replicate 16 0 } else l
  | 12 => if c.actionFires v then { l with redrawReq := true } else l
  | 13 => if c.actionFires v then { l with ddram := Vector.replicate 64 0 } else l
  | 14 => if c.actionFires v then { l with daram := Vector.replicate 64 false } else l
  | 15 => if c.actionFires v then { l with cursor := 0 } else l
  | _ => l

/-- `Target(a, v)`: the ordered address map of R85, with the refusal of R306 checked before anything is
written. DCTRL wins over DARAM at 112..127. A cell or control register stores v & 0xF; an action of DCTRL 9..15 is
tested on the whole of v (R310). -/
def Lcd.target (c : Cfg) (a : BitVec 8) (v : Byte) (l : Lcd) : Except Refusal Lcd :=
  if a = 127 ∧ v.getLsbD 0 = true then .error .transientDirectDraw
  else if h : a.toNat < 64 then .ok { l with ddram := l.ddram.set a.toNat (v.setWidth 4) }
  else if h : 112 ≤ a.toNat ∧ a.toNat < 128 then
    .ok (Lcd.controlEffect c (a.toNat - 112) v
      { l with dctrl := l.dctrl.set (a.toNat - 112) (v.setWidth 4) })
  else if h : a.toNat < 112 then .ok { l with daram := l.daram.set (a.toNat - 64) (v.getLsbD 0) (by omega) }
  else .error (.displayAddressHigh a)

/-- `DirectWrite(v)` (R305). -/
def Lcd.directWrite (c : Cfg) (v : Byte) (l : Lcd) : Lcd :=
  { Lcd.paint (c.directPaint l.cursor v (l.mirrorOf c .bot)) l with cursor := min (l.cursor + 1) 512 }

/-- `DispWrite(v)`: the latched write at LA, and LA + 1 mod 256 (R302). -/
def Lcd.dispWrite (c : Cfg) (v : Byte) (l : Lcd) : Except Refusal Lcd :=
  if l.directDraw c = true ∧ l.la.toNat < 64 then .ok { Lcd.directWrite c v l with la := l.la + 1 }
  else
    match Lcd.target c l.la v l with
    | .ok l' => .ok { l' with la := l.la + 1 }
    | .error r => .error r

/-- `DispWriteAt(a, v)`: the explicit-address write, LA neither read nor changed; no instruction uses it (R303). -/
def Lcd.dispWriteAt (c : Cfg) (a : BitVec 8) (v : Byte) (l : Lcd) : Except Refusal Lcd := Lcd.target c a v l

/-! ### The display step of a tick -/

/-- `BlinkStep()` (R331). -/
def Lcd.blinkStep (c : Cfg) (l : Lcd) : Lcd :=
  let l1 := { l with blinkCtr := l.blinkCtr + 1 }
  if l1.blinkCtr = 0 then
    let l2 := { l1 with blinkOn := !l1.blinkOn }
    if l2.autoReset c then { l2 with cursor := 0 } else l2
  else l1

/-- `Glyph(row, col, d)`: the blink glyph for a blinking cell, else the font row of its code (R327). -/
def Lcd.glyph (c : Cfg) (l : Lcd) (row : Fin 4) (col : Fin 10) (d : Fin 7) : BitVec 5 :=
  let i := c.cellCode row col
  if l.blinkEnable c = true ∧ l.daram[i] = true then (if l.blinkOn then 0b11111 else 0b00000)
  else c.font l.ddram[i] d

/-- The ten character columns. -/
def charColumns : List (Fin 10) := [0, 1, 2, 3, 4, 5, 6, 7, 8, 9]

/-- The columns `max(col−1, 0) .. min(col+3, 10) − 1` of a raster step (R328). DESIGN CHOICE, log 26: at col = 10 this
range is column 9, which R328's pseudocode paints and its bullet on col ≥ 10 calls empty; the pseudocode is followed. -/
def rasterColumns (col : Fin 16) : List (Fin 10) :=
  charColumns.filter fun k => decide (col.val - 1 ≤ k.val) && decide (k.val < col.val + 3)

/-- The five pixel writes of one dot row of one cell, leftmost first, through the mirror (R326, R328). -/
def Lcd.cellPixels (c : Cfg) (l : Lcd) (row : Fin 4) (d : Fin 7) (k : Fin 10) : List PixelWrite :=
  let bits := l.glyph c row k d
  let h := halfOf row
  [(0 : Fin 5), 1, 2, 3, 4].map fun dx =>
    let yx := c.mirrorApply (l.mirrorOf c h) h ⟨7 * row.val + d.val, by omega⟩ ⟨5 * k.val + dx.val, by omega⟩
    ⟨yx.1, yx.2, bits.getLsbD (4 - dx.val)⟩

/-- The pixel writes of a raster step at a decoded cursor; none for dot row 7 (R328). -/
def Lcd.rasterPixels (c : Cfg) (l : Lcd) (pos : ScanPos) : List PixelWrite :=
  if h : pos.dotRow.val < 7 then (rasterColumns pos.col).flatMap (l.cellPixels c pos.row ⟨pos.dotRow.val, h⟩)
  else []

/-- One raster step at a cursor below 512: paint, then the cursor advances by 4, at most to 512 (R328). -/
def Lcd.rasterAt (c : Cfg) (l : Lcd) (n : Fin 512) : Lcd :=
  { Lcd.paint (l.rasterPixels c (c.scanCells n)) l with cursor := min (n.val + 4) 512 }

/-- Whether rasterization is skipped (R328). -/
def Lcd.rasterSkipped (c : Cfg) (l : Lcd) : Bool := l.directDraw c || l.scanStop c || l.testFill c

/-- `RasterStep()` (R328, R329). A cursor above 512, which no run reaches, is treated as 512; log 13. -/
def Lcd.rasterStep (c : Cfg) (l : Lcd) : Lcd :=
  if l.rasterSkipped c then l
  else if h : l.cursor < 512 then l.rasterAt c ⟨l.cursor, h⟩
  else if l.redrawReq then Lcd.rasterAt c { l with cursor := 0, redrawReq := false } 0
  else l

/-- The display step of a tick: blink, then raster (R300, R403). -/
def Lcd.displayStep (c : Cfg) (l : Lcd) : Lcd := Lcd.rasterStep c (Lcd.blinkStep c l)

/-! ### The pixels port -/

/-- `clamp(v, 0, 255)`. -/
def clamp255 (v : Int) : Int := max 0 (min v 255)

/-- `off(c)`, an exact rational (R330). -/
def opacityOff (contrast : Nat) : Rat := (clamp255 (((contrast : Int) - 15) * 6) : Rat) / 255

/-- `on(c)`, an exact rational (R330). -/
def opacityOn (contrast : Nat) : Rat := (clamp255 (15 * (contrast : Int)) : Rat) / 255

/-- `opOff` (R40, R330). -/
def Lcd.opOff (l : Lcd) : Rat := opacityOff l.contrast

/-- `opOn` (R40, R330). -/
def Lcd.opOn (c : Cfg) (l : Lcd) : Rat := if l.testFill c then 1 else opacityOn l.contrast

/-- `Out(y, x)` (R330). -/
def Lcd.outPixel (c : Cfg) (l : Lcd) (y : Fin 28) (x : Fin 50) : Rat :=
  if l.testFill c then 1 else if (l.pix[y])[x] then l.opOn c else l.opOff

/-- The `pixels` port: 1400 opacities in row-major order, index y·50 + x (R301). -/
def Lcd.pixels (c : Cfg) (l : Lcd) : List Rat :=
  (List.range 1400).map fun n => l.outPixel c (Fin.ofNat 28 (n / 50)) (Fin.ofNat 50 (n % 50))

end Sys2Proof.Machine
end

