-- ==== Sys2Proof/Machine/DisplayWrite.lean ====
section
/-! DEFINITION. The display-write forms (spec/42_io_display_write.md R204, R205, R220). -/

namespace Sys2Proof.Machine

/-- The first latched write of a `dw2` that makes two, as a state (R205). -/
def dw2First (c : Cfg) (y1 : Reg) (s : State) : Except Refusal Lcd := s.lcd.dispWrite c (nibbleByte (s.regs.x y1))

/-- All the writes of a `dw2` under `P_DW2_MODE` (R205). -/
def dw2Writes (c : Cfg) (y1 y2 : Reg) (s : State) : Except Refusal Lcd :=
  match c.dw2Mode with
  | .twoNibbles =>
    match dw2First c y1 s with
    | .ok l => l.dispWrite c (nibbleByte (s.regs.x y2))
    | .error r => .error r
  | .oneByte => s.lcd.dispWrite c (s.regs.x y1 ++ s.regs.x y2)

/-- A display-write form ends with the display after its writes and PC + 1, or with the refusal of R85 or
R306 (R204, R205). -/
def State.finishDisplay (s : State) (res : Except Refusal Lcd) : Host.Outcome State Fault Refusal :=
  match res with
  | .ok l => .next ((s.setLcd l).mapRegs RegFile.advance)
  | .error r => .refused r

/-- `dw y` (R204). -/
def execDw (y : Reg) (s : State) : Host.Outcome State Fault Refusal :=
  s.finishDisplay (s.lcd.dispWrite chipCfg (nibbleByte (s.regs.x y)))

/-- `dw2 y1 y2` (R205). -/
def execDw2 (y1 y2 : Reg) (s : State) : Host.Outcome State Fault Refusal :=
  s.finishDisplay (dw2Writes chipCfg y1 y2 s)

/-- The state in which an instruction that refuses stands: what it wrote before the refusal (R403, R416).
Only a `dw2` of two writes whose second one refuses has written anything by then. -/
def stateAtRefusal (c : Cfg) (i : Instr) (s : State) : State :=
  match i with
  | .dw2 y1 _ =>
    match c.dw2Mode, dw2First c y1 s with
    | .twoNibbles, .ok l => s.setLcd l
    | _, _ => s
  | _ => s

end Sys2Proof.Machine
end

