-- ==== Sys2Proof/Machine/Implied.lean ====
section
/-! DEFINITION. The forms the source implies but does not describe (spec/44_implied.md R280..R284). -/

namespace Sys2Proof.Machine

/-- What an implied form does: the source names the operation and gives it no operands, so the spec
refuses it (R103, D52 of spec/92_eei_decisions.md). -/
def refuseUnmodelled (form : Unmodelled) : Host.Outcome State Fault Refusal := .refused (.unmodelled form)

/-- `xld`: multi-register load from external memory, refused by the spec (R280). -/
def execXld (_s : State) : Host.Outcome State Fault Refusal := refuseUnmodelled .xld

/-- `xst`: store to external memory, refused by the spec (R281). -/
def execXst (_s : State) : Host.Outcome State Fault Refusal := refuseUnmodelled .xst

/-- `ssa`: set SA, refused by the spec (R282). -/
def execSsa (_s : State) : Host.Outcome State Fault Refusal := refuseUnmodelled .ssa

/-- `sla`: set LA, refused by the spec (R283). -/
def execSla (_s : State) : Host.Outcome State Fault Refusal := refuseUnmodelled .sla

/-- `bsar`: any reader of bSA, refused by the spec (R284). -/
def execBsar (_s : State) : Host.Outcome State Fault Refusal := refuseUnmodelled .bsar

end Sys2Proof.Machine
end

