-- ==== Sys2Proof/Machine/Io.lean ====
section
/-! DEFINITION. The special-register I/O forms (spec/42_io_display_write.md R201..R203). -/

namespace Sys2Proof.Machine

/-- `in x s`: read a special register with its side effect (R201, R206). -/
def execInp (x : Reg) (i : SRIdx) (s : State) : Host.Outcome State Fault Refusal :=
  .next ({ s with dev := (s.dev.srRead i).2 }.mapRegs fun r => (r.writeX x (s.dev.srRead i).1).advance)

/-- `out s y` (R202, R208). -/
def execOut (i : SRIdx) (y : Reg) (s : State) : Host.Outcome State Fault Refusal :=
  .next ((s.srWrite chipCfg i (s.regs.x y)).mapRegs RegFile.advance)

/-- `outi s i` (R203, R208). -/
def execOuti (i : SRIdx) (v : Imm4) (s : State) : Host.Outcome State Fault Refusal :=
  .next ((s.srWrite chipCfg i v).mapRegs RegFile.advance)

end Sys2Proof.Machine
end

