-- ==== Sys2Proof/Machine/Logic.lean ====
section
/-! DEFINITION. The compares and the logic-immediate forms (spec/40_arithmetic.md R145..R150). -/

namespace Sys2Proof.Machine

/-- `cmp x y` (R145). -/
def execCmp (x y : Reg) (s : State) : Host.Outcome State Fault Refusal :=
  .next (s.mapRegs fun r => r.compareDigit x (r.x y))

/-- `cmpi x i` (R146). -/
def execCmpi (x : Reg) (i : Imm4) (s : State) : Host.Outcome State Fault Refusal :=
  .next (s.mapRegs (RegFile.compareDigit x i))

/-- `rcmp`: the ranged compare writes no register (R147). -/
def execRcmp (pd ps : Page) (hi lo : Off3) (s : State) : Host.Outcome State Fault Refusal :=
  .next (s.mapRegs (RegFile.rippleForm subBin false pd ps hi lo))

/-- `andi x i` (R148). -/
def execAndi (x : Reg) (i : Imm4) (s : State) : Host.Outcome State Fault Refusal :=
  .next (s.mapRegs (RegFile.logicDigit (fun a b => a &&& b) x i))

/-- `ori x i` (R149). -/
def execOri (x : Reg) (i : Imm4) (s : State) : Host.Outcome State Fault Refusal :=
  .next (s.mapRegs (RegFile.logicDigit (fun a b => a ||| b) x i))

/-- `xori x i` (R150). -/
def execXori (x : Reg) (i : Imm4) (s : State) : Host.Outcome State Fault Refusal :=
  .next (s.mapRegs (RegFile.logicDigit (fun a b => a ^^^ b) x i))

end Sys2Proof.Machine
end

