-- ==== Sys2Proof/Machine/Move.lean ====
section
/-! DEFINITION. The ranged shifts, the moves and the bank switches (spec/40_arithmetic.md R151..R153, spec/41_move_bank.md). -/

namespace Sys2Proof.Machine

/-- The writes of `rshl`: element k gets the old element k+1, the lo end gets 0, in the order k = 0..n−1 (R152). -/
def shiftLeftWrites (w : List Reg) (old : List Nibble) : List (Reg × Nibble) := w.zip (old.tail ++ [0])

/-- The writes of `rshr`: element k gets the old element k−1, the hi end gets 0, in the order k = n−1 downto 0 (R153). -/
def shiftRightWrites (w : List Reg) (old : List Nibble) : List (Reg × Nibble) := (w.zip (0 :: old.dropLast)).reverse

/-- `rshl p hi lo`: ranged shift toward the hi end (R151, R152). -/
def execRshl (p : Page) (hi lo : Off3) (s : State) : Host.Outcome State Fault Refusal :=
  .next (s.mapRegs fun r =>
    (RegFile.writeAll (shiftLeftWrites (window p hi lo) (r.digits (window p hi lo))) r).advance)

/-- `rshr p hi lo`: ranged shift toward the lo end (R151, R153). -/
def execRshr (p : Page) (hi lo : Off3) (s : State) : Host.Outcome State Fault Refusal :=
  .next (s.mapRegs fun r =>
    (RegFile.writeAll (shiftRightWrites (window p hi lo) (r.digits (window p hi lo))) r).advance)

/-- `mov x y` (R180). -/
def execMov (x y : Reg) (s : State) : Host.Outcome State Fault Refusal :=
  .next (s.mapRegs fun r => (r.writeX x (r.x y)).advance)

/-- `movi x i` (R181). -/
def execMovi (x : Reg) (i : Imm4) (s : State) : Host.Outcome State Fault Refusal :=
  .next (s.mapRegs fun r => (r.writeX x i).advance)

/-- `rmov pd ps hi lo`: ranged move (R182). -/
def execRmov (pd ps : Page) (hi lo : Off3) (s : State) : Host.Outcome State Fault Refusal :=
  .next (s.mapRegs fun r => (RegFile.moveAll (windowPairs pd ps hi lo) r).advance)

/-- `rclr p hi lo`: ranged clear (R183). -/
def execRclr (p : Page) (hi lo : Off3) (s : State) : Host.Outcome State Fault Refusal :=
  .next (s.mapRegs fun r => (RegFile.writeAll ((window p hi lo).map fun i => (i, 0)) r).advance)

/-- `mvca x y`: current bank to alternate bank (R186). -/
def execMvca (x y : Reg) (s : State) : Host.Outcome State Fault Refusal :=
  .next (s.mapRegs fun r => (r.writeXa x (r.x y)).advance)

/-- `mvac x y`: alternate bank to current bank (R187). -/
def execMvac (x y : Reg) (s : State) : Host.Outcome State Fault Refusal :=
  .next (s.mapRegs fun r => (r.writeX x (r.xa y)).advance)

/-- `scb n`: set the current bank (R190). -/
def execScb (n : Bank) (s : State) : Host.Outcome State Fault Refusal :=
  .next (s.mapRegs fun r => RegFile.advance { r with cb := n })

/-- `sab n`: set the alternate bank (R191). -/
def execSab (n : Bank) (s : State) : Host.Outcome State Fault Refusal :=
  .next (s.mapRegs fun r => RegFile.advance { r with ab := n })

end Sys2Proof.Machine
end

