-- ==== Sys2Proof/Machine/Dispatch.lean ====
section
/-! DEFINITION. One arm per constructor of `Instr`: the rule of the decoded form (spec/70_reset_and_hazards.md R405). -/

namespace Sys2Proof.Machine

-- The whole effect of an instruction on the state, the PC included; the cost is the engine's (R404).
def exec (i : Instr) (s : State) : Host.Outcome State Fault Refusal :=
  match i with
  | .add x y => Sys2Proof.Machine.execAdd x y s
  | .adb x y => Sys2Proof.Machine.execAdb x y s
  | .sub x y => Sys2Proof.Machine.execSub x y s
  | .sbb x y => Sys2Proof.Machine.execSbb x y s
  | .addi x v => Sys2Proof.Machine.execAddi x v s
  | .adbi x v => Sys2Proof.Machine.execAdbi x v s
  | .subi x v => Sys2Proof.Machine.execSubi x v s
  | .sbbi x v => Sys2Proof.Machine.execSbbi x v s
  | .radd pd ps hi lo => Sys2Proof.Machine.execRadd pd ps hi lo s
  | .radb pd ps hi lo => Sys2Proof.Machine.execRadb pd ps hi lo s
  | .rsub pd ps hi lo => Sys2Proof.Machine.execRsub pd ps hi lo s
  | .rsbb pd ps hi lo => Sys2Proof.Machine.execRsbb pd ps hi lo s
  | .cmp x y => Sys2Proof.Machine.execCmp x y s
  | .cmpi x v => Sys2Proof.Machine.execCmpi x v s
  | .rcmp pd ps hi lo => Sys2Proof.Machine.execRcmp pd ps hi lo s
  | .andi x v => Sys2Proof.Machine.execAndi x v s
  | .ori x v => Sys2Proof.Machine.execOri x v s
  | .xori x v => Sys2Proof.Machine.execXori x v s
  | .rshl p hi lo => Sys2Proof.Machine.execRshl p hi lo s
  | .rshr p hi lo => Sys2Proof.Machine.execRshr p hi lo s
  | .mov x y => Sys2Proof.Machine.execMov x y s
  | .movi x v => Sys2Proof.Machine.execMovi x v s
  | .rmov pd ps hi lo => Sys2Proof.Machine.execRmov pd ps hi lo s
  | .rclr p hi lo => Sys2Proof.Machine.execRclr p hi lo s
  | .mvca x y => Sys2Proof.Machine.execMvca x y s
  | .mvac x y => Sys2Proof.Machine.execMvac x y s
  | .scb n => Sys2Proof.Machine.execScb n s
  | .sab n => Sys2Proof.Machine.execSab n s
  | .inp x k => Sys2Proof.Machine.execInp x k s
  | .out k y => Sys2Proof.Machine.execOut k y s
  | .outi k v => Sys2Proof.Machine.execOuti k v s
  | .dw y => Sys2Proof.Machine.execDw y s
  | .dw2 y1 y2 => Sys2Proof.Machine.execDw2 y1 y2 s
  | .call v f => Sys2Proof.Machine.execCall v f s
  | .ret => Sys2Proof.Machine.execRet s
  | .br f => Sys2Proof.Machine.execBr f s
  | .jmp v f => Sys2Proof.Machine.execJmp v f s
  | .jz f => Sys2Proof.Machine.execJz f s
  | .jnz f => Sys2Proof.Machine.execJnz f s
  | .jc f => Sys2Proof.Machine.execJc f s
  | .jnc f => Sys2Proof.Machine.execJnc f s
  | .btb x b pol f => Sys2Proof.Machine.execBtb x b pol f s
  | .cib x v eq f => Sys2Proof.Machine.execCib x v eq f s
  | .ijmp x f => Sys2Proof.Machine.execIjmp x f s
  | .wfe => Sys2Proof.Machine.execWfe s
  | .xld => Sys2Proof.Machine.execXld s
  | .xst => Sys2Proof.Machine.execXst s
  | .ssa => Sys2Proof.Machine.execSsa s
  | .sla => Sys2Proof.Machine.execSla s
  | .bsar => Sys2Proof.Machine.execBsar s

end Sys2Proof.Machine
end

