-- ==== Sys2Proof/Machine/Events.lean ====
section
/-! DEFINITION. The event sources (spec/60_exceptions.md): Timer0, Timer1 with the stopwatch, the ISP serial
unit, and the keys. The timers and the ISP slot are steps of every tick (R403); receive, press and release
are host events between ticks (R412). -/

namespace Sys2Proof.Machine

/-! ### Timer0 -/

/-- The period of a Timer0 source with one of its own (R354). -/
def timer0Period : Timer0Source → Nat
  | .t128 => 128
  | .t256 => 256
  | .t1024 => 1024
  -- the SR14 rollover has no period of its own (R355): it is not in the loop of R354
  | .sec => 0

/-- Raise a source's SR12 bit if SR13 enables the source (R354, R357). -/
def Devices.raiseTimer0 (c : Cfg) (src : Timer0Source) (d : Devices) : Devices :=
  if c.sr13Enables src (d.getSr 13) then d.modSr 12 (setBit · (c.sr12Bit src)) else d

/-- One source of the loop of R354, at the count already advanced. -/
def Devices.timer0Source (c : Cfg) (src : Timer0Source) (d : Devices) : Devices :=
  if d.t0.toNat % timer0Period src = 0 then d.raiseTimer0 c src else d

/-- `Sec()`: the seconds nibble and, at its rollover, the SR4 counter and the SEC source (R355). -/
def Devices.secStep (c : Cfg) (d : Devices) : Devices :=
  let d1 := d.modSr 14 (· + 1)
  if d1.getSr 14 = 0 then Devices.raiseTimer0 c .sec (d1.modSr 4 (bumpCounter · c.sr4CntShift)) else d1

/-- Any nonzero SR12 sets the SR0 timer bit (R356). -/
def Devices.timerEvent (c : Cfg) (d : Devices) : Devices :=
  if d.getSr 12 = 0 then d else d.modSr 0 (setBit · c.sr0TimerBit)

/-- `Timer0Step()` (R354). -/
def Devices.timer0Step (c : Cfg) (d : Devices) : Devices :=
  let d1 := { d with t0 := d.t0 + 1 }
  let d2 := Devices.timer0Source c .t1024 (Devices.timer0Source c .t256 (Devices.timer0Source c .t128 d1))
  let d3 := if d2.t0.toNat % 256 = 0 then d2.secStep c else d2
  d3.timerEvent c

/-! ### Timer1 and the stopwatch -/

/-- The decimal digit step of Timer1 (R359, R360). -/
def Devices.digitStep (c : Cfg) (d : Devices) : Devices :=
  if 9 ≤ (d.getSr 10).toNat then
    (((d.setSr 10 0).modSr 9 (setBit · (c.swPendBit.castLE (by omega)))).modSr 0 (setBit · c.sr0SwBit)).modSr 3
      (bumpCounter · c.sr3CntShift)
  else d.modSr 10 (· + 1)

/-- `Timer1Step()` (R358, R359). -/
def Devices.timer1Step (c : Cfg) (d : Devices) : Devices :=
  if testBit (d.getSr 9) c.t1GateBit then
    if d.t1 + 1 = 38 then Devices.digitStep c { d with t1 := 0 } else { d with t1 := d.t1 + 1 }
  else d

/-! ### The ISP serial unit -/

/-- Put a byte into the shift buffer SR5:SR6 (R35, R364, R367). -/
def Devices.setShift (d : Devices) (b : Byte) : Devices :=
  (d.setSr 5 (b.extractLsb' 4 4)).setSr 6 (b.extractLsb' 0 4)

/-- The byte in the shift buffer, SR5 high (R35, R365). -/
def Devices.shiftByte (d : Devices) : Byte := d.getSr 5 ++ d.getSr 6

/-- Set an ISP status bit and the SR0 ISP bit (R364, R366, R367). -/
def Devices.ispEvent (c : Cfg) (n : BitIdx) (d : Devices) : Devices :=
  (d.modSr c.ispStatusSr (setBit · n)).modSr 0 (setBit · c.sr0IspBit)

/-- `Done()` (R364). -/
def Devices.ispDone (c : Cfg) (d : Devices) : Devices := d.ispEvent c c.ispDoneBit

/-- `tx(b)`, then the mirror into SR5:SR6 while receive is enabled (R364, R365). -/
def State.transmit (b : Byte) (s : State) : State :=
  (s.emit (.tx b)).mapDev fun d => if d.ispRxen then d.setShift b else d

/-- `DmaTransmit()` (R364). -/
def State.dmaTransmit (c : Cfg) (s : State) : State :=
  let (b, bus) := s.bus.extReadByte
  let s1 := { s with bus := bus }
  let s2 := if bus.sa.toNat % c.ispPage = 0 then
      s1.mapDev fun d => { d.ispDone c with ispTxpend := false }
    else s1
  s2.transmit b

/-- `RegTransmit()` (R365). -/
def State.regTransmit (c : Cfg) (s : State) : State :=
  let b := s.dev.shiftByte
  (s.mapDev fun d => { d.ispDone c with ispTxpend := false }).transmit b

/-- `IspStep()` (R363). -/
def State.ispStep (c : Cfg) (s : State) : State :=
  let s1 := s.mapDev fun d => { d with ispDiv := (d.ispDiv + 1) % 24 }
  if s1.dev.ispDiv = 0 ∧ s1.dev.ispTxpend = true ∧ s1.dev.ispTxen = true then
    if s1.dev.ispMode then s1.dmaTransmit c else s1.regTransmit c
  else s1

/-- `rx(b)`, a host event (R367). -/
def State.receive (c : Cfg) (b : Byte) (s : State) : State :=
  if s.dev.ispRxen = false then s
  else
    let s1 := s.mapDev (Devices.setShift · b)
    if s1.dev.ispMode = true ∧ s1.dev.ispTxpend = false then
      let s2 := { s1 with bus := s1.bus.extWriteByte b }
      if s2.bus.sa.toNat % c.ispPage = 0 then s2.mapDev (Devices.ispDone c) else s2
    else
      s1.mapDev fun d =>
        let d' := d.ispEvent c c.ispImmBit
        if d'.ispTxen then { d' with ispTxpend := true } else d'

/-! ### Keys -/

/-- The stopwatch transitions of a press on line 0 or 1 while the machine is active: the devices after it,
`none` for a lap, which the source does not describe (R372). -/
def Devices.swPress (c : Cfg) (l : Nat) (d : Devices) : Option Devices :=
  match d.sw, l with
  | .enabled, 1 => some { d.modSr 9 (setBit · c.t1GateBit) with sw := .running }
  | .running, 1 => some { d.modSr 9 (clearBit · c.t1GateBit) with sw := .stopped }
  | .stopped, 1 => some { d.modSr 9 (setBit · c.t1GateBit) with sw := .running }
  | .running, 0 => none
  | .stopped, 0 => some { d.setSr 10 0 with t1 := 0 }
  | _, _ => some d

/-- The key bits of a press: new, held, and the SR0 key bit (R370). -/
def Devices.keyDown (c : Cfg) (l : BitIdx) (d : Devices) : Devices :=
  ((d.modSr 7 (setBit · l)).modSr 8 (setBit · l)).modSr 0 (setBit · c.sr0KeyBit)

/-- `press(l)`, a host event (R370, R372). -/
def State.press (c : Cfg) (l : Nat) (s : State) : State :=
  if h : l < 4 then
    let s1 := s.mapDev (Devices.keyDown c ⟨l, h⟩)
    if s1.dev.sw ≠ .disabled ∧ l < 2 then
      match s1.dev.swPress c l with
      | some d => { s1 with dev := d }
      | none => s1.raise (.refused (.unmodelled .lap))
    else s1
  else s.raise (.refused (.keyLine l))

/-- `release(l)`, a host event (R371). -/
def State.release (l : Nat) (s : State) : State :=
  if h : l < 4 then s.mapDev fun d => d.modSr 8 (clearBit · ⟨l, h⟩)
  else s.raise (.refused (.keyLine l))

/-- A press of a logical button (R373). -/
def State.pressButton (c : Cfg) (b : Button) (s : State) : State := s.press c (c.buttonLine b).val

end Sys2Proof.Machine
end

