-- ==== Sys2Proof/Machine/Engine.lean ====
section
/-! DEFINITION. Fetch, the engine, and one tick (spec/70_reset_and_hazards.md R402..R405, R416). -/

namespace Sys2Proof.Machine

/-- What the engine executes next: a form, or the mark the fetch or decode leaves (R405). -/
abbrev FetchResult := Except Mark Instr

/-- Whether the PC names a word of the internal region (R23, R74). -/
def pcBacked (pc : Addr12) : Bool := decide (pc.toNat < 0xC00)

/-- Fetch and decode at the PC (R74, R109, R405). -/
def fetchDecode (s : State) : FetchResult :=
  if pcBacked s.regs.pc then
    match decode (s.bus.fetchOpcode s.regs.pc) with
    | some i => .ok i
    | none => .error (.refused (.undecoded (s.bus.fetchOpcode s.regs.pc)))
  else .error (.fault (.fetchOutsideInternal s.regs.pc))

/-- The fetch of a program given as abstract syntax, word address and form, as a model with no decoder
instance runs it (R104; spec/95_test_vectors.md). A word the program does not list is undecodable. -/
def fetchForm (prog : List (Nat × Instr)) (s : State) : FetchResult :=
  if pcBacked s.regs.pc then
    match prog.lookup s.regs.pc.toNat with
    | some i => .ok i
    | none => .error (.refused (.undecoded (s.bus.fetchOpcode s.regs.pc)))
  else .error (.fault (.fetchOutsideInternal s.regs.pc))

/-- The device steps of a tick: Timer0, Timer1, ISP (R403). -/
def State.deviceSteps (c : Cfg) (s : State) : State :=
  State.ispStep c (s.mapDev fun d => Devices.timer1Step c (Devices.timer0Step c d))

/-- The end of a tick: the display step and the cycle count (R403). -/
def State.finishTick (c : Cfg) (s : State) : State :=
  { s with lcd := s.lcd.displayStep c, eng := { s.eng with cycles := s.eng.cycles + 1 } }

/-- The outcome a mark stands for. -/
def Mark.outcome : Mark → Host.Outcome State Fault Refusal
  | .fault r => .fault r
  | .refused r => .refused r

/-- Set the busy count of the engine. -/
def State.setBusy (s : State) (n : Nat) : State := { s with eng := { s.eng with busy := n } }

/-- `EngineStep()` over a way to fetch (R404, R405). -/
def engineStep (fetch : State → FetchResult) (s : State) : Host.Outcome State Fault Refusal :=
  if 0 < s.eng.busy then .next (s.setBusy (s.eng.busy - 1))
  else
    match fetch s with
    | .error m => m.outcome
    | .ok i =>
      match exec i s with
      | .next s' => .next (s'.setBusy (cost i - 1))
      | .fault r => .fault r
      | .refused r => .refused r

/-- One tick as an outcome: a state that carries a mark takes no further tick and answers the mark (R13,
R403, R416; log 8). -/
def tickOutcome (fetch : State → FetchResult) (s : State) : Host.Outcome State Fault Refusal :=
  match s.eng.mark with
  | some m => m.outcome
  | none =>
    match engineStep fetch (s.deviceSteps chipCfg) with
    | .next s' => .next (s'.finishTick chipCfg)
    | .fault r => .fault r
    | .refused r => .refused r

/-- `Tick()` as the spec writes it, state to state: a tick that raises sets the mark, and what was written
earlier in the tick stands (R403). -/
def tickWith (fetch : State → FetchResult) (s : State) : State :=
  match s.eng.mark with
  | some _ => s
  | none =>
    let s1 := s.deviceSteps chipCfg
    match engineStep fetch s1 with
    | .next s' => s'.finishTick chipCfg
    | .fault r => s1.raise (.fault r)
    | .refused r =>
      match fetch s1 with
      | .ok i => (stateAtRefusal chipCfg i s1).raise (.refused r)
      | .error _ => s1.raise (.refused r)

/-- `Tick()` (R403). -/
def tick (s : State) : State := tickWith fetchDecode s

/-- One tick of a program given as abstract syntax (R104). -/
def stepForms (prog : List (Nat × Instr)) (s : State) : Host.Outcome State Fault Refusal :=
  tickOutcome (fetchForm prog) s

/-- The state with a word of `nbits` bits where the next fetch reads: stored big-endian at the PC (at word
0 if the PC is beyond the internal region), the engine free and unmarked, so that the next tick fetches
it; log 7. -/
def State.placeWord (s : State) (nbits w : Nat) : State :=
  let word : Word16 := BitVec.ofNat 16 (w % 2 ^ nbits)
  let pc : Addr12 := if pcBacked s.regs.pc then s.regs.pc else 0
  let imem := (s.bus.imem.write (2 * pc.toNat) (wordHi word)).write (2 * pc.toNat + 1) (wordLo word)
  { s with
    regs := { s.regs with pc := pc }
    bus := { s.bus with imem := imem }
    eng := { s.eng with busy := 0, mark := none } }

end Sys2Proof.Machine
end

