-- ==== Sys2Proof/Machine/Step.lean ====
section
/-! DEFINITION. One step of the machine: one base tick (spec/70_reset_and_hazards.md R402, R403). -/

namespace Sys2Proof.Machine

/-- One base tick, fetching with `P_DECODE` (R403). -/
def step (s : State) : Host.Outcome State Fault Refusal := tickOutcome fetchDecode s

/-- The state whose next step fetches and runs the given instruction word (log 7). -/
def State.withFetchWord (s : State) (nbits w : Nat) : State := s.placeWord nbits w

end Sys2Proof.Machine
end

