-- ==== Sys2Proof/Machine/HostEvents.lean ====
section
/-! DEFINITION. What the host does between ticks (spec/70_reset_and_hazards.md R400, R412, R413, R417;
spec/20_memory.md R76..R78): inputs are functions from state to state, reads are functions of a state. -/

namespace Sys2Proof.Machine

/-- The two regions a host can load (R77). -/
inductive Region where
  | internal
  | external
  deriving DecidableEq, Repr

/-- `writeRaw(addr, value)` on the internal region (R76, R78). An address beyond the region, which the
callers pre-mask away, stores nothing; log 12. -/
def MemoryBus.writeRaw (m : MemoryBus) (addr value : Nat) : MemoryBus :=
  if addr < imemSize then
    { m with imem := m.imem.write addr (BitVec.ofNat 8 value), dirtyI := WordSet.insert m.dirtyI (addr / 2) }
  else m

/-- `writeRawWord(addr, value)`: the word at a word index, high byte first (R76). -/
def MemoryBus.writeRawWord (m : MemoryBus) (addr value : Nat) : MemoryBus :=
  let w : Word16 := BitVec.ofNat 16 value
  (m.writeRaw (2 * addr) (wordHi w).toNat).writeRaw (2 * addr + 1) (wordLo w).toNat

/-- `load(bytes_or_none, region)`: truncate to the region, zero-fill what is missing, every word dirty (R77). -/
def MemoryBus.load (image : Option (List Byte)) (r : Region) (m : MemoryBus) : MemoryBus :=
  let bytes := image.getD []
  match r with
  | .internal =>
    { m with imem := Memory.ofBytes 0 (bytes.take imemSize), dirtyI := List.range (imemSize / 2) }
  | .external =>
    { m with xmem := Memory.ofBytes 0 (bytes.take xmemSize), dirtyX := List.range (xmemSize / 2) }

/-- The drain of a dirty set: what it held, and the bus with it empty (R78). -/
def MemoryBus.drain (r : Region) (m : MemoryBus) : WordSet × MemoryBus :=
  match r with
  | .internal => (m.dirtyI, { m with dirtyI := [] })
  | .external => (m.dirtyX, { m with dirtyX := [] })

/-- The device reset: everything but the memory bus takes its reset value, the mark included (R400). -/
def State.deviceReset (s : State) : State := { State.reset with bus := s.bus }

/-- The keys of a debugger patch (R412). -/
inductive PatchKey where
  | pc
  | la
  | sa
  | cb
  | ab
  | cf
  | zf
  | sr (i : Nat)
  | gr (bank i : Nat)
  | ddram (a : Nat)
  | daram (a : Nat)
  | dctrl (a : Nat)
  | memory (addr : Nat)
  | unknown
  deriving DecidableEq, Repr

/-- One raw store of a patch: no side effect, no bSA capture, no DCTRL effect; an index out of range is
skipped, an unknown key ignored (R412). -/
def State.patchStore (k : PatchKey) (v : Nat) (s : State) : State :=
  match k with
  | .pc => s.mapRegs fun r => { r with pc := BitVec.ofNat 12 v }
  | .la => s.setLcd { s.lcd with la := BitVec.ofNat 8 v }
  | .sa => { s with bus := s.bus.setSA v }
  | .cb => s.mapRegs fun r => { r with cb := Fin.ofNat 4 v }
  | .ab => s.mapRegs fun r => { r with ab := Fin.ofNat 4 v }
  | .cf => s.mapRegs fun r => { r with cf := v % 2 == 1 }
  | .zf => s.mapRegs fun r => { r with zf := v % 2 == 1 }
  | .sr i => if h : i < 16 then s.mapDev fun d => d.setSr ⟨i, h⟩ (BitVec.ofNat 4 v) else s
  | .gr b i => if h : b < 4 ∧ i < 32 then s.mapRegs fun r => r.rawWrite ⟨b, h.1⟩ ⟨i, h.2⟩ (BitVec.ofNat 4 v) else s
  | .ddram a => if h : a < 64 then s.setLcd { s.lcd with ddram := s.lcd.ddram.set a (BitVec.ofNat 4 v) } else s
  | .daram a => if h : a < 64 then s.setLcd { s.lcd with daram := s.lcd.daram.set a (v % 2 == 1) } else s
  | .dctrl a => if h : a < 16 then s.setLcd { s.lcd with dctrl := s.lcd.dctrl.set a (BitVec.ofNat 4 v) } else s
  | .memory addr => if addr < imemSize / 2 then { s with bus := s.bus.writeRawWord addr v } else s
  | .unknown => s

/-- A patch: keys with their values, `none` for a value that does not parse (R412, log 22). -/
abbrev Patch := List (PatchKey × Option Nat)

/-- `debug_patch(p)`: the entries in order, the bad ones skipped one by one (R412). -/
def State.debugPatch : Patch → State → State
  | [], s => s
  | (k, some v) :: t, s => State.debugPatch t (s.patchStore k v)
  | (_, none) :: t, s => State.debugPatch t s

/-- The inputs of the block between two ticks (R6, R412). -/
inductive HostEvent where
  | press (l : Nat)
  | release (l : Nat)
  | rx (b : Byte)
  | load (image : Option (List Byte)) (r : Region)
  | reset
  | debugPatch (p : Patch)
  | writeRaw (addr value : Nat)
  | writeRawWord (addr value : Nat)
  | drain (r : Region)
  deriving DecidableEq, Repr

/-- The effect of a host event (R412); it is applied whatever the mark (log 10). -/
def hostEvent (c : Cfg) (e : HostEvent) (s : State) : State :=
  match e with
  | .press l => s.press c l
  | .release l => s.release l
  | .rx b => s.receive c b
  | .load image r => { s with bus := s.bus.load image r }
  | .reset => s.deviceReset
  | .debugPatch p => s.debugPatch p
  | .writeRaw addr value => { s with bus := s.bus.writeRaw addr value }
  | .writeRawWord addr value => { s with bus := s.bus.writeRawWord addr value }
  | .drain r => { s with bus := (s.bus.drain r).2 }

/-- What the snapshot port returns (R417). -/
structure Snapshot where
  pc : Addr12
  sa : BitVec 11
  la : BitVec 8
  cb : Bank
  ab : Bank
  cf : Bool
  zf : Bool
  sr : Vector Nibble 16
  gr : Vector (Vector Nibble 32) 4
  ddram : Vector Nibble 64
  daram : Vector Bool 64
  dctrl : Vector Nibble 16
  cycles : Nat
  deriving DecidableEq, Repr

/-- `snapshot`: a raw read that changes nothing (R417). -/
def State.snapshot (s : State) : Snapshot where
  pc := s.regs.pc
  sa := s.bus.getSA
  la := s.lcd.la
  cb := s.regs.cb
  ab := s.regs.ab
  cf := s.regs.cf
  zf := s.regs.zf
  sr := s.dev.sr
  gr := s.regs.gr
  ddram := s.lcd.ddram
  daram := s.lcd.daram
  dctrl := s.lcd.dctrl
  cycles := s.eng.cycles

/-- The breakpoint test after a tick: the PC is a watched address; a hit changes nothing (R376, R413). -/
def State.breakpointHit (watched : List Addr12) (s : State) : Bool := watched.contains s.regs.pc

end Sys2Proof.Machine
end

