-- ==== Sys2Proof/Safety.lean ====
section
/-! DEFINITION. What holds of a state the machine can be in, and the vocabulary of the statements: the ranges of
spec/10_state.md R29, R35, R36, R38, R40 and the canonical forms of the memories and dirty sets; what a
run is (spec/70_reset_and_hazards.md R416); what it means that parts of a state are unchanged. -/

namespace Sys2Proof.Machine

/-- The state lies in the ranges the spec gives its elements, and memories and dirty sets are canonical. -/
structure State.Inv (s : State) : Prop where
  /-- R29: capacity 3. -/
  stk_length : s.regs.stk.length ≤ 3
  /-- R35: 0..23. -/
  ispDiv_range : s.dev.ispDiv ≤ 23
  /-- R36: 0..37. -/
  t1_range : s.dev.t1 ≤ 37
  /-- R38: 0..7. -/
  busy_range : s.eng.busy ≤ 7
  /-- R40, R329: 0..512. -/
  cursor_range : s.lcd.cursor ≤ 512
  /-- R40: 0..32. -/
  contrast_range : s.lcd.contrast ≤ 32
  /-- R70: the internal region's cells lie in it and are canonical. -/
  imem_wf : s.bus.imem.wf imemSize = true
  /-- R70: the external region's cells lie in it and are canonical. -/
  xmem_wf : s.bus.xmem.wf xmemSize = true
  /-- R78: word indices of the internal region. -/
  dirtyI_wf : WordSet.wf (imemSize / 2) s.bus.dirtyI = true
  /-- R78: word indices of the external region. -/
  dirtyX_wf : WordSet.wf (xmemSize / 2) s.bus.dirtyX = true

/-- One thing that happens in a run: a tick, or a host event between ticks (R402, R416). -/
inductive RunEvent where
  | tick
  | host (e : HostEvent)
  deriving DecidableEq, Repr

/-- A run: ticks and host events in order (R416). -/
def runEvents : List RunEvent → State → State
  | [], s => s
  | .tick :: t, s => runEvents t (tick s)
  | .host e :: t, s => runEvents t (hostEvent chipCfg e s)

/-- Every byte of both regions reads as before. -/
def SameMemory (s t : State) : Prop :=
  ∀ a, t.bus.imem.read a = s.bus.imem.read a ∧ t.bus.xmem.read a = s.bus.xmem.read a

/-- Nothing outside the register file has changed: the special registers and devices, the memory bus with
every byte of memory, the display, the engine and its output record. -/
structure OnlyRegs (s t : State) : Prop where
  dev : t.dev = s.dev
  bus : t.bus = s.bus
  memory : SameMemory s t
  lcd : t.lcd = s.lcd
  eng : t.eng = s.eng

/-- Banks, call stack: the register-file parts that only `scb`, `sab`, `call` and `ret` write. -/
def SameBanksAndStack (s t : State) : Prop :=
  t.regs.cb = s.regs.cb ∧ t.regs.ab = s.regs.ab ∧ t.regs.stk = s.regs.stk

/-- Every general register but register i of bank b reads as before. -/
def OtherRegsKept (b : Bank) (i : Reg) (s t : State) : Prop :=
  ∀ b' i', ¬(b' = b ∧ i' = i) → t.regs.reg b' i' = s.regs.reg b' i'

/-- Every general register reads as before, and bSA is as before. -/
def RegsKept (s t : State) : Prop := t.regs.gr = s.regs.gr ∧ t.regs.bsa = s.regs.bsa

/-- Both flags are as before. -/
def FlagsKept (s t : State) : Prop := t.regs.cf = s.regs.cf ∧ t.regs.zf = s.regs.zf

/-- One register of bank b was written by an instruction that then advances: its new value, bSA with its old
value captured (R25), PC + 1 (R24), and everything else but the flags as before. -/
structure RegWritten (s t : State) (b : Bank) (x : Reg) (v : Nibble) : Prop where
  value : t.regs.reg b x = v
  bsa : t.regs.bsa = (s.regs.bsa >>> 4) ||| ((s.regs.reg b x).setWidth 12 <<< 8)
  others : OtherRegsKept b x s t
  banks : SameBanksAndStack s t
  pc : t.regs.pc = s.regs.pc + 1
  only : OnlyRegs s t

/-- A single-digit add or subtract wrote value v into x[x], with its carry or borrow in CF and ZF as R131 says. -/
structure DigitResult (s t : State) (x : Reg) (v : Nat) (carry : Bool) : Prop where
  written : RegWritten s t s.regs.cb x (BitVec.ofNat 4 v)
  value : (t.regs.x x).toNat = v
  cf : t.regs.cf = carry
  zf : t.regs.zf = decide (v = 0)

/-- A window of the current bank was written by an instruction that then advances: its new digits, bSA with the
old digits captured in write order (R25), PC + 1, and everything else but the flags as before. -/
structure WindowWritten (s t : State) (w : List Reg) (ds : List Nibble) (order : List Reg) : Prop where
  digits : t.regs.digits w = ds
  bsa : t.regs.bsa = (s.regs.digits order).foldl capture s.regs.bsa
  others : ∀ b i, ¬(b = s.regs.cb ∧ i ∈ w) → t.regs.reg b i = s.regs.reg b i
  banks : SameBanksAndStack s t
  pc : t.regs.pc = s.regs.pc + 1
  only : OnlyRegs s t

/-- Nothing but the PC has changed: a control transfer other than `call` and `ret`. -/
structure OnlyPc (s t : State) : Prop where
  regs : RegsKept s t
  flags : FlagsKept s t
  banks : SameBanksAndStack s t
  only : OnlyRegs s t

/-- A form that writes no general register, no flag, no bank and no stack, and advances. -/
structure AdvancedOnly (s t : State) : Prop where
  regs : RegsKept s t
  flags : FlagsKept s t
  banks : SameBanksAndStack s t
  pc : t.regs.pc = s.regs.pc + 1

/-- Every special register but those of a list reads as before. -/
def OtherSrKept (l : List SRIdx) (s t : State) : Prop := ∀ j, j ∉ l → t.dev.getSr j = s.dev.getSr j

/-- The device state beside the special registers is as before. -/
def HiddenKept (s t : State) : Prop :=
  t.dev.ispMode = s.dev.ispMode ∧ t.dev.ispTxen = s.dev.ispTxen ∧ t.dev.ispRxen = s.dev.ispRxen
    ∧ t.dev.ispTxpend = s.dev.ispTxpend ∧ t.dev.ispDiv = s.dev.ispDiv ∧ t.dev.t0 = s.dev.t0
    ∧ t.dev.t1 = s.dev.t1 ∧ t.dev.sw = s.dev.sw

/-- A special-register write ended: the form advanced, the memory bus with every byte of memory and the
display are as before, and so is the engine with its output record. -/
structure SrWritten (s t : State) : Prop where
  advanced : AdvancedOnly s t
  bus : t.bus = s.bus
  memory : SameMemory s t
  lcd : t.lcd = s.lcd
  eng : t.eng = s.eng

/-- A display write ended: the form advanced, and everything outside the register file and the display is as
before, every byte of memory among it. -/
structure DisplayWritten (s t : State) : Prop where
  advanced : AdvancedOnly s t
  dev : t.dev = s.dev
  bus : t.bus = s.bus
  memory : SameMemory s t
  eng : t.eng = s.eng

/-- The instruction is an SR write of value v to special register k: `outi` with the immediate, `out` with a
register that holds it (R202, R203). -/
def WritesSr (i : Instr) (s : State) (k : SRIdx) (v : Nibble) : Prop :=
  i = .outi k v ∨ ∃ y, i = .out k y ∧ s.regs.x y = v

/-- Two outcomes of one kind: next states that a relation holds of, or one and the same stop. -/
def OutcomesRelated (rel : State → State → Prop) (a b : Host.Outcome State Fault Refusal) : Prop :=
  match a, b with
  | .next t, .next t' => rel t t'
  | .fault r, .fault r' => r = r'
  | .refused r, .refused r' => r = r'
  | _, _ => False

/-- The forms of spec/43_control.md. -/
def isControl : Instr → Bool
  | .call _ _ | .ret | .br _ | .jmp _ _ | .jz _ | .jnz _ | .jc _ | .jnc _ => true
  | .btb _ _ _ _ | .cib _ _ _ _ | .ijmp _ _ | .wfe => true
  | _ => false

/-- The forms that write CF: the add/subtract and compare forms (R27). -/
def writesCarry : Instr → Bool
  | .add _ _ | .adb _ _ | .sub _ _ | .sbb _ _ => true
  | .addi _ _ | .adbi _ _ | .subi _ _ | .sbbi _ _ => true
  | .radd _ _ _ _ | .radb _ _ _ _ | .rsub _ _ _ _ | .rsbb _ _ _ _ => true
  | .cmp _ _ | .cmpi _ _ | .rcmp _ _ _ _ => true
  | _ => false

/-- The forms that write ZF: those that write CF, and the logic-immediate forms (R28). -/
def writesZero : Instr → Bool
  | .andi _ _ | .ori _ _ | .xori _ _ => true
  | i => writesCarry i

/-- The next Timer0 step is one at which a source is due: its period divides the new count, or for SEC the seconds
nibble is counted and rolls over (R354, R355). -/
def Timer0Due (d : Devices) : Timer0Source → Prop
  | .t128 => (d.t0.toNat + 1) % 128 = 0
  | .t256 => (d.t0.toNat + 1) % 256 = 0
  | .t1024 => (d.t0.toNat + 1) % 1024 = 0
  | .sec => (d.t0.toNat + 1) % 256 = 0 ∧ d.getSr 14 = 15

/-- The effect on the display of an action of DCTRL 9 to 15 that fires (R319 to R325). -/
def firedAction (n : Nat) (l : Lcd) : Lcd :=
  match n with
  | 9 => { l with contrast := min (l.contrast + 1) 32 }
  | 10 => { l with contrast := l.contrast - 1 }
  | 11 => { l with dctrl := Vector.replicate 16 0 }
  | 12 => { l with redrawReq := true }
  | 13 => { l with ddram := Vector.replicate 64 0 }
  | 14 => { l with daram := Vector.replicate 64 false }
  | 15 => { l with cursor := 0 }
  | _ => l

/-- A special register j of value v after an ISP event with status bit n: the status register and SR0 have their bit
ORed in, both of them where the status register is SR0 (R364, R367). -/
def ispRaised (c : Cfg) (n : BitIdx) (j : SRIdx) (v : Nibble) : Nibble :=
  let w := if j = c.ispStatusSr then setBit v n else v
  if j = 0 then setBit w c.sr0IspBit else w

/-- The digit-by-digit arithmetic of R140 on digit pairs alone, hi end first: the digits of the result and the
carry out of the hi end. It names no register and no write order. -/
def rippleDigits (f : DigitFn) : List (Nibble × Nibble) → List Nibble × Bool
  | [] => ([], false)
  | (d, e) :: t =>
    let (rs, c) := rippleDigits f t
    let (r, c') := f d e c
    (r :: rs, c')

/-- Every digit is decimal. -/
def Decimal (ds : List Nibble) : Prop := ∀ d ∈ ds, d.toNat ≤ 9

/-- The value of digits as a number in a base, the first digit most significant (R140, R154). -/
def digitsValue (base : Nat) (ds : List Nibble) : Nat := ds.foldl (fun acc d => acc * base + d.toNat) 0

end Sys2Proof.Machine
end

