-- ==== Sys2Proof/Certificates/Slice0/Obligations.lean ====
section
/-! DEFINITION. The statements for the provers. Each docstring names the rules of spec/ it rests on; OBLIGATIONS.json
lists them with their quotes. -/

open Sys2Proof Sys2Proof.Machine

/-! ### Arithmetic, compare and logic on one digit -/

/-- R132, R136: `add` and `addi` write the sum mod 16, CF is the carry, cost 1; nothing else changes. Follows the
spec's own decisions D6, D9, D11 (log 5). -/
def Obligations.BinaryAddWritesSumModSixteen : Prop :=
  ∀ (s : State) (x : Reg),
    (∀ y : Reg, cost (.add x y) = 1 ∧ ∃ t, exec (.add x y) s = .next t ∧
      DigitResult s t x (((s.regs.x x).toNat + (s.regs.x y).toNat) % 16)
        (decide (16 ≤ (s.regs.x x).toNat + (s.regs.x y).toNat))) ∧
    (∀ i : Imm4, cost (.addi x i) = 1 ∧ ∃ t, exec (.addi x i) s = .next t ∧
      DigitResult s t x (((s.regs.x x).toNat + i.toNat) % 16) (decide (16 ≤ (s.regs.x x).toNat + i.toNat)))

/-- R133, R137: `adb` and `adbi` correct a sum past 9 by 6 mod 16 and set CF exactly then, cost 1. Follows the spec's
own decision D6 (log 5). -/
def Obligations.DecimalAddCorrectsPastNine : Prop :=
  ∀ (s : State) (x : Reg),
    (∀ y : Reg, cost (.adb x y) = 1 ∧ ∃ t, exec (.adb x y) s = .next t ∧
      DigitResult s t x
        (if 9 < (s.regs.x x).toNat + (s.regs.x y).toNat then ((s.regs.x x).toNat + (s.regs.x y).toNat + 6) % 16
         else (s.regs.x x).toNat + (s.regs.x y).toNat)
        (decide (9 < (s.regs.x x).toNat + (s.regs.x y).toNat))) ∧
    (∀ i : Imm4, cost (.adbi x i) = 1 ∧ ∃ t, exec (.adbi x i) s = .next t ∧
      DigitResult s t x
        (if 9 < (s.regs.x x).toNat + i.toNat then ((s.regs.x x).toNat + i.toNat + 6) % 16
         else (s.regs.x x).toNat + i.toNat)
        (decide (9 < (s.regs.x x).toNat + i.toNat)))

/-- R134, R138: `sub` and `subi` write the difference mod 16, CF is the borrow, cost 1. Follows the spec's own
decisions D6, D10, D11 (log 5). -/
def Obligations.BinarySubtractSetsBorrow : Prop :=
  ∀ (s : State) (x : Reg),
    (∀ y : Reg, cost (.sub x y) = 1 ∧ ∃ t, exec (.sub x y) s = .next t ∧
      DigitResult s t x (((s.regs.x x).toNat + 16 - (s.regs.x y).toNat) % 16)
        (decide ((s.regs.x x).toNat < (s.regs.x y).toNat))) ∧
    (∀ i : Imm4, cost (.subi x i) = 1 ∧ ∃ t, exec (.subi x i) s = .next t ∧
      DigitResult s t x (((s.regs.x x).toNat + 16 - i.toNat) % 16) (decide ((s.regs.x x).toNat < i.toNat)))

/-- R135, R139: `sbb` and `sbbi` add 10 mod 16 to a difference below 0 and set CF exactly then, cost 1. Follows the
spec's own decisions D6, D10, D58 (log 5). -/
def Obligations.DecimalSubtractCorrectsBorrow : Prop :=
  ∀ (s : State) (x : Reg),
    (∀ y : Reg, cost (.sbb x y) = 1 ∧ ∃ t, exec (.sbb x y) s = .next t ∧
      DigitResult s t x
        (if (s.regs.x x).toNat < (s.regs.x y).toNat then ((s.regs.x x).toNat + 26 - (s.regs.x y).toNat) % 16
         else (s.regs.x x).toNat - (s.regs.x y).toNat)
        (decide ((s.regs.x x).toNat < (s.regs.x y).toNat))) ∧
    (∀ i : Imm4, cost (.sbbi x i) = 1 ∧ ∃ t, exec (.sbbi x i) s = .next t ∧
      DigitResult s t x
        (if (s.regs.x x).toNat < i.toNat then ((s.regs.x x).toNat + 26 - i.toNat) % 16
         else (s.regs.x x).toNat - i.toNat)
        (decide ((s.regs.x x).toNat < i.toNat)))

/-- R145, R146: `cmp` and `cmpi` set ZF to equality and CF to below, and change nothing else but the PC; cost 1.
Follows the spec's own decisions D10, D11 (log 5). -/
def Obligations.CompareSetsFlagsOnly : Prop :=
  ∀ (s : State) (x : Reg),
    (∀ y : Reg, cost (.cmp x y) = 1 ∧ ∃ t, exec (.cmp x y) s = .next t ∧ RegsKept s t ∧ SameBanksAndStack s t ∧
      OnlyRegs s t ∧ t.regs.pc = s.regs.pc + 1 ∧ t.regs.zf = decide (s.regs.x x = s.regs.x y) ∧
      t.regs.cf = decide ((s.regs.x x).toNat < (s.regs.x y).toNat)) ∧
    (∀ i : Imm4, cost (.cmpi x i) = 1 ∧ ∃ t, exec (.cmpi x i) s = .next t ∧ RegsKept s t ∧ SameBanksAndStack s t ∧
      OnlyRegs s t ∧ t.regs.pc = s.regs.pc + 1 ∧ t.regs.zf = decide (s.regs.x x = i) ∧
      t.regs.cf = decide ((s.regs.x x).toNat < i.toNat))

/-- R148, R149, R150: `andi`, `ori`, `xori` write the result, ZF says whether it is 0, CF is unchanged; cost 1.
Follows the spec's own decisions D6, D12 (log 5). -/
def Obligations.LogicImmediateSetsZeroKeepsCarry : Prop :=
  ∀ (s : State) (x : Reg) (i : Imm4),
    (cost (.andi x i) = 1 ∧ ∃ t, exec (.andi x i) s = .next t ∧ RegWritten s t s.regs.cb x (s.regs.x x &&& i) ∧
      t.regs.cf = s.regs.cf ∧ t.regs.zf = decide (s.regs.x x &&& i = 0)) ∧
    (cost (.ori x i) = 1 ∧ ∃ t, exec (.ori x i) s = .next t ∧ RegWritten s t s.regs.cb x (s.regs.x x ||| i) ∧
      t.regs.cf = s.regs.cf ∧ t.regs.zf = decide (s.regs.x x ||| i = 0)) ∧
    (cost (.xori x i) = 1 ∧ ∃ t, exec (.xori x i) s = .next t ∧ RegWritten s t s.regs.cb x (s.regs.x x ^^^ i) ∧
      t.regs.cf = s.regs.cf ∧ t.regs.zf = decide (s.regs.x x ^^^ i = 0))

/-! ### Ranged forms -/

/-- R140 to R144: the four ranged arithmetic forms write to the destination window the digits of the carry chain from
the lo end to the hi end, each digit from its own old values, capture bSA from the lo end up, set CF to the carry out
of the hi end and ZF to every digit 0, and cost the window length; pd = ps included. Follows the spec's own decisions
D6, D7, D8, D9, D11 (log 5). Follows the spec's own inferences R141, R142, R143, R144 (log 5). -/
def Obligations.RangedArithmeticRipplesDigits : Prop :=
  ∀ (s : State) (pd ps : Page) (hi lo : Off3) (i : Instr) (f : DigitFn),
    (i, f) ∈ [(Instr.radd pd ps hi lo, addBin), (.radb pd ps hi lo, addDec), (.rsub pd ps hi lo, subBin),
      (.rsbb pd ps hi lo, subDec)] →
    let w := window pd hi lo
    let out := rippleDigits f ((s.regs.digits w).zip (s.regs.digits (window ps hi lo)))
    cost i = windowLen hi lo ∧
    ∃ t, exec i s = .next t ∧ WindowWritten s t w out.1 w.reverse ∧ t.regs.cf = out.2 ∧
      t.regs.zf = out.1.all (· == 0)

/-- R141, R143, R154: `radd` and `rsub` are addition and subtraction modulo 16^n of the windows read as n-digit
numbers; CF is the carry out of `radd`, and for `rsub` whether the destination value was below the source. Follows the
spec's own inferences R141, R143, R154 (log 5). -/
def Obligations.RangedBinaryFormsAreModularArithmetic : Prop :=
  ∀ (s : State) (pd ps : Page) (hi lo : Off3),
    let v := fun (u : State) (p : Page) => digitsValue 16 (u.regs.digits (window p hi lo))
    (∃ t, exec (.radd pd ps hi lo) s = .next t ∧
      v t pd = (v s pd + v s ps) % 16 ^ windowLen hi lo ∧
      t.regs.cf = decide (16 ^ windowLen hi lo ≤ v s pd + v s ps) ∧
      t.regs.zf = decide (v t pd = 0)) ∧
    (∃ t, exec (.rsub pd ps hi lo) s = .next t ∧
      v t pd = (v s pd + 16 ^ windowLen hi lo - v s ps) % 16 ^ windowLen hi lo ∧
      t.regs.cf = decide (v s pd < v s ps) ∧
      t.regs.zf = decide (v t pd = 0))

/-- R142, R144: on windows of decimal digits `radb` and `rsbb` are addition and subtraction modulo 10^n of the windows
read as decimal numbers, the digits stay decimal, and CF is the carry or the borrow. Follows the spec's own inferences
R142, R144 (log 5). -/
def Obligations.RangedDecimalFormsAreDecimalArithmetic : Prop :=
  ∀ (s : State) (pd ps : Page) (hi lo : Off3),
    Decimal (s.regs.digits (window pd hi lo)) → Decimal (s.regs.digits (window ps hi lo)) →
    let v := fun (u : State) (p : Page) => digitsValue 10 (u.regs.digits (window p hi lo))
    (∃ t, exec (.radb pd ps hi lo) s = .next t ∧ Decimal (t.regs.digits (window pd hi lo)) ∧
      v t pd = (v s pd + v s ps) % 10 ^ windowLen hi lo ∧
      t.regs.cf = decide (10 ^ windowLen hi lo ≤ v s pd + v s ps)) ∧
    (∃ t, exec (.rsbb pd ps hi lo) s = .next t ∧ Decimal (t.regs.digits (window pd hi lo)) ∧
      v t pd = (v s pd + 10 ^ windowLen hi lo - v s ps) % 10 ^ windowLen hi lo ∧
      t.regs.cf = decide (v s pd < v s ps))

/-- R147: `rcmp` sets CF to below and ZF to equal, digit for digit, of the windows read as numbers with the hi end
most significant, and changes nothing else but the PC; it costs the window length. Follows the spec's own decisions
D8, D10 (log 5). -/
def Obligations.RangedCompareComparesNumbers : Prop :=
  ∀ (s : State) (pd ps : Page) (hi lo : Off3),
    cost (.rcmp pd ps hi lo) = windowLen hi lo ∧
    ∃ t, exec (.rcmp pd ps hi lo) s = .next t ∧ RegsKept s t ∧ SameBanksAndStack s t ∧ OnlyRegs s t ∧
      t.regs.pc = s.regs.pc + 1 ∧
      t.regs.cf = decide (digitsValue 16 (s.regs.digits (window pd hi lo))
        < digitsValue 16 (s.regs.digits (window ps hi lo))) ∧
      t.regs.zf = decide (s.regs.digits (window pd hi lo) = s.regs.digits (window ps hi lo))

/-- R152, R153: `rshl` moves every digit of the window one place toward the hi end and `rshr` one place toward the lo
end, a zero enters at the vacated end, bSA captures in the stated order, flags stay; cost is the length. Follows the
spec's own decisions D6, D13, D14 (log 5). -/
def Obligations.RangedShiftsMoveDigitsOnePlace : Prop :=
  ∀ (s : State) (p : Page) (hi lo : Off3),
    let w := window p hi lo
    let old := s.regs.digits w
    (cost (.rshl p hi lo) = windowLen hi lo ∧ ∃ t, exec (.rshl p hi lo) s = .next t ∧ FlagsKept s t ∧
      WindowWritten s t w (old.drop 1 ++ [0]) w) ∧
    (cost (.rshr p hi lo) = windowLen hi lo ∧ ∃ t, exec (.rshr p hi lo) s = .next t ∧ FlagsKept s t ∧
      WindowWritten s t w (0 :: old.take (windowLen hi lo - 1)) w.reverse)

/-- R182, R183, R184: `rmov` copies the old source window to the destination window, pd = ps included, and `rclr`
clears its window; bSA captures in the order hi end to lo end, flags stay; cost is the length. Follows the spec's own
decisions D6, D7 (log 5). Follows the spec's own inferences R183, R184 (log 5). -/
def Obligations.RangedMoveCopiesAndClearZeroes : Prop :=
  ∀ (s : State) (pd ps : Page) (hi lo : Off3),
    (cost (.rmov pd ps hi lo) = windowLen hi lo ∧ ∃ t, exec (.rmov pd ps hi lo) s = .next t ∧ FlagsKept s t ∧
      WindowWritten s t (window pd hi lo) (s.regs.digits (window ps hi lo)) (window pd hi lo)) ∧
    (cost (.rclr pd hi lo) = windowLen hi lo ∧ ∃ t, exec (.rclr pd hi lo) s = .next t ∧ FlagsKept s t ∧
      WindowWritten s t (window pd hi lo) (List.replicate (windowLen hi lo) 0) (window pd hi lo))

/-! ### Moves and bank switches -/

/-- R180, R181, R186, R187: the moves write one register, with its old value captured in bSA even when it does not
change; `mvca` writes bank AB from bank CB, `mvac` bank CB from bank AB; flags stay; cost 1. Follows the spec's own
decisions D5, D6, D14 (log 5). -/
def Obligations.MovesWriteOneRegister : Prop :=
  ∀ (s : State) (x y : Reg) (i : Imm4),
    (cost (.mov x y) = 1 ∧ ∃ t, exec (.mov x y) s = .next t ∧ FlagsKept s t ∧
      RegWritten s t s.regs.cb x (s.regs.reg s.regs.cb y)) ∧
    (cost (.movi x i) = 1 ∧ ∃ t, exec (.movi x i) s = .next t ∧ FlagsKept s t ∧
      RegWritten s t s.regs.cb x i) ∧
    (cost (.mvca x y) = 1 ∧ ∃ t, exec (.mvca x y) s = .next t ∧ FlagsKept s t ∧
      RegWritten s t s.regs.ab x (s.regs.reg s.regs.cb y)) ∧
    (cost (.mvac x y) = 1 ∧ ∃ t, exec (.mvac x y) s = .next t ∧ FlagsKept s t ∧
      RegWritten s t s.regs.cb x (s.regs.reg s.regs.ab y))

/-- R190, R191: `scb` sets CB and `sab` sets AB, neither changes the other, a register, bSA, a flag or the call stack;
PC + 1, cost 1. -/
def Obligations.BankSwitchesSetOneBank : Prop :=
  ∀ (s : State) (n : Bank),
    (cost (.scb n) = 1 ∧ ∃ t, exec (.scb n) s = .next t ∧ t.regs.cb = n ∧ t.regs.ab = s.regs.ab ∧
      RegsKept s t ∧ FlagsKept s t ∧ t.regs.stk = s.regs.stk ∧ t.regs.pc = s.regs.pc + 1 ∧ OnlyRegs s t) ∧
    (cost (.sab n) = 1 ∧ ∃ t, exec (.sab n) s = .next t ∧ t.regs.ab = n ∧ t.regs.cb = s.regs.cb ∧
      RegsKept s t ∧ FlagsKept s t ∧ t.regs.stk = s.regs.stk ∧ t.regs.pc = s.regs.pc + 1 ∧ OnlyRegs s t)

/-! ### Special registers -/

/-- R201, R206: `in` writes the value before the clear into x; SR3 and SR4 are cleared whole, of SR15 only bit 0, no
other special register changes; flags stay; cost 1. Follows the spec's own decisions D6, D31 (log 5). -/
def Obligations.InReadsThenClearsTransientBits : Prop :=
  ∀ (s : State) (x : Reg) (k : SRIdx),
    cost (.inp x k) = 1 ∧
    ∃ t, exec (.inp x k) s = .next t ∧ t.regs.x x = s.dev.getSr k ∧
      t.regs.bsa = (s.regs.bsa >>> 4) ||| ((s.regs.x x).setWidth 12 <<< 8) ∧
      OtherRegsKept s.regs.cb x s t ∧ SameBanksAndStack s t ∧ FlagsKept s t ∧ t.regs.pc = s.regs.pc + 1 ∧
      (∀ j, t.dev.getSr j =
        if j = k ∧ (k = 3 ∨ k = 4) then 0 else if j = k ∧ k = 15 then s.dev.getSr 15 &&& 0b1110 else s.dev.getSr j) ∧
      HiddenKept s t ∧ t.bus = s.bus ∧ SameMemory s t ∧ t.lcd = s.lcd ∧ t.eng = s.eng

/-- R202, R203, R406: a write of a special register costs 1. R209 to R212, R218: a write of SR0, SR2, SR5, SR6, SR8,
SR11 or SR13 stores the value and does nothing else; a write of SR1 or SR7 stores the value and clears the
acknowledged bits of SR0; a write of SR14 leaves 0 whatever the value, t0 as it was. Follows the spec's own decisions
D19, D28, D32, D47 (log 5). -/
def Obligations.StoringArmsStoreAndAcknowledge : Prop :=
  ∀ (i : Instr) (s : State) (v : Nibble),
    (∀ k : SRIdx, WritesSr i s k v → cost i = 1) ∧
    (∀ k : SRIdx, WritesSr i s k v → k ∈ [0, 2, 5, 6, 8, 11, 13] →
      ∃ t, exec i s = .next t ∧ SrWritten s t ∧ t.dev.getSr k = v ∧ OtherSrKept [k] s t ∧ HiddenKept s t) ∧
    (WritesSr i s 1 v → ∃ t, exec i s = .next t ∧ SrWritten s t ∧ t.dev.getSr 1 = v ∧
      t.dev.getSr 0 = s.dev.getSr 0 &&& ~~~chipCfg.ackSr1 ∧ OtherSrKept [0, 1] s t ∧ HiddenKept s t) ∧
    (WritesSr i s 7 v → ∃ t, exec i s = .next t ∧ SrWritten s t ∧ t.dev.getSr 7 = v ∧
      t.dev.getSr 0 = s.dev.getSr 0 &&& ~~~chipCfg.ackSr7 ∧ OtherSrKept [0, 7] s t ∧ HiddenKept s t) ∧
    (WritesSr i s 14 v → ∃ t, exec i s = .next t ∧ SrWritten s t ∧ t.dev.getSr 14 = 0 ∧
      OtherSrKept [14] s t ∧ HiddenKept s t)

/-- R213, R214: a write of SR3 sets the ISP mode and transmit enable, a write of SR4 sets receive enable and may arm a
transmit; no special register changes. Follows the spec's own decision D29 (log 5). -/
def Obligations.IspControlArmsSetHiddenState : Prop :=
  ∀ (i : Instr) (s : State) (v : Nibble),
    (WritesSr i s 3 v → ∃ t, exec i s = .next t ∧ SrWritten s t ∧
      t.dev = { s.dev with ispMode := v.getLsbD chipCfg.ispModeBit, ispTxen := v.getLsbD chipCfg.ispTxenBit }) ∧
    (WritesSr i s 4 v → ∃ t, exec i s = .next t ∧ SrWritten s t ∧
      t.dev = { s.dev with
        ispRxen := v.getLsbD chipCfg.ispRxenBit
        ispTxpend := if v.getLsbD chipCfg.ispTxreqBit then true else s.dev.ispTxpend })

/-- R216, R217: an SR9 write clears bits 0..2 where the value has ones, an SR12 write all bits where the value has
ones, and each clears its SR0 bit exactly when its register ends at zero, whether or not it changed. -/
def Obligations.ClearingArmsClearAndAcknowledge : Prop :=
  ∀ (i : Instr) (s : State) (v : Nibble),
    (WritesSr i s 9 v → ∃ t, exec i s = .next t ∧ SrWritten s t ∧
      t.dev.getSr 9 = s.dev.getSr 9 &&& ~~~(v &&& 7) ∧
      t.dev.getSr 0 = (if t.dev.getSr 9 = 0 then clearBit (s.dev.getSr 0) chipCfg.sr0SwBit else s.dev.getSr 0) ∧
      OtherSrKept [0, 9] s t ∧ HiddenKept s t) ∧
    (WritesSr i s 12 v → ∃ t, exec i s = .next t ∧ SrWritten s t ∧
      t.dev.getSr 12 = s.dev.getSr 12 &&& ~~~v ∧
      t.dev.getSr 0 = (if t.dev.getSr 12 = 0 then clearBit (s.dev.getSr 0) chipCfg.sr0TimerBit else s.dev.getSr 0) ∧
      OtherSrKept [0, 12] s t ∧ HiddenKept s t)

/-- R215: a write of SR10 gives the stopwatch command `P_SR10_CMD` names. Follows the spec's own decision D37 (log 5).
-/
def Obligations.StopwatchCommandArmFollowsCommand : Prop :=
  ∀ (i : Instr) (s : State) (v : Nibble), WritesSr i s 10 v →
    ∃ t, exec i s = .next t ∧ SrWritten s t ∧
      t.dev = match chipCfg.sr10Cmd v with
        | .enable => { s.dev with sw := if s.dev.sw = .disabled then .enabled else s.dev.sw }
        | .disable => { s.dev.setSr 9 (clearBit (s.dev.getSr 9) chipCfg.t1GateBit) with sw := .disabled }
        | .clear => { s.dev.setSr 10 0 with t1 := 0 }
        | .gate => s.dev.setSr 9 (putBit (s.dev.getSr 9) chipCfg.t1GateBit (v.getLsbD 0))
        | .none => s.dev

/-- R219: a write of SR15 stores the value and issues PlayTone, StartTremolo, StopTremolo for bits 0, 2, 1, in that
order, in this tick. Follows the spec's own decisions D28, D30 (log 5). -/
def Obligations.AudioArmIssuesCommandsInOrder : Prop :=
  ∀ (i : Instr) (s : State) (v : Nibble), WritesSr i s 15 v →
    ∃ t, exec i s = .next t ∧ AdvancedOnly s t ∧ t.bus = s.bus ∧ SameMemory s t ∧ t.lcd = s.lcd ∧
      t.dev.getSr 15 = v ∧ OtherSrKept [15] s t ∧ HiddenKept s t ∧
      t.eng = { s.eng with
        trace := s.eng.trace ++
          ((if v.getLsbD 0 then [AudioCmd.playTone] else []) ++ (if v.getLsbD 2 then [AudioCmd.startTremolo] else []) ++
            (if v.getLsbD 1 then [AudioCmd.stopTremolo] else [])).map fun a => (s.eng.cycles + 1, PortEvent.audio a) }

/-! ### Display writes -/

/-- R85, R204, R302, R305: `dw` at LA below 112 stores its nibble in DDRAM[LA] or its bit 0 in DARAM[LA − 64], or,
below 64 in direct-draw mode, paints and moves the cursor and leaves DDRAM; LA goes up by 1; cost 1. That the painted
nibble is zero-extended to 8 bits is the model's choice (log 14). Follows the spec's own decisions D38, D39, D40, D41,
D42 (log 5). -/
def Obligations.DisplayWriteReachesCellOrPixels : Prop :=
  ∀ (s : State) (y : Reg), s.lcd.la.toNat < 112 →
    cost (.dw y) = 1 ∧
    ∃ t, exec (.dw y) s = .next t ∧ DisplayWritten s t ∧
      t.lcd =
        if chipCfg.ctrlOn s.lcd.dctrl[7] = true ∧ s.lcd.la.toNat < 64 then
          { Lcd.paint (chipCfg.directPaint s.lcd.cursor ((s.regs.x y).setWidth 8) (chipCfg.mirrorMode s.lcd.dctrl[1]))
              s.lcd with cursor := min (s.lcd.cursor + 1) 512, la := s.lcd.la + 1 }
        else if s.lcd.la.toNat < 64 then
          { s.lcd with ddram := s.lcd.ddram.setIfInBounds s.lcd.la.toNat (s.regs.x y), la := s.lcd.la + 1 }
        else
          { s.lcd with
            daram := s.lcd.daram.setIfInBounds (s.lcd.la.toNat - 64) ((s.regs.x y).getLsbD 0)
            la := s.lcd.la + 1 }

/-- R85, R310, R313, R316, R319 to R325: `dw` at LA = 112 + n stores DCTRL[n] and applies the effect of n at once: 6
fills the pixels while test-fill is set, 9..15 act if the action fires, the others do nothing. That the action test
sees the written nibble with zeros above it is the model's choice (log 25). Follows the spec's own decisions D38, D39,
D40, D41, D42 (log 5). -/
def Obligations.ControlRegisterWriteAppliesEffect : Prop :=
  ∀ (s : State) (y : Reg) (n : Nat), s.lcd.la.toNat = 112 + n →
    (n < 15 ∨ n = 15 ∧ (s.regs.x y).getLsbD 0 = false) →
    let v := s.regs.x y
    let fires := chipCfg.actionFires (v.setWidth 8)
    let l := { s.lcd with dctrl := s.lcd.dctrl.setIfInBounds n v, la := s.lcd.la + 1 }
    ∃ t, exec (.dw y) s = .next t ∧ DisplayWritten s t ∧
      (n < 9 ∧ n ≠ 6 → t.lcd = l) ∧
      (n = 6 → t.lcd =
        if chipCfg.ctrlOn v then { l with pix := Vector.replicate 28 (Vector.replicate 50 true) } else l) ∧
      (9 ≤ n → t.lcd = if fires then firedAction n l else l)

/-- R85, R204, R205, R306: `dw` and `dw2` are refused at LA of 128 and above; `dw` at LA 127 with bit 0 of its value
set; `dw2` at LA 126 and 127 as the write it makes at 127 or 128 under its mode is. Follows the spec's own decisions
D38, D39, D41, D46 (log 5). -/
def Obligations.DisplayWriteRefusesUnmappedAndTransient : Prop :=
  ∀ (s : State) (y y2 : Reg),
    let b1 := (s.regs.x y).getLsbD 0
    let b2 := (s.regs.x y2).getLsbD 0
    (128 ≤ s.lcd.la.toNat → exec (.dw y) s = .refused (.displayAddressHigh s.lcd.la) ∧
      exec (.dw2 y y2) s = .refused (.displayAddressHigh s.lcd.la)) ∧
    (s.lcd.la.toNat = 127 → b1 = true → exec (.dw y) s = .refused .transientDirectDraw) ∧
    (s.lcd.la.toNat = 127 →
      match chipCfg.dw2Mode with
      | .twoNibbles =>
        exec (.dw2 y y2) s = .refused (if b1 = true then .transientDirectDraw else .displayAddressHigh 128)
      | .oneByte => if b2 = true then exec (.dw2 y y2) s = .refused .transientDirectDraw
        else ∃ t, exec (.dw2 y y2) s = .next t ∧ DisplayWritten s t) ∧
    (s.lcd.la.toNat = 126 → b2 = true →
      match chipCfg.dw2Mode with
      | .twoNibbles => exec (.dw2 y y2) s = .refused .transientDirectDraw
      | .oneByte => ∃ t, exec (.dw2 y y2) s = .next t ∧ DisplayWritten s t)

/-- R205, R310: `dw2` below LA 126, or at 126 with bit 0 of y2 clear, ends with PC + 1, cost 1. Read as two nibbles
its display is that of `dw y1` then `dw y2`, and LA goes up by 2. Read as one byte it also completes at 126, and at
127 with bit 0 of y2 clear: it is one latched write of y1 ++ y2, and LA goes up by 1. It paints all 8 bits in direct
draw; at DCTRL 9 to 15 it stores y2 and the action fires by the test of all 8 bits; elsewhere it does what `dw y2`
does. Follows the spec's own decisions D40, D41, D42, D46 (log 5). -/
def Obligations.PairedDisplayWriteFollowsItsMode : Prop :=
  ∀ (s : State) (y1 y2 : Reg),
    let even := (s.regs.x y2).getLsbD 0 = false
    cost (.dw2 y1 y2) = 1 ∧
    (s.lcd.la.toNat < 126 ∨ s.lcd.la.toNat = 126 ∧ even → ∃ t, exec (.dw2 y1 y2) s = .next t ∧ DisplayWritten s t) ∧
    match chipCfg.dw2Mode with
    | .twoNibbles =>
      s.lcd.la.toNat < 126 ∨ s.lcd.la.toNat = 126 ∧ even →
        ∃ t t1 t2, exec (.dw2 y1 y2) s = .next t ∧ t.lcd.la = s.lcd.la + 2 ∧
          exec (.dw y1) s = .next t1 ∧ exec (.dw y2) t1 = .next t2 ∧ t.lcd = t2.lcd
    | .oneByte =>
      s.lcd.la.toNat < 127 ∨ s.lcd.la.toNat = 127 ∧ even →
        ∃ t, exec (.dw2 y1 y2) s = .next t ∧ DisplayWritten s t ∧ t.lcd.la = s.lcd.la + 1 ∧
          if chipCfg.ctrlOn s.lcd.dctrl[7] = true ∧ s.lcd.la.toNat < 64 then
            t.lcd =
              { Lcd.paint (chipCfg.directPaint s.lcd.cursor (s.regs.x y1 ++ s.regs.x y2)
                  (chipCfg.mirrorMode s.lcd.dctrl[1])) s.lcd with
                cursor := min (s.lcd.cursor + 1) 512, la := s.lcd.la + 1 }
          else if s.lcd.la.toNat < 121 then ∃ t2, exec (.dw y2) s = .next t2 ∧ t.lcd = t2.lcd
          else
            let n := s.lcd.la.toNat - 112
            let l := { s.lcd with dctrl := s.lcd.dctrl.setIfInBounds n (s.regs.x y2), la := s.lcd.la + 1 }
            t.lcd = if chipCfg.actionFires (s.regs.x y1 ++ s.regs.x y2) then firedAction n l else l

/-! ### Control -/

/-- R30, R240: `call` pushes its own address, drops the oldest entry when that makes four, and goes to its target; no
register, flag or bank changes; cost 1. Follows the spec's own decision D15 (log 5). -/
def Obligations.CallPushesItsOwnAddress : Prop :=
  ∀ (s : State) (v : Fin 3) (f : Field), s.regs.stk.length ≤ 3 →
    cost (.call v f) = 1 ∧
    ∃ t, exec (.call v f) s = .next t ∧ t.regs.pc = chipCfg.callTarget v f ∧
      (s.regs.stk.length < 3 → t.regs.stk = s.regs.stk ++ [s.regs.pc]) ∧
      (s.regs.stk.length = 3 → t.regs.stk = s.regs.stk.drop 1 ++ [s.regs.pc]) ∧
      RegsKept s t ∧ FlagsKept s t ∧ t.regs.cb = s.regs.cb ∧ t.regs.ab = s.regs.ab ∧ OnlyRegs s t

/-- R31, R241: `ret` takes the newest entry off the stack and goes to the address after it; on an empty stack it only
goes to PC + 1; no register, flag or bank changes; cost 1. -/
def Obligations.RetGoesAfterTheNewestEntry : Prop :=
  ∀ s : State, cost .ret = 1 ∧
    ∃ t, exec .ret s = .next t ∧ RegsKept s t ∧ FlagsKept s t ∧ t.regs.cb = s.regs.cb ∧ t.regs.ab = s.regs.ab ∧
      OnlyRegs s t ∧
      (s.regs.stk = [] → t.regs.pc = s.regs.pc + 1 ∧ t.regs.stk = []) ∧
      (∀ rest a, s.regs.stk = rest ++ [a] → t.regs.pc = a + 1 ∧ t.regs.stk = rest)

/-- R243 to R248, R251: `br`, `jmp` and `ijmp` go to their target; `jz`, `jnz`, `jc`, `jnc` go to theirs exactly when
their flag says so, else to PC + 1; nothing else changes; cost 1, taken or not. Follows the spec's own decisions D10,
D15, D16 (log 5). -/
def Obligations.JumpsGoToTargetOrFallThrough : Prop :=
  ∀ (s : State) (v : Fin 4) (x : Reg) (f : Field) (i : Instr) (taken : Bool) (target : Addr12),
    (i, taken, target) ∈ [(Instr.br f, true, chipCfg.brTarget s.regs.pc f), (.jmp v f, true, chipCfg.jmpTarget v f),
      (.ijmp x f, true, chipCfg.ijmpTarget s.regs.pc f (s.regs.x x)),
      (.jz f, s.regs.zf, chipCfg.jccTarget s.regs.pc f), (.jnz f, !s.regs.zf, chipCfg.jccTarget s.regs.pc f),
      (.jc f, s.regs.cf, chipCfg.jccTarget s.regs.pc f), (.jnc f, !s.regs.cf, chipCfg.jccTarget s.regs.pc f)] →
    cost i = 1 ∧
    ∃ t, exec i s = .next t ∧ OnlyPc s t ∧ t.regs.pc = if taken = true then target else s.regs.pc + 1

/-- R249, R250: `btb` branches when the bit equals the polarity, `cib` when equality with the immediate agrees with
`eq`, else each goes to PC + 1; no flag, register or bSA changes; cost 1. Follows the spec's own decisions D15, D17
(log 5). -/
def Obligations.TestAndBranchFormsTestOneRegister : Prop :=
  ∀ (s : State) (x : Reg) (b : BitIdx) (i : Imm4) (pol : Bool) (f : Field),
    (cost (.btb x b pol f) = 1 ∧ ∃ t, exec (.btb x b pol f) s = .next t ∧ OnlyPc s t ∧
      t.regs.pc = if (s.regs.x x).getLsbD b = pol then chipCfg.btbTarget s.regs.pc f else s.regs.pc + 1) ∧
    (cost (.cib x i pol f) = 1 ∧ ∃ t, exec (.cib x i pol f) s = .next t ∧ OnlyPc s t ∧
      t.regs.pc = if decide (s.regs.x x = i) = pol then chipCfg.cibTarget s.regs.pc f else s.regs.pc + 1)

/-- R253: `wfe` holds PC while the whole of SR0 is zero and else advances; it clears nothing; cost 1. Follows the
spec's own decision D18 (log 5). -/
def Obligations.WaitForEventHoldsPcWhileNoEvent : Prop :=
  ∀ (s : State), cost .wfe = 1 ∧
    ∃ t, exec .wfe s = .next t ∧ OnlyPc s t ∧
      t.regs.pc = if s.dev.getSr 0 = 0 then s.regs.pc else s.regs.pc + 1

/-- R280 to R284: the five implied forms are refused in every state, each under its own name. Follows the spec's own
decision D52 (log 5). -/
def Obligations.ImpliedFormsAreRefused : Prop :=
  ∀ (s : State),
    exec .xld s = .refused (.unmodelled .xld) ∧ exec .xst s = .refused (.unmodelled .xst) ∧
    exec .ssa s = .refused (.unmodelled .ssa) ∧ exec .sla s = .refused (.unmodelled .sla) ∧
    exec .bsar s = .refused (.unmodelled .bsar)

/-! ### Rules over all instructions -/

/-- R71, R93: no instruction writes the internal region, and a step leaves every byte of it as it was, so that
self-modifying code is impossible. R70, R281, R282: nor does one write the external region, SA or a dirty set, which
rests on the refusal of `xst` and `ssa` (log 4). Follows the spec's own decisions D27, D52 (log 5). Follows the spec's
own inference R71 (log 5). -/
def Obligations.NoInstructionWritesMemory : Prop :=
  (∀ (i : Instr) (s t : State), exec i s = .next t → t.bus = s.bus ∧ SameMemory s t) ∧
  (∀ s t : State, step s = .next t → ∀ a, t.bus.imem.read a = s.bus.imem.read a)

/-- R21, R27, R28, R29: CB, AB, the call stack, CF and ZF are written only by the forms the rules name. Follows the
spec's own decisions D5, D9, D10, D11, D12, D14, D23 (log 5). -/
def Obligations.ControlStateWrittenOnlyByItsForms : Prop :=
  ∀ (i : Instr) (s t : State), exec i s = .next t →
    (t.regs.cb ≠ s.regs.cb → ∃ n, i = .scb n) ∧
    (t.regs.ab ≠ s.regs.ab → ∃ n, i = .sab n) ∧
    (t.regs.stk ≠ s.regs.stk → i = .ret ∨ ∃ v f, i = .call v f) ∧
    (t.regs.cf ≠ s.regs.cf → writesCarry i = true) ∧
    (t.regs.zf ≠ s.regs.zf → writesZero i = true)

/-- R24: every form that is no control transfer ends with PC + 1, mod 4096, when it has a next state. Follows the
spec's own decision D56 (log 5). -/
def Obligations.NonControlFormsAdvanceByOne : Prop :=
  ∀ (i : Instr) (s t : State), isControl i = false → exec i s = .next t →
    t.regs.pc.toNat = (s.regs.pc.toNat + 1) % 4096

/-- R21, R185: only `mvca` changes a register outside the current bank, and only `mvac` reads one: exchanging the
registers of all other banks changes, for every other form, neither the outcome's kind nor the current bank's
registers, PC, flags, stack, banks, devices, display, memory bus or engine. Follows the spec's own decision D5 (log
5). -/
def Obligations.OtherBanksReachedOnlyByCrossBankMoves : Prop :=
  (∀ (i : Instr) (s t : State), exec i s = .next t → (∀ x y, i ≠ .mvca x y) →
    ∀ b r, b ≠ s.regs.cb → t.regs.reg b r = s.regs.reg b r) ∧
  (∀ (i : Instr) (s : State) (g : Vector (Vector Nibble 32) 4), (∀ x y, i ≠ .mvac x y) →
    g[s.regs.cb] = s.regs.gr[s.regs.cb] →
    OutcomesRelated
      (fun t t' => (∀ r, t'.regs.reg s.regs.cb r = t.regs.reg s.regs.cb r) ∧ t'.regs.pc = t.regs.pc ∧
        FlagsKept t t' ∧ SameBanksAndStack t t' ∧ OnlyRegs t t')
      (exec i s) (exec i (s.mapRegs fun r => { r with gr := g })))

/-- R26: no instruction reads bSA: exchanging it changes nothing of an instruction's outcome but bSA itself. Follows
the spec's own decision D52 (log 5). -/
def Obligations.NoInstructionReadsBusLatch : Prop :=
  ∀ (i : Instr) (s : State) (b : BitVec 12),
    OutcomesRelated (fun t t' => ∃ b', t' = t.mapRegs fun r => { r with bsa := b' }) (exec i s)
      (exec i (s.mapRegs fun r => { r with bsa := b }))

/-- R41: the display path is write-only for the program: two states that differ in the display controller alone give,
when both steps have a next state, the same registers, devices, memory bus and engine. Follows the spec's own
inference R41 (log 5). -/
def Obligations.DisplayIsWriteOnlyForTheProgram : Prop :=
  ∀ (s t t' : State) (l : Lcd), step s = .next t → step (s.setLcd l) = .next t' →
    t'.regs = t.regs ∧ t'.dev = t.dev ∧ t'.bus = t.bus ∧ t'.eng = t.eng

/-! ### The tick -/

/-- R109, R403, R404, R405: a tick of an unmarked machine whose engine is free and whose PC is below 0xC00 steps the
devices, runs the form that the word at PC decodes to, sets busy to its cost − 1, and ends with the display step and
the cycle count; a stop of the form is the tick's, and a word that decodes to no form is refused. R104 (d): the
decoded form is well formed; that a target field is below 65536 is the model's choice (log 3). Follows the spec's own
decisions D1, D3, D4, D19, D20, D21, D57 (log 5). -/
def Obligations.StepRunsTheDecodedInstruction : Prop :=
  ∀ (s : State), s.eng.mark = none → s.eng.busy = 0 → s.regs.pc.toNat < 0xC00 →
    let w := s.bus.fetchOpcode s.regs.pc
    match decode w with
    | none => step s = .refused (.undecoded w)
    | some i =>
      i.WellFormed = true ∧
      match exec i (s.deviceSteps chipCfg) with
      | .next t => step s = .next ((t.setBusy (cost i - 1)).finishTick chipCfg)
      | .fault r => step s = .fault r
      | .refused r => step s = .refused r

/-- R403, R404: while busy is above 0 the engine only counts it down: the tick steps Timer0, Timer1 and the ISP in
that order, then the blink and the raster of the display, and counts a cycle; registers, PC, flags, stack and the
internal region stay. Follows the spec's own decisions D20, D21, D57 (log 5). -/
def Obligations.BusyTickExecutesNothing : Prop :=
  ∀ (s : State), s.eng.mark = none → 0 < s.eng.busy →
    let u := State.ispStep chipCfg { s with dev := Devices.timer1Step chipCfg (Devices.timer0Step chipCfg s.dev) }
    ∃ t, step s = .next t ∧ t.regs = s.regs ∧ t.bus.imem = s.bus.imem ∧ t.dev = u.dev ∧ t.bus = u.bus ∧
      t.eng = { u.eng with busy := s.eng.busy - 1, cycles := s.eng.cycles + 1 } ∧ t.eng.mark = none ∧
      t.lcd = Lcd.rasterStep chipCfg (Lcd.blinkStep chipCfg s.lcd)

/-- R74, R403: with the engine free, a PC of 0xC00 or more faults with that PC; the tick's state is that after Timer0,
Timer1 and the ISP, marked: registers, PC, the internal region, the display and the cycle count stay. Follows the
spec's own decisions D4, D21, D57 (log 5). -/
def Obligations.FetchBeyondInternalRegionFaults : Prop :=
  ∀ (s : State), s.eng.mark = none → s.eng.busy = 0 → 0xC00 ≤ s.regs.pc.toNat →
    step s = .fault (.fetchOutsideInternal s.regs.pc) ∧
    (tick s).eng.mark = some (.fault (.fetchOutsideInternal s.regs.pc)) ∧ (tick s).regs = s.regs ∧
    (tick s).bus.imem = s.bus.imem ∧ (tick s).lcd = s.lcd ∧ (tick s).eng.cycles = s.eng.cycles ∧
    let u := State.ispStep chipCfg { s with dev := Devices.timer1Step chipCfg (Devices.timer0Step chipCfg s.dev) }
    tick s = { u with eng := { u.eng with mark := some (.fault (.fetchOutsideInternal s.regs.pc)) } }

/-- R13, R403, R416: the tick as a function of states and the step as an outcome agree: a next state is the tick's,
unmarked; a stop sets the mark; a marked state takes no further tick and answers its mark. What was written earlier in
a stopped tick stands: Timer0, Timer1 and the ISP are stepped, the display is not, nor the cycle count, and registers
and PC stay; the first write of a `dw2` of two writes stays done (log 21), and else no display write is. That there
are a tick and a step, and that a step of a marked state answers the mark, is the model's choice (log 8). Follows the
spec's own decisions D3, D21, D46, D57 (log 5). -/
def Obligations.TickSetsStickyMarkExactlyOnStops : Prop :=
  (∀ s t : State, step s = .next t → tick s = t ∧ t.eng.mark = none) ∧
  (∀ (s : State) (r : Fault), step s = .fault r → (tick s).eng.mark = some (.fault r)) ∧
  (∀ (s : State) (r : Refusal), step s = .refused r → (tick s).eng.mark = some (.refused r)) ∧
  (∀ (s : State) (m : Mark), s.eng.mark = some m → tick s = s ∧ step s = m.outcome) ∧
  (∀ (s : State) (m : Mark), s.eng.mark = none → step s = m.outcome →
    let u := State.ispStep chipCfg { s with dev := Devices.timer1Step chipCfg (Devices.timer0Step chipCfg s.dev) }
    let t := tick s
    t.regs = s.regs ∧ t.dev = u.dev ∧ t.bus = u.bus ∧ t.bus.imem = s.bus.imem ∧
    t.eng = { u.eng with mark := some m } ∧ t.eng.cycles = s.eng.cycles ∧ t.eng.busy = s.eng.busy ∧
    (∀ y1 y2 t1, decode (s.bus.fetchOpcode s.regs.pc) = some (.dw2 y1 y2) → s.regs.pc.toNat < 0xC00 →
      chipCfg.dw2Mode = .twoNibbles → exec (.dw y1) s = .next t1 → t.lcd = t1.lcd) ∧
    (¬(s.regs.pc.toNat < 0xC00 ∧ chipCfg.dw2Mode = .twoNibbles ∧ ∃ y1 y2 t1,
      decode (s.bus.fetchOpcode s.regs.pc) = some (.dw2 y1 y2) ∧ exec (.dw y1) s = .next t1) → t.lcd = s.lcd))

/-! ### Events -/

/-- R354, R355: over n Timer0 steps from t0 = 0, SR14 goes up by n / 256 mod 16 and the SR4 counter by the number of
SR14 rollovers mod 4, its other bits kept; SR13 and every register but SR0, SR4, SR12, SR14 stay. Follows the spec's
own decision D47 (log 5). -/
def Obligations.TimerZeroCountsSecondsNibble : Prop :=
  ∀ (c : Cfg) (d : Devices) (n : Nat), d.t0 = 0 →
    let e := (Devices.timer0Step c)^[n] d
    let k := (d.getSr 14).toNat + n / 256
    e.t0.toNat = n % 1024 ∧ (e.getSr 14).toNat = k % 16 ∧
    (e.getSr 4 >>> c.sr4CntShift.val &&& 3).toNat
      = ((d.getSr 4 >>> c.sr4CntShift.val &&& 3).toNat + k / 16) % 4 ∧
    e.getSr 4 &&& ~~~(3#4 <<< c.sr4CntShift.val) = d.getSr 4 &&& ~~~(3#4 <<< c.sr4CntShift.val) ∧
    (∀ j, j ∉ [0, 4, 12, 14] → e.getSr j = d.getSr j)

/-- R354 to R357: after a Timer0 step an SR12 bit is set exactly when it was set before, or its source is due and SR13
enables it, the seconds rollover among the sources; the SR0 timer bit is set exactly when SR12 is not zero, and SR13
stays. Follows the spec's own decisions D21, D47 (log 5). -/
def Obligations.TimerZeroRaisesEnabledSources : Prop :=
  ∀ (c : Cfg) (d : Devices),
    let e := d.timer0Step c
    (∀ n : BitIdx, (e.getSr 12).getLsbD n = true ↔
      (d.getSr 12).getLsbD n = true ∨
        ∃ src, c.sr12Bit src = n ∧ c.sr13Enables src (d.getSr 13) = true ∧ Timer0Due d src) ∧
    e.getSr 13 = d.getSr 13 ∧
    e.getSr 0 = if e.getSr 12 = 0 then d.getSr 0 else setBit (d.getSr 0) c.sr0TimerBit

/-- R358, R359, R360: with the gate closed Timer1 does nothing. With it open, over n steps the count 38·digit + t1
goes up by n mod 380, a digit of 10 to 15 counting as 9; the digit register is unchanged before its first step and at
most 9 after; a rollover, and only that, sets the SR9 pending bit and the SR0 stopwatch bit; the SR3 counter goes up
by the number of rollovers mod 4; the gate stays open and nothing else changes. Follows the spec's own decisions D37,
D48 (log 5). -/
def Obligations.TimerOneCountsGatedTicks : Prop :=
  ∀ (c : Cfg) (d : Devices) (n : Nat),
    (testBit (d.getSr 9) c.t1GateBit = false → d.timer1Step c = d) ∧
    (testBit (d.getSr 9) c.t1GateBit = true → d.t1 ≤ 37 →
      let e := (Devices.timer1Step c)^[n] d
      let m := 38 * min (d.getSr 10).toNat 9 + d.t1 + n
      38 * min (e.getSr 10).toNat 9 + e.t1 = m % 380 ∧ e.t1 ≤ 37 ∧
      (d.t1 + n < 38 → e.getSr 10 = d.getSr 10) ∧ (38 ≤ d.t1 + n → (e.getSr 10).toNat ≤ 9) ∧
      e.getSr 9 = (if m < 380 then d.getSr 9 else d.getSr 9 ||| 1#4 <<< c.swPendBit.val) ∧
      e.getSr 0 = (if m < 380 then d.getSr 0 else setBit (d.getSr 0) c.sr0SwBit) ∧
      testBit (e.getSr 9) c.t1GateBit = true ∧
      (e.getSr 3 >>> c.sr3CntShift.val &&& 3).toNat = ((d.getSr 3 >>> c.sr3CntShift.val &&& 3).toNat + m / 380) % 4 ∧
      e.getSr 3 &&& ~~~(3#4 <<< c.sr3CntShift.val) = d.getSr 3 &&& ~~~(3#4 <<< c.sr3CntShift.val) ∧
      (∀ j, j ∉ [0, 3, 9, 10] → e.getSr j = d.getSr j) ∧ e = { d with sr := e.sr, t1 := e.t1 })

/-- R80, R87, R363, R364, R365: outside the 24-tick slot, or with no armed and enabled transmit, the ISP step only
moves its divider. In the slot in register mode it sends SR5 ++ SR6, disarms, and raises done. In the slot in DMA mode
it sends the byte at SA, SA goes up by 1 mod 0x800, and it disarms and raises done exactly when SA reaches a page
boundary; no memory byte changes. To raise done is to OR the done bit into the ISP status register and the ISP bit
into SR0. With receive enabled SR5 ++ SR6 is the byte sent, which overwrites the done bit where the status register is
one of the two. The divider goes to 0, and nothing else changes. Follows the spec's own decisions D32, D33, D49 (log
5). -/
def Obligations.IspSlotTransmitsOneByte : Prop :=
  ∀ (c : Cfg) (s : State),
    let div := (s.dev.ispDiv + 1) % 24
    let t := s.ispStep c
    let b := s.bus.xmem.read s.bus.sa.toNat
    (¬(div = 0 ∧ s.dev.ispTxpend = true ∧ s.dev.ispTxen = true) →
      t = s.mapDev fun d => { d with ispDiv := div }) ∧
    (div = 0 → s.dev.ispTxpend = true → s.dev.ispTxen = true → s.dev.ispMode = false →
      t.eng.trace = s.eng.trace ++ [(s.eng.cycles + 1, .tx (s.dev.getSr 5 ++ s.dev.getSr 6))] ∧
      (s.dev.ispRxen = true → t.dev.getSr 5 = s.dev.getSr 5 ∧ t.dev.getSr 6 = s.dev.getSr 6) ∧
      (∀ j, s.dev.ispRxen = false ∨ j ≠ 5 ∧ j ≠ 6 →
        t.dev.getSr j = ispRaised c c.ispDoneBit j (s.dev.getSr j)) ∧
      t = { s with
        dev := { s.dev with sr := t.dev.sr, ispTxpend := false, ispDiv := 0 }
        eng := { s.eng with trace := t.eng.trace } }) ∧
    (div = 0 → s.dev.ispTxpend = true → s.dev.ispTxen = true → s.dev.ispMode = true →
      t.eng.trace = s.eng.trace ++ [(s.eng.cycles + 1, .tx b)] ∧
      t.bus.sa.toNat = (s.bus.sa.toNat + 1) % 0x800 ∧ SameMemory s t ∧
      (t.dev.ispTxpend = true ↔ ¬ t.bus.sa.toNat % c.ispPage = 0) ∧
      (s.dev.ispRxen = true → t.dev.getSr 5 ++ t.dev.getSr 6 = b) ∧
      (∀ j, s.dev.ispRxen = false ∨ j ≠ 5 ∧ j ≠ 6 →
        t.dev.getSr j =
          if t.bus.sa.toNat % c.ispPage = 0 then ispRaised c c.ispDoneBit j (s.dev.getSr j) else s.dev.getSr j) ∧
      t = { s with
        dev := { s.dev with sr := t.dev.sr, ispTxpend := t.dev.ispTxpend, ispDiv := 0 }
        bus := { s.bus with sa := t.bus.sa }
        eng := { s.eng with trace := t.eng.trace } })

/-- R81, R367: with receive off `rx` changes nothing. With it on, SR5 ++ SR6 first becomes the byte. In DMA mode with
nothing armed it then stores the byte at SA, marks its word dirty, moves SA, raises done at a page boundary, and every
other byte reads as before; otherwise it raises immediate data, arms a transmit if transmit is enabled, and leaves the
memory bus alone. To raise one is to OR its bit into the ISP status register, SR5 and SR6 as they then are included,
and the ISP bit into SR0. Nothing else changes. Follows the spec's own decisions D34, D35 (log 5). -/
def Obligations.ReceiveStoresOrRaisesImmediateData : Prop :=
  ∀ (c : Cfg) (s : State) (b : Byte),
    let t := s.receive c b
    let shifted := fun j : SRIdx =>
      if j = 5 then b.extractLsb' 4 4 else if j = 6 then b.extractLsb' 0 4 else s.dev.getSr j
    (s.dev.ispRxen = false → t = s) ∧
    (s.dev.ispRxen = true → c.ispStatusSr ≠ 5 → c.ispStatusSr ≠ 6 → t.dev.getSr 5 ++ t.dev.getSr 6 = b) ∧
    (s.dev.ispRxen = true → s.dev.ispMode = true → s.dev.ispTxpend = false →
      (s.Inv → t.bus.xmem.read s.bus.sa.toNat = b ∧
        ∀ a, a ≠ s.bus.sa.toNat → t.bus.xmem.read a = s.bus.xmem.read a) ∧
      t.bus.imem = s.bus.imem ∧ t.bus.sa.toNat = (s.bus.sa.toNat + 1) % 0x800 ∧
      (∀ w, w ∈ t.bus.dirtyX ↔ w = s.bus.sa.toNat / 2 ∨ w ∈ s.bus.dirtyX) ∧ t.bus.dirtyI = s.bus.dirtyI ∧
      (∀ j, t.dev.getSr j =
        if t.bus.sa.toNat % c.ispPage = 0 then ispRaised c c.ispDoneBit j (shifted j) else shifted j) ∧
      t.dev = { s.dev with sr := t.dev.sr }) ∧
    (s.dev.ispRxen = true → ¬(s.dev.ispMode = true ∧ s.dev.ispTxpend = false) →
      t.bus = s.bus ∧ SameMemory s t ∧
      (∀ j, t.dev.getSr j = ispRaised c c.ispImmBit j (shifted j)) ∧
      t.dev = { s.dev with sr := t.dev.sr, ispTxpend := s.dev.ispTxpend || s.dev.ispTxen }) ∧
    t.regs = s.regs ∧ t.lcd = s.lcd ∧ t.eng = s.eng

/-- R370, R371: a press of line 0..3 sets its new and held bits and the SR0 key bit, a release clears only the held
bit, and any other line is refused with nothing else changed. Follows the spec's own decision D36 (log 5). -/
def Obligations.KeysSetAndClearLineBits : Prop :=
  ∀ (c : Cfg) (s : State) (l : Nat),
    (∀ h : l < 4,
      let t := s.press c l
      t.dev.getSr 7 = setBit (s.dev.getSr 7) ⟨l, h⟩ ∧ t.dev.getSr 8 = setBit (s.dev.getSr 8) ⟨l, h⟩ ∧
      t.dev.getSr 0 = setBit (s.dev.getSr 0) c.sr0KeyBit ∧ t.regs = s.regs ∧ t.bus = s.bus ∧ t.lcd = s.lcd ∧
      (s.dev.sw = .disabled ∨ 2 ≤ l → t.eng = s.eng ∧ t.dev.sw = s.dev.sw ∧ t.dev.t1 = s.dev.t1 ∧
        OtherSrKept [0, 7, 8] s t)) ∧
    (∀ h : l < 4, s.release l = s.mapDev fun d => d.setSr 8 (clearBit (d.getSr 8) ⟨l, h⟩)) ∧
    (4 ≤ l → s.eng.mark = none →
      s.press c l = { s with eng := { s.eng with mark := some (.refused (.keyLine l)) } } ∧
      s.release l = { s with eng := { s.eng with mark := some (.refused (.keyLine l)) } })

/-- R370, R372: the stopwatch table. Line 1 starts, stops and restarts it with the Timer1 gate following, and does
nothing more while disabled. Line 0 clears the counter while stopped, does nothing more while enabled or disabled, and
is refused as a lap while running. In every mode the press writes its key bits, at a lap too (log 11). Of the devices
and the engine nothing else changes. Follows the spec's own decisions D36, D37 (log 5). -/
def Obligations.StopwatchFollowsItsTable : Prop :=
  ∀ (c : Cfg) (s : State),
    let p1 := s.press c 1
    let p0 := s.press c 0
    let gate := fun b : Bool => p1.dev.getSr 9 = putBit (s.dev.getSr 9) c.t1GateBit b
    (s.dev.sw = .enabled ∨ s.dev.sw = .stopped → p1.dev.sw = .running ∧ gate true) ∧
    (s.dev.sw = .running → p1.dev.sw = .stopped ∧ gate false) ∧
    (s.dev.sw = .disabled → p1.dev.sw = .disabled ∧ p1.dev.getSr 9 = s.dev.getSr 9) ∧
    (OtherSrKept [0, 7, 8, 9] s p1 ∧ p1.dev = { s.dev with sr := p1.dev.sr, sw := p1.dev.sw } ∧ p1.eng = s.eng) ∧
    (s.dev.sw = .stopped → p0.dev.t1 = 0 ∧ p0.dev.getSr 10 = 0) ∧
    (s.dev.sw ≠ .stopped → p0.dev.t1 = s.dev.t1 ∧ p0.dev.getSr 10 = s.dev.getSr 10) ∧
    (s.dev.sw = .running → s.eng.mark = none →
      p0.eng = { s.eng with mark := some (.refused (.unmodelled .lap)) }) ∧
    (s.dev.sw ≠ .running ∨ s.eng.mark ≠ none → p0.eng = s.eng) ∧
    (p0.dev.getSr 7 = setBit (s.dev.getSr 7) 0 ∧ p0.dev.getSr 8 = setBit (s.dev.getSr 8) 0 ∧
      p0.dev.getSr 0 = setBit (s.dev.getSr 0) c.sr0KeyBit) ∧
    (p1.dev.getSr 7 = setBit (s.dev.getSr 7) 1 ∧ p1.dev.getSr 8 = setBit (s.dev.getSr 8) 1 ∧
      p1.dev.getSr 0 = setBit (s.dev.getSr 0) c.sr0KeyBit) ∧
    OtherSrKept [0, 7, 8, 10] s p0 ∧ p0.dev = { s.dev with sr := p0.dev.sr, t1 := p0.dev.t1 }

/-! ### The display step -/

/-- R331: over n blink steps from a counter of 0 the counter is n mod 1024 and the blink glyph has flipped once for
every 1024 steps; DDRAM, DARAM, DCTRL, LA, pixels and contrast stay, and so does the cursor without auto-reset, or
before step 1024; with it the cursor is then 0. Follows the spec's own decisions D42, D44 (log 5). -/
def Obligations.BlinkGlyphFlipsEveryPeriod : Prop :=
  ∀ (c : Cfg) (l : Lcd) (n : Nat), l.blinkCtr = 0 →
    let m := (Lcd.blinkStep c)^[n] l
    m.blinkCtr.toNat = n % 1024 ∧ m.blinkOn = (l.blinkOn ^^ decide (n / 1024 % 2 = 1)) ∧
    m.ddram = l.ddram ∧ m.daram = l.daram ∧ m.dctrl = l.dctrl ∧ m.la = l.la ∧ m.pix = l.pix ∧
    m.contrast = l.contrast ∧ m.redrawReq = l.redrawReq ∧
    (c.ctrlOn l.dctrl[8] = false → m.cursor = l.cursor) ∧
    (c.ctrlOn l.dctrl[8] = true → m.cursor = if n < 1024 then l.cursor else 0)

/-- R314, R316, R317, R328, R329: a raster step is skipped under direct draw, scan-stop or test-fill; a finished frame
stays until a redraw request wraps the cursor once; otherwise the cursor goes up by 4 to at most 512; nothing but
pixels, cursor and the request changes. Follows the spec's own decisions D41, D42, D43 (log 5). -/
def Obligations.RasterStepMovesCursorByFour : Prop :=
  ∀ (c : Cfg) (l : Lcd), l.cursor ≤ 512 →
    let m := l.rasterStep c
    (c.ctrlOn l.dctrl[4] = true ∨ c.ctrlOn l.dctrl[6] = true ∨ c.ctrlOn l.dctrl[7] = true → m = l) ∧
    (c.ctrlOn l.dctrl[4] = false → c.ctrlOn l.dctrl[6] = false → c.ctrlOn l.dctrl[7] = false →
      (l.cursor < 512 → m.cursor = min (l.cursor + 4) 512 ∧ m.redrawReq = l.redrawReq) ∧
      (l.cursor = 512 → l.redrawReq = false → m = l) ∧
      (l.cursor = 512 → l.redrawReq = true → m.cursor = 4 ∧ m.redrawReq = false)) ∧
    m.ddram = l.ddram ∧ m.daram = l.daram ∧ m.dctrl = l.dctrl ∧ m.la = l.la ∧ m.contrast = l.contrast ∧
    m.blinkOn = l.blinkOn ∧ m.blinkCtr = l.blinkCtr

/-- R333, with the premise that auto-reset is off, which the rule does not list (log 20): from cursor 0, with the
reference cursor decode, no mirroring, no skip and no blinking, 128 display steps draw the whole frame. Follows the
spec's own decisions D42, D44, D45 (log 5). Follows the spec's own inference R333 (log 5). -/
def Obligations.SteadyFrameIsDrawnInOneSweep : Prop :=
  ∀ (c : Cfg) (l : Lcd), c.Valid → c.scanCells = Config.refScanCells →
    c.mirrorMode l.dctrl[0] = .none → c.mirrorMode l.dctrl[1] = .none →
    c.ctrlOn l.dctrl[4] = false → c.ctrlOn l.dctrl[5] = false → c.ctrlOn l.dctrl[6] = false →
    c.ctrlOn l.dctrl[7] = false → c.ctrlOn l.dctrl[8] = false → l.cursor = 0 →
    let m := (Lcd.displayStep c)^[128] l
    m.cursor = 512 ∧ m.ddram = l.ddram ∧
    ∀ (r : Fin 4) (k : Fin 10) (d : Fin 7) (dx : Fin 5) (hy : 7 * r.val + d.val < 28) (hx : 5 * k.val + dx.val < 50),
      (m.pix[7 * r.val + d.val])[5 * k.val + dx.val] = (c.font l.ddram[c.cellCode r k] d).getLsbD (4 - dx.val)

/-- R330: off(c) is 6 (c - 15) and on(c) is 15 c, clamped to 0..255, over 255; they lie in 0..1, off is at most on,
off is 0 up to contrast 15, on is 1 from contrast 17, and under test-fill every pixel shows 1. Follows the spec's own
decisions D43, D55 (log 5). -/
def Obligations.OpacityFollowsContrast : Prop :=
  (∀ n : Nat, opacityOff n = ((min (6 * (n - 15)) 255 : Nat) : Rat) / 255 ∧
    opacityOn n = ((min (15 * n) 255 : Nat) : Rat) / 255 ∧
    0 ≤ opacityOff n ∧ opacityOff n ≤ opacityOn n ∧ opacityOn n ≤ 1 ∧
    (n ≤ 15 → opacityOff n = 0) ∧ (17 ≤ n → opacityOn n = 1)) ∧
  (∀ (c : Cfg) (l : Lcd) (y : Fin 28) (x : Fin 50),
    l.outPixel c y x =
      if c.ctrlOn l.dctrl[6] then 1 else if (l.pix[y])[x] then opacityOn l.contrast else opacityOff l.contrast)

/-! ### Invariants -/

/-- The state after reset lies in the ranges of R29, R35, R36, R38, R40, R70 and R78. Follows the spec's own decisions
D20, D23, D29, D32, D42, D44, D47, D48, D49, D50, D57 (log 5). -/
def Obligations.ResetStateIsInRange : Prop := State.reset.Inv

/-- R29, R35, R36, R38, R40, R70, R78: every step keeps every element in its range and memories and dirty sets
canonical. Follows the spec's own decisions D20, D23, D29, D32, D42, D44, D47, D48, D49, D50, D57 (log 5). -/
def Obligations.StepKeepsRanges : Prop := ∀ (s t : State), s.Inv → step s = .next t → t.Inv

/-- R402, R412, R416: so does every run: any ticks and host events in any order, ticks that stop among them. That a
raw write beyond the region stores nothing (log 12), and that host events, the raw writes and the drain among them,
are applied whatever the mark (log 10), is the model's choice. Follows the spec's own decisions D3, D22, D51, D57 (log
5). -/
def Obligations.RunsKeepRanges : Prop := ∀ (es : List RunEvent) (s : State), s.Inv → (runEvents es s).Inv

/-! ### Reset and host events -/

/-- R42, R400, R401, R414: what power-on with no image leaves, the contrast at the spec's open parameter (log 2, log
6); and a device reset keeps the memory bus, clears the mark, and gives everything else that value. That it empties
the output record is the model's choice (log 9). Follows the spec's own decisions D23, D24 (log 5). -/
def Obligations.ResetLeavesStatedValues : Prop :=
  (∀ u : State, let t := hostEvent chipCfg .reset u
    t.bus = u.bus ∧ SameMemory u t ∧ t.regs = State.reset.regs ∧ t.dev = State.reset.dev ∧
      t.lcd = State.reset.lcd ∧ t.eng = State.reset.eng) ∧
  let s := State.reset
  (∀ b i, s.regs.reg b i = 0) ∧ s.regs.cb = 0 ∧ s.regs.ab = 0 ∧ s.regs.pc = 0 ∧ s.regs.cf = false ∧
  s.regs.zf = false ∧ s.regs.stk = [] ∧ s.regs.bsa = 0 ∧ (∀ k, s.dev.getSr k = 0) ∧ s.dev.sw = .disabled ∧
  s.dev.ispMode = false ∧ s.dev.ispTxen = false ∧ s.dev.ispRxen = false ∧ s.dev.ispTxpend = false ∧
  s.dev.ispDiv = 0 ∧ s.dev.t0 = 0 ∧ s.dev.t1 = 0 ∧ s.eng.busy = 0 ∧ s.eng.cycles = 0 ∧ s.eng.mark = none ∧
  s.eng.trace = [] ∧
  (∀ a, s.bus.imem.read a = 0 ∧ s.bus.xmem.read a = 0) ∧ s.bus.sa = 0 ∧
  (∀ w, w ∈ s.bus.dirtyI ↔ w < 3072) ∧ (∀ w, w ∈ s.bus.dirtyX ↔ w < 1024) ∧
  (∀ a : Fin 64, s.lcd.ddram[a] = 0 ∧ s.lcd.daram[a] = false) ∧ (∀ i : Fin 16, s.lcd.dctrl[i] = 0) ∧
  s.lcd.la = 0 ∧ (∀ (y : Fin 28) (x : Fin 50), (s.lcd.pix[y])[x] = false) ∧ s.lcd.cursor = 0 ∧
  s.lcd.contrast = chipCfg.contrastReset.val ∧ s.lcd.blinkOn = false ∧ s.lcd.blinkCtr = 0 ∧
  s.lcd.redrawReq = false

/-- R73, R77: a fetch is big-endian, the byte at the even address in the high half. A load of either region, with an
image or with none, leaves the image's bytes, truncated to the region, with zero for every missing byte, and every
word dirty; nothing else changes. So after a load of the internal region the fetch at word n below 3072 gives bytes 2n
and 2n + 1 of the image. -/
def Obligations.LoadedImageIsFetchedBigEndian : Prop :=
  (∀ (m : MemoryBus) (pc : Addr12),
    (m.fetchOpcode pc).extractLsb' 8 8 = m.imem.read (2 * pc.toNat) ∧
    (m.fetchOpcode pc).extractLsb' 0 8 = m.imem.read (2 * pc.toNat + 1)) ∧
  ∀ (s : State) (image : Option (List Byte)),
    let byte := fun a => (image.getD []).getD a 0
    (let t := hostEvent chipCfg (.load image .internal) s
     (∀ n, n < 3072 → t.bus.fetchOpcode (BitVec.ofNat 12 n) = byte (2 * n) ++ byte (2 * n + 1)) ∧
     (∀ a, t.bus.imem.read a = if a < 6144 then byte a else 0) ∧ (∀ w, w ∈ t.bus.dirtyI ↔ w < 3072) ∧
     t = { s with bus := { s.bus with imem := t.bus.imem, dirtyI := t.bus.dirtyI } }) ∧
    (let t := hostEvent chipCfg (.load image .external) s
     (∀ a, t.bus.xmem.read a = if a < 2048 then byte a else 0) ∧ (∀ w, w ∈ t.bus.dirtyX ↔ w < 1024) ∧
     t = { s with bus := { s.bus with xmem := t.bus.xmem, dirtyX := t.bus.dirtyX } })

/-- R412: a debugger patch of PC, LA, SA, a bank, a flag, a register, a special register, a display cell or a control
register stores the value at its width and changes nothing else: no bSA capture, no SR dispatch, no DCTRL effect; an
index out of range and an unknown key change nothing. Follows the spec's own decisions D22, D51 (log 5). -/
def Obligations.DebugPatchStoresRaw : Prop :=
  ∀ (s : State) (v : Nat),
    (let t := s.patchStore .pc v
     t.regs.pc.toNat = v % 4096 ∧ RegsKept s t ∧ FlagsKept s t ∧ SameBanksAndStack s t ∧ OnlyRegs s t) ∧
    (let t := s.patchStore .cb v
     t.regs.cb.val = v % 4 ∧ t.regs = { s.regs with cb := t.regs.cb } ∧ OnlyRegs s t) ∧
    (let t := s.patchStore .ab v
     t.regs.ab.val = v % 4 ∧ t.regs = { s.regs with ab := t.regs.ab } ∧ OnlyRegs s t) ∧
    (let t := s.patchStore .cf v
     (t.regs.cf = true ↔ v % 2 = 1) ∧ t.regs = { s.regs with cf := t.regs.cf } ∧ OnlyRegs s t) ∧
    (let t := s.patchStore .zf v
     (t.regs.zf = true ↔ v % 2 = 1) ∧ t.regs = { s.regs with zf := t.regs.zf } ∧ OnlyRegs s t) ∧
    (let t := s.patchStore .la v
     t.lcd.la.toNat = v % 256 ∧ t = s.setLcd { s.lcd with la := t.lcd.la }) ∧
    (let t := s.patchStore .sa v
     t.bus.sa.toNat = v % 0x800 ∧ t = { s with bus := { s.bus with sa := t.bus.sa } } ∧ SameMemory s t) ∧
    (∀ (b : Bank) (i : Reg), let t := s.patchStore (.gr b i) v
      (t.regs.reg b i).toNat = v % 16 ∧ OtherRegsKept b i s t ∧ t.regs = { s.regs with gr := t.regs.gr } ∧
        OnlyRegs s t) ∧
    (∀ k : SRIdx, let t := s.patchStore (.sr k) v
      (t.dev.getSr k).toNat = v % 16 ∧ OtherSrKept [k] s t ∧ HiddenKept s t ∧ t = { s with dev := t.dev }) ∧
    (∀ a : Fin 64, let t := s.patchStore (.ddram a) v
      t.lcd.ddram[a].toNat = v % 16 ∧ (∀ j : Fin 64, j ≠ a → t.lcd.ddram[j] = s.lcd.ddram[j]) ∧
        t = s.setLcd { s.lcd with ddram := t.lcd.ddram }) ∧
    (∀ a : Fin 64, let t := s.patchStore (.daram a) v
      (t.lcd.daram[a] = true ↔ v % 2 = 1) ∧ (∀ j : Fin 64, j ≠ a → t.lcd.daram[j] = s.lcd.daram[j]) ∧
        t = s.setLcd { s.lcd with daram := t.lcd.daram }) ∧
    (∀ a : Fin 16, let t := s.patchStore (.dctrl a) v
      t.lcd.dctrl[a].toNat = v % 16 ∧ (∀ j : Fin 16, j ≠ a → t.lcd.dctrl[j] = s.lcd.dctrl[j]) ∧
        t = s.setLcd { s.lcd with dctrl := t.lcd.dctrl }) ∧
    (∀ k, 16 ≤ k → s.patchStore (.sr k) v = s ∧ s.patchStore (.dctrl k) v = s) ∧
    (∀ a, 64 ≤ a → s.patchStore (.ddram a) v = s ∧ s.patchStore (.daram a) v = s) ∧
    (∀ b i, 4 ≤ b ∨ 32 ≤ i → s.patchStore (.gr b i) v = s) ∧ s.patchStore .unknown v = s

/-! ### Encoding -/

/-- R104 (c), (d): the all-zero word is a defined instruction, and every decoded form is well formed. That a
well-formed target field is one below 65536 is the model's choice (log 3). Follows the spec's own decision D1 (log 5).
-/
def Obligations.ZeroWordDecodesAndDecodedFormsAreWellFormed : Prop :=
  decode 0 ≠ none ∧ ∀ w i, decode w = some i → i.WellFormed = true

/-- Every form that some word stands for has an encoding, its bytes decode back to it with whatever follows left over,
and a form with no encoding is decoded from no word. Follows the spec's own decision D1 (log 5). -/
def Obligations.DecodeOfEncodeIsTheForm : Prop :=
  ∀ (i : Instr) (rest : List Byte),
    (∀ bs, encodeBytes i = some bs → bs.length = 2 ∧ ∃ b0 b1, bs = [b0, b1] ∧
      decodeBytes (bs ++ rest) = .ok (i, rest)) ∧
    (encodeBytes i = none → ∀ w, decode w ≠ some i)

/-! ### Debugger patches -/

/-- R76, R412: a patch is its entries in the order listed, each that does not parse skipped and the others applied;
the MEMORY key stores a word of the internal region, high byte first, marks it dirty and changes nothing else, and
beyond the region changes nothing. That a value that does not parse is an absent value is the model's choice (log 22).
Follows the spec's own decisions D22, D50, D51 (log 5). -/
def Obligations.DebugPatchAppliesEntriesInOrder : Prop :=
  (∀ (p : Patch) (s : State), hostEvent chipCfg (.debugPatch p) s =
    p.foldl (fun u e => match e.2 with
      | some v => u.patchStore e.1 v
      | none => u) s) ∧
  (∀ (s : State) (addr v : Nat), s.bus.imem.wf imemSize = true → addr < 3072 →
    let t := s.patchStore (.memory addr) v
    (t.bus.imem.read (2 * addr)).toNat = v / 256 % 256 ∧ (t.bus.imem.read (2 * addr + 1)).toNat = v % 256 ∧
    (∀ a, a ≠ 2 * addr → a ≠ 2 * addr + 1 → t.bus.imem.read a = s.bus.imem.read a) ∧
    (∀ w, w ∈ t.bus.dirtyI ↔ w = addr ∨ w ∈ s.bus.dirtyI) ∧
    t = { s with bus := { s.bus with imem := t.bus.imem, dirtyI := t.bus.dirtyI } }) ∧
  (∀ (s : State) (addr v : Nat), 3072 ≤ addr → s.patchStore (.memory addr) v = s)
end

