-- ==== Sys2Proof/Laws/State.lean ====
section
/-! SUPPORT. One lemma per field per named update of the state, true by rfl, so that no later proof unfolds a
record update. -/

namespace Sys2Proof.Machine

/-! ### State.mapRegs -/
@[simp] theorem State.mapRegs_regs (s : State) (f : RegFile → RegFile) : (s.mapRegs f).regs = f s.regs := rfl
@[simp] theorem State.mapRegs_dev (s : State) (f : RegFile → RegFile) : (s.mapRegs f).dev = s.dev := rfl
@[simp] theorem State.mapRegs_bus (s : State) (f : RegFile → RegFile) : (s.mapRegs f).bus = s.bus := rfl
@[simp] theorem State.mapRegs_lcd (s : State) (f : RegFile → RegFile) : (s.mapRegs f).lcd = s.lcd := rfl
@[simp] theorem State.mapRegs_eng (s : State) (f : RegFile → RegFile) : (s.mapRegs f).eng = s.eng := rfl

/-! ### State.mapDev -/
@[simp] theorem State.mapDev_regs (s : State) (f : Devices → Devices) : (s.mapDev f).regs = s.regs := rfl
@[simp] theorem State.mapDev_dev (s : State) (f : Devices → Devices) : (s.mapDev f).dev = f s.dev := rfl
@[simp] theorem State.mapDev_bus (s : State) (f : Devices → Devices) : (s.mapDev f).bus = s.bus := rfl
@[simp] theorem State.mapDev_lcd (s : State) (f : Devices → Devices) : (s.mapDev f).lcd = s.lcd := rfl
@[simp] theorem State.mapDev_eng (s : State) (f : Devices → Devices) : (s.mapDev f).eng = s.eng := rfl

/-! ### State.setLcd -/
@[simp] theorem State.setLcd_regs (s : State) (l : Lcd) : (s.setLcd l).regs = s.regs := rfl
@[simp] theorem State.setLcd_dev (s : State) (l : Lcd) : (s.setLcd l).dev = s.dev := rfl
@[simp] theorem State.setLcd_bus (s : State) (l : Lcd) : (s.setLcd l).bus = s.bus := rfl
@[simp] theorem State.setLcd_lcd (s : State) (l : Lcd) : (s.setLcd l).lcd = l := rfl
@[simp] theorem State.setLcd_eng (s : State) (l : Lcd) : (s.setLcd l).eng = s.eng := rfl

/-! ### State.setBusy -/
@[simp] theorem State.setBusy_regs (s : State) (n : Nat) : (s.setBusy n).regs = s.regs := rfl
@[simp] theorem State.setBusy_dev (s : State) (n : Nat) : (s.setBusy n).dev = s.dev := rfl
@[simp] theorem State.setBusy_bus (s : State) (n : Nat) : (s.setBusy n).bus = s.bus := rfl
@[simp] theorem State.setBusy_lcd (s : State) (n : Nat) : (s.setBusy n).lcd = s.lcd := rfl
@[simp] theorem State.setBusy_eng (s : State) (n : Nat) : (s.setBusy n).eng = { s.eng with busy := n } := rfl

/-! ### State.finishTick -/
@[simp] theorem State.finishTick_regs (c : Cfg) (s : State) : (s.finishTick c).regs = s.regs := rfl
@[simp] theorem State.finishTick_dev (c : Cfg) (s : State) : (s.finishTick c).dev = s.dev := rfl
@[simp] theorem State.finishTick_bus (c : Cfg) (s : State) : (s.finishTick c).bus = s.bus := rfl
@[simp] theorem State.finishTick_lcd (c : Cfg) (s : State) : (s.finishTick c).lcd = s.lcd.displayStep c := rfl
@[simp] theorem State.finishTick_eng (c : Cfg) (s : State) : (s.finishTick c).eng = { s.eng with cycles := s.eng.cycles + 1 } := rfl

/-! ### State.emit -/
@[simp] theorem State.emit_regs (s : State) (e : PortEvent) : (s.emit e).regs = s.regs := rfl
@[simp] theorem State.emit_dev (s : State) (e : PortEvent) : (s.emit e).dev = s.dev := rfl
@[simp] theorem State.emit_bus (s : State) (e : PortEvent) : (s.emit e).bus = s.bus := rfl
@[simp] theorem State.emit_lcd (s : State) (e : PortEvent) : (s.emit e).lcd = s.lcd := rfl
@[simp] theorem State.emit_eng (s : State) (e : PortEvent) : (s.emit e).eng = { s.eng with trace := s.eng.trace ++ [(s.eng.cycles + 1, e)] } := rfl

/-! ### RegFile.rawWrite -/
@[simp] theorem RegFile.rawWrite_cb (r : RegFile) (b : Bank) (i : Reg) (v : Nibble) : (r.rawWrite b i v).cb = r.cb := rfl
@[simp] theorem RegFile.rawWrite_ab (r : RegFile) (b : Bank) (i : Reg) (v : Nibble) : (r.rawWrite b i v).ab = r.ab := rfl
@[simp] theorem RegFile.rawWrite_pc (r : RegFile) (b : Bank) (i : Reg) (v : Nibble) : (r.rawWrite b i v).pc = r.pc := rfl
@[simp] theorem RegFile.rawWrite_cf (r : RegFile) (b : Bank) (i : Reg) (v : Nibble) : (r.rawWrite b i v).cf = r.cf := rfl
@[simp] theorem RegFile.rawWrite_zf (r : RegFile) (b : Bank) (i : Reg) (v : Nibble) : (r.rawWrite b i v).zf = r.zf := rfl
@[simp] theorem RegFile.rawWrite_stk (r : RegFile) (b : Bank) (i : Reg) (v : Nibble) : (r.rawWrite b i v).stk = r.stk := rfl
@[simp] theorem RegFile.rawWrite_bsa (r : RegFile) (b : Bank) (i : Reg) (v : Nibble) : (r.rawWrite b i v).bsa = r.bsa := rfl

/-! ### RegFile.write -/
@[simp] theorem RegFile.write_gr (r : RegFile) (b : Bank) (i : Reg) (v : Nibble) : (r.write b i v).gr = (r.rawWrite b i v).gr := rfl
@[simp] theorem RegFile.write_cb (r : RegFile) (b : Bank) (i : Reg) (v : Nibble) : (r.write b i v).cb = r.cb := rfl
@[simp] theorem RegFile.write_ab (r : RegFile) (b : Bank) (i : Reg) (v : Nibble) : (r.write b i v).ab = r.ab := rfl
@[simp] theorem RegFile.write_pc (r : RegFile) (b : Bank) (i : Reg) (v : Nibble) : (r.write b i v).pc = r.pc := rfl
@[simp] theorem RegFile.write_cf (r : RegFile) (b : Bank) (i : Reg) (v : Nibble) : (r.write b i v).cf = r.cf := rfl
@[simp] theorem RegFile.write_zf (r : RegFile) (b : Bank) (i : Reg) (v : Nibble) : (r.write b i v).zf = r.zf := rfl
@[simp] theorem RegFile.write_stk (r : RegFile) (b : Bank) (i : Reg) (v : Nibble) : (r.write b i v).stk = r.stk := rfl
@[simp] theorem RegFile.write_bsa (r : RegFile) (b : Bank) (i : Reg) (v : Nibble) : (r.write b i v).bsa = capture r.bsa (r.reg b i) := rfl

/-! ### RegFile.writeX -/
@[simp] theorem RegFile.writeX_gr (r : RegFile) (i : Reg) (v : Nibble) : (r.writeX i v).gr = (r.rawWrite r.cb i v).gr := rfl
@[simp] theorem RegFile.writeX_cb (r : RegFile) (i : Reg) (v : Nibble) : (r.writeX i v).cb = r.cb := rfl
@[simp] theorem RegFile.writeX_ab (r : RegFile) (i : Reg) (v : Nibble) : (r.writeX i v).ab = r.ab := rfl
@[simp] theorem RegFile.writeX_pc (r : RegFile) (i : Reg) (v : Nibble) : (r.writeX i v).pc = r.pc := rfl
@[simp] theorem RegFile.writeX_cf (r : RegFile) (i : Reg) (v : Nibble) : (r.writeX i v).cf = r.cf := rfl
@[simp] theorem RegFile.writeX_zf (r : RegFile) (i : Reg) (v : Nibble) : (r.writeX i v).zf = r.zf := rfl
@[simp] theorem RegFile.writeX_stk (r : RegFile) (i : Reg) (v : Nibble) : (r.writeX i v).stk = r.stk := rfl
@[simp] theorem RegFile.writeX_bsa (r : RegFile) (i : Reg) (v : Nibble) : (r.writeX i v).bsa = capture r.bsa (r.x i) := rfl

/-! ### RegFile.writeXa -/
@[simp] theorem RegFile.writeXa_gr (r : RegFile) (i : Reg) (v : Nibble) : (r.writeXa i v).gr = (r.rawWrite r.ab i v).gr := rfl
@[simp] theorem RegFile.writeXa_cb (r : RegFile) (i : Reg) (v : Nibble) : (r.writeXa i v).cb = r.cb := rfl
@[simp] theorem RegFile.writeXa_ab (r : RegFile) (i : Reg) (v : Nibble) : (r.writeXa i v).ab = r.ab := rfl
@[simp] theorem RegFile.writeXa_pc (r : RegFile) (i : Reg) (v : Nibble) : (r.writeXa i v).pc = r.pc := rfl
@[simp] theorem RegFile.writeXa_cf (r : RegFile) (i : Reg) (v : Nibble) : (r.writeXa i v).cf = r.cf := rfl
@[simp] theorem RegFile.writeXa_zf (r : RegFile) (i : Reg) (v : Nibble) : (r.writeXa i v).zf = r.zf := rfl
@[simp] theorem RegFile.writeXa_stk (r : RegFile) (i : Reg) (v : Nibble) : (r.writeXa i v).stk = r.stk := rfl
@[simp] theorem RegFile.writeXa_bsa (r : RegFile) (i : Reg) (v : Nibble) : (r.writeXa i v).bsa = capture r.bsa (r.xa i) := rfl

/-! ### RegFile.advance -/
@[simp] theorem RegFile.advance_gr (r : RegFile) : (r.advance).gr = r.gr := rfl
@[simp] theorem RegFile.advance_cb (r : RegFile) : (r.advance).cb = r.cb := rfl
@[simp] theorem RegFile.advance_ab (r : RegFile) : (r.advance).ab = r.ab := rfl
@[simp] theorem RegFile.advance_pc (r : RegFile) : (r.advance).pc = r.pc + 1 := rfl
@[simp] theorem RegFile.advance_cf (r : RegFile) : (r.advance).cf = r.cf := rfl
@[simp] theorem RegFile.advance_zf (r : RegFile) : (r.advance).zf = r.zf := rfl
@[simp] theorem RegFile.advance_stk (r : RegFile) : (r.advance).stk = r.stk := rfl
@[simp] theorem RegFile.advance_bsa (r : RegFile) : (r.advance).bsa = r.bsa := rfl

/-! ### RegFile.setFlags -/
@[simp] theorem RegFile.setFlags_gr (r : RegFile) (c z : Bool) : (r.setFlags c z).gr = r.gr := rfl
@[simp] theorem RegFile.setFlags_cb (r : RegFile) (c z : Bool) : (r.setFlags c z).cb = r.cb := rfl
@[simp] theorem RegFile.setFlags_ab (r : RegFile) (c z : Bool) : (r.setFlags c z).ab = r.ab := rfl
@[simp] theorem RegFile.setFlags_pc (r : RegFile) (c z : Bool) : (r.setFlags c z).pc = r.pc := rfl
@[simp] theorem RegFile.setFlags_cf (r : RegFile) (c z : Bool) : (r.setFlags c z).cf = c := rfl
@[simp] theorem RegFile.setFlags_zf (r : RegFile) (c z : Bool) : (r.setFlags c z).zf = z := rfl
@[simp] theorem RegFile.setFlags_stk (r : RegFile) (c z : Bool) : (r.setFlags c z).stk = r.stk := rfl
@[simp] theorem RegFile.setFlags_bsa (r : RegFile) (c z : Bool) : (r.setFlags c z).bsa = r.bsa := rfl

/-! ### RegFile.setZero -/
@[simp] theorem RegFile.setZero_gr (r : RegFile) (z : Bool) : (r.setZero z).gr = r.gr := rfl
@[simp] theorem RegFile.setZero_cb (r : RegFile) (z : Bool) : (r.setZero z).cb = r.cb := rfl
@[simp] theorem RegFile.setZero_ab (r : RegFile) (z : Bool) : (r.setZero z).ab = r.ab := rfl
@[simp] theorem RegFile.setZero_pc (r : RegFile) (z : Bool) : (r.setZero z).pc = r.pc := rfl
@[simp] theorem RegFile.setZero_cf (r : RegFile) (z : Bool) : (r.setZero z).cf = r.cf := rfl
@[simp] theorem RegFile.setZero_zf (r : RegFile) (z : Bool) : (r.setZero z).zf = z := rfl
@[simp] theorem RegFile.setZero_stk (r : RegFile) (z : Bool) : (r.setZero z).stk = r.stk := rfl
@[simp] theorem RegFile.setZero_bsa (r : RegFile) (z : Bool) : (r.setZero z).bsa = r.bsa := rfl

/-! ### Devices.setSr -/
@[simp] theorem Devices.setSr_ispMode (d : Devices) (i : SRIdx) (v : Nibble) : (d.setSr i v).ispMode = d.ispMode := rfl
@[simp] theorem Devices.setSr_ispTxen (d : Devices) (i : SRIdx) (v : Nibble) : (d.setSr i v).ispTxen = d.ispTxen := rfl
@[simp] theorem Devices.setSr_ispRxen (d : Devices) (i : SRIdx) (v : Nibble) : (d.setSr i v).ispRxen = d.ispRxen := rfl
@[simp] theorem Devices.setSr_ispTxpend (d : Devices) (i : SRIdx) (v : Nibble) : (d.setSr i v).ispTxpend = d.ispTxpend := rfl
@[simp] theorem Devices.setSr_ispDiv (d : Devices) (i : SRIdx) (v : Nibble) : (d.setSr i v).ispDiv = d.ispDiv := rfl
@[simp] theorem Devices.setSr_t0 (d : Devices) (i : SRIdx) (v : Nibble) : (d.setSr i v).t0 = d.t0 := rfl
@[simp] theorem Devices.setSr_t1 (d : Devices) (i : SRIdx) (v : Nibble) : (d.setSr i v).t1 = d.t1 := rfl
@[simp] theorem Devices.setSr_sw (d : Devices) (i : SRIdx) (v : Nibble) : (d.setSr i v).sw = d.sw := rfl

/-! ### Devices.modSr -/
@[simp] theorem Devices.modSr_ispMode (d : Devices) (i : SRIdx) (f : Nibble → Nibble) : (d.modSr i f).ispMode = d.ispMode := rfl
@[simp] theorem Devices.modSr_ispTxen (d : Devices) (i : SRIdx) (f : Nibble → Nibble) : (d.modSr i f).ispTxen = d.ispTxen := rfl
@[simp] theorem Devices.modSr_ispRxen (d : Devices) (i : SRIdx) (f : Nibble → Nibble) : (d.modSr i f).ispRxen = d.ispRxen := rfl
@[simp] theorem Devices.modSr_ispTxpend (d : Devices) (i : SRIdx) (f : Nibble → Nibble) : (d.modSr i f).ispTxpend = d.ispTxpend := rfl
@[simp] theorem Devices.modSr_ispDiv (d : Devices) (i : SRIdx) (f : Nibble → Nibble) : (d.modSr i f).ispDiv = d.ispDiv := rfl
@[simp] theorem Devices.modSr_t0 (d : Devices) (i : SRIdx) (f : Nibble → Nibble) : (d.modSr i f).t0 = d.t0 := rfl
@[simp] theorem Devices.modSr_t1 (d : Devices) (i : SRIdx) (f : Nibble → Nibble) : (d.modSr i f).t1 = d.t1 := rfl
@[simp] theorem Devices.modSr_sw (d : Devices) (i : SRIdx) (f : Nibble → Nibble) : (d.modSr i f).sw = d.sw := rfl

/-! ### Lcd.setPix -/
@[simp] theorem Lcd.setPix_ddram (l : Lcd) (y : Fin 28) (x : Fin 50) (b : Bool) : (l.setPix y x b).ddram = l.ddram := rfl
@[simp] theorem Lcd.setPix_daram (l : Lcd) (y : Fin 28) (x : Fin 50) (b : Bool) : (l.setPix y x b).daram = l.daram := rfl
@[simp] theorem Lcd.setPix_dctrl (l : Lcd) (y : Fin 28) (x : Fin 50) (b : Bool) : (l.setPix y x b).dctrl = l.dctrl := rfl
@[simp] theorem Lcd.setPix_la (l : Lcd) (y : Fin 28) (x : Fin 50) (b : Bool) : (l.setPix y x b).la = l.la := rfl
@[simp] theorem Lcd.setPix_cursor (l : Lcd) (y : Fin 28) (x : Fin 50) (b : Bool) : (l.setPix y x b).cursor = l.cursor := rfl
@[simp] theorem Lcd.setPix_contrast (l : Lcd) (y : Fin 28) (x : Fin 50) (b : Bool) : (l.setPix y x b).contrast = l.contrast := rfl
@[simp] theorem Lcd.setPix_blinkOn (l : Lcd) (y : Fin 28) (x : Fin 50) (b : Bool) : (l.setPix y x b).blinkOn = l.blinkOn := rfl
@[simp] theorem Lcd.setPix_blinkCtr (l : Lcd) (y : Fin 28) (x : Fin 50) (b : Bool) : (l.setPix y x b).blinkCtr = l.blinkCtr := rfl
@[simp] theorem Lcd.setPix_redrawReq (l : Lcd) (y : Fin 28) (x : Fin 50) (b : Bool) : (l.setPix y x b).redrawReq = l.redrawReq := rfl

/-! ### Lcd.fillPix -/
@[simp] theorem Lcd.fillPix_ddram (l : Lcd) : (l.fillPix).ddram = l.ddram := rfl
@[simp] theorem Lcd.fillPix_daram (l : Lcd) : (l.fillPix).daram = l.daram := rfl
@[simp] theorem Lcd.fillPix_dctrl (l : Lcd) : (l.fillPix).dctrl = l.dctrl := rfl
@[simp] theorem Lcd.fillPix_la (l : Lcd) : (l.fillPix).la = l.la := rfl
@[simp] theorem Lcd.fillPix_pix (l : Lcd) : (l.fillPix).pix = Vector.replicate 28 (Vector.replicate 50 true) := rfl
@[simp] theorem Lcd.fillPix_cursor (l : Lcd) : (l.fillPix).cursor = l.cursor := rfl
@[simp] theorem Lcd.fillPix_contrast (l : Lcd) : (l.fillPix).contrast = l.contrast := rfl
@[simp] theorem Lcd.fillPix_blinkOn (l : Lcd) : (l.fillPix).blinkOn = l.blinkOn := rfl
@[simp] theorem Lcd.fillPix_blinkCtr (l : Lcd) : (l.fillPix).blinkCtr = l.blinkCtr := rfl
@[simp] theorem Lcd.fillPix_redrawReq (l : Lcd) : (l.fillPix).redrawReq = l.redrawReq := rfl

/-! ### MemoryBus.setSA -/
@[simp] theorem MemoryBus.setSA_imem (m : MemoryBus) (v : Nat) : (m.setSA v).imem = m.imem := rfl
@[simp] theorem MemoryBus.setSA_xmem (m : MemoryBus) (v : Nat) : (m.setSA v).xmem = m.xmem := rfl
@[simp] theorem MemoryBus.setSA_sa (m : MemoryBus) (v : Nat) : (m.setSA v).sa = BitVec.ofNat 11 v := rfl
@[simp] theorem MemoryBus.setSA_dirtyI (m : MemoryBus) (v : Nat) : (m.setSA v).dirtyI = m.dirtyI := rfl
@[simp] theorem MemoryBus.setSA_dirtyX (m : MemoryBus) (v : Nat) : (m.setSA v).dirtyX = m.dirtyX := rfl

/-! ### MemoryBus.extWriteByte -/
@[simp] theorem MemoryBus.extWriteByte_imem (m : MemoryBus) (v : Byte) : (m.extWriteByte v).imem = m.imem := rfl
@[simp] theorem MemoryBus.extWriteByte_xmem (m : MemoryBus) (v : Byte) : (m.extWriteByte v).xmem = m.xmem.write m.sa.toNat v := rfl
@[simp] theorem MemoryBus.extWriteByte_sa (m : MemoryBus) (v : Byte) : (m.extWriteByte v).sa = m.sa + 1 := rfl
@[simp] theorem MemoryBus.extWriteByte_dirtyI (m : MemoryBus) (v : Byte) : (m.extWriteByte v).dirtyI = m.dirtyI := rfl
@[simp] theorem MemoryBus.extWriteByte_dirtyX (m : MemoryBus) (v : Byte) : (m.extWriteByte v).dirtyX = WordSet.insert m.dirtyX (m.sa.toNat / 2) := rfl

/-! ### Reads of registers through updates that keep them -/
@[simp] theorem RegFile.reg_advance (r : RegFile) (b : Bank) (i : Reg) : (r.advance).reg b i = r.reg b i := rfl
@[simp] theorem RegFile.x_advance (r : RegFile) (i : Reg) : (r.advance).x i = r.x i := rfl
@[simp] theorem RegFile.reg_setFlags (r : RegFile) (c z : Bool) (b : Bank) (i : Reg) : (r.setFlags c z).reg b i = r.reg b i := rfl
@[simp] theorem RegFile.x_setFlags (r : RegFile) (c z : Bool) (i : Reg) : (r.setFlags c z).x i = r.x i := rfl
@[simp] theorem RegFile.reg_setZero (r : RegFile) (z : Bool) (b : Bank) (i : Reg) : (r.setZero z).reg b i = r.reg b i := rfl
@[simp] theorem RegFile.x_setZero (r : RegFile) (z : Bool) (i : Reg) : (r.setZero z).x i = r.x i := rfl

end Sys2Proof.Machine
end

