-- ==== Sys2Proof/Laws/Window.lean ====
section
/-! SUPPORT. Ranged windows (spec/00_scope.md R12, spec/41_move_bank.md R184): length, distinct registers, and
the two windows of a two-window form. -/

namespace Sys2Proof.Machine

theorem windowLen_pos (hi lo : Off3) : 1 ≤ windowLen hi lo := by unfold windowLen; omega

theorem windowLen_le (hi lo : Off3) : windowLen hi lo ≤ 8 := by unfold windowLen; omega

@[simp] theorem window_length (p : Page) (hi lo : Off3) : (window p hi lo).length = windowLen hi lo := by
  simp [window]

@[simp] theorem windowPairs_length (pd ps : Page) (hi lo : Off3) :
    (windowPairs pd ps hi lo).length = windowLen hi lo := by
  simp [windowPairs]

@[simp] theorem windowPairs_fst (pd ps : Page) (hi lo : Off3) :
    (windowPairs pd ps hi lo).map Prod.fst = window pd hi lo := by
  simp [windowPairs, window, Function.comp_def]

@[simp] theorem windowPairs_snd (pd ps : Page) (hi lo : Off3) :
    (windowPairs pd ps hi lo).map Prod.snd = window ps hi lo := by
  simp [windowPairs, window, Function.comp_def]

/-- Two elements of windows with one `hi` are the same register only if they are the same element of the
same page. -/
theorem windowReg_inj {p q : Page} {hi : Off3} {j k : Nat} (hj : j < 8) (hk : k < 8)
    (h : windowReg p hi j = windowReg q hi k) : p = q ∧ j = k := by
  have h' : 8 * p.val + (hi.val + j) % 8 = 8 * q.val + (hi.val + k) % 8 := congrArg Fin.val h
  exact ⟨Fin.ext (by omega), by omega⟩

theorem window_nodup (p : Page) (hi lo : Off3) : (window p hi lo).Nodup := by
  refine List.Nodup.map_on ?_ List.nodup_range
  intro j hj k hk h
  have := windowLen_le hi lo
  exact (windowReg_inj (by simp at hj; omega) (by simp at hk; omega) h).2

/-- An earlier destination is no later destination and no later source, in either order of the window. -/
def PairsApart (l : List (Reg × Reg)) : Prop :=
  l.Pairwise fun p q => p.1 ≠ q.1 ∧ p.1 ≠ q.2 ∧ q.1 ≠ p.2

theorem windowPairs_apart (pd ps : Page) (hi lo : Off3) : PairsApart (windowPairs pd ps hi lo) := by
  unfold PairsApart windowPairs
  rw [List.pairwise_map]
  refine List.Pairwise.imp_of_mem ?_ List.pairwise_lt_range
  intro j k hj hk hjk
  have h8 := windowLen_le hi lo
  simp only [List.mem_range] at hj hk
  refine ⟨fun h => ?_, fun h => ?_, fun h => ?_⟩
  · have := (windowReg_inj (by omega) (by omega) h).2; omega
  · have := (windowReg_inj (by omega) (by omega) h).2; omega
  · have := (windowReg_inj (by omega) (by omega) h).2; omega

/-- The digit pairs of the two windows, as the register file holds them. -/
theorem windowPairs_digits (r : RegFile) (pd ps : Page) (hi lo : Off3) :
    (windowPairs pd ps hi lo).map (fun p => (r.x p.1, r.x p.2))
      = (r.digits (window pd hi lo)).zip (r.digits (window ps hi lo)) := by
  simp only [RegFile.digits, ← windowPairs_fst pd ps hi lo, ← windowPairs_snd pd ps hi lo, List.map_map]
  rw [List.zip_map', List.map_congr_left]
  intros; rfl

end Sys2Proof.Machine
end

