-- ==== Sys2Proof/Laws/Regs.lean ====
section
/-! SUPPORT. The register file: what one write does, and once for each loop over registers everything the loop
can do (spec/10_state.md R25; spec/40_arithmetic.md R140, R151; spec/41_move_bank.md R182, R183). -/

namespace Sys2Proof.Machine

/-! ### One write -/

theorem RegFile.reg_rawWrite (r : RegFile) (b : Bank) (i : Reg) (v : Nibble) (b' : Bank) (i' : Reg) :
    (r.rawWrite b i v).reg b' i' = if b' = b ∧ i' = i then v else r.reg b' i' := by
  simp only [RegFile.reg, RegFile.rawWrite, Fin.getElem_fin, Vector.getElem_set]
  by_cases hb : b' = b
  · subst hb
    by_cases hi : i' = i
    · subst hi; simp
    · simp [hi, Fin.val_inj, Ne.symm hi]
  · simp [hb, Fin.val_inj, Ne.symm hb]

theorem RegFile.reg_write (r : RegFile) (b : Bank) (i : Reg) (v : Nibble) (b' : Bank) (i' : Reg) :
    (r.write b i v).reg b' i' = if b' = b ∧ i' = i then v else r.reg b' i' :=
  RegFile.reg_rawWrite r b i v b' i'

theorem RegFile.reg_writeX (r : RegFile) (i : Reg) (v : Nibble) (b' : Bank) (i' : Reg) :
    (r.writeX i v).reg b' i' = if b' = r.cb ∧ i' = i then v else r.reg b' i' :=
  RegFile.reg_write r r.cb i v b' i'

theorem RegFile.x_writeX (r : RegFile) (i : Reg) (v : Nibble) (i' : Reg) :
    (r.writeX i v).x i' = if i' = i then v else r.x i' := by
  simp [RegFile.x, RegFile.reg_writeX]

theorem RegFile.reg_writeXa (r : RegFile) (i : Reg) (v : Nibble) (b' : Bank) (i' : Reg) :
    (r.writeXa i v).reg b' i' = if b' = r.ab ∧ i' = i then v else r.reg b' i' :=
  RegFile.reg_write r r.ab i v b' i'

/-! ### What every loop over registers keeps -/

/-- Everything of the register file but the general registers and bSA is the same. -/
structure RegFile.SameControl (r r' : RegFile) : Prop where
  cb : r'.cb = r.cb
  ab : r'.ab = r.ab
  pc : r'.pc = r.pc
  cf : r'.cf = r.cf
  zf : r'.zf = r.zf
  stk : r'.stk = r.stk

theorem RegFile.SameControl.refl (r : RegFile) : r.SameControl r := ⟨rfl, rfl, rfl, rfl, rfl, rfl⟩

theorem RegFile.writeX_sameControl (r : RegFile) (i : Reg) (v : Nibble) : r.SameControl (r.writeX i v) :=
  ⟨rfl, rfl, rfl, rfl, rfl, rfl⟩

theorem RegFile.SameControl.trans {r r' r'' : RegFile} (h : r.SameControl r') (h' : r'.SameControl r'') :
    r.SameControl r'' :=
  ⟨h'.cb.trans h.cb, h'.ab.trans h.ab, h'.pc.trans h.pc, h'.cf.trans h.cf, h'.zf.trans h.zf, h'.stk.trans h.stk⟩

/-! ### Writes in list order -/

theorem RegFile.writeAll_sameControl (l : List (Reg × Nibble)) (r : RegFile) :
    r.SameControl (RegFile.writeAll l r) := by
  induction l generalizing r with
  | nil => exact .refl r
  | cons p t ih => exact (r.writeX_sameControl p.1 p.2).trans (ih _)

theorem RegFile.writeAll_append (l l' : List (Reg × Nibble)) (r : RegFile) :
    RegFile.writeAll (l ++ l') r = RegFile.writeAll l' (RegFile.writeAll l r) := by
  induction l generalizing r with
  | nil => rfl
  | cons p t ih => exact ih _

/-- A register outside the current bank, or not written, keeps its value. -/
theorem RegFile.writeAll_reg_other (l : List (Reg × Nibble)) (r : RegFile) (b : Bank) (i : Reg)
    (h : b ≠ r.cb ∨ i ∉ l.map Prod.fst) : (RegFile.writeAll l r).reg b i = r.reg b i := by
  induction l generalizing r with
  | nil => rfl
  | cons p t ih =>
    rw [RegFile.writeAll, ih]
    · rw [RegFile.reg_writeX, if_neg]
      rintro ⟨hb, hi⟩
      rcases h with h | h
      · exact h hb
      · exact h (by simp [hi])
    · rcases h with h | h
      · exact .inl h
      · exact .inr fun hm => h (by simp [hm])

theorem RegFile.writeAll_x_other (l : List (Reg × Nibble)) (r : RegFile) (i : Reg) (h : i ∉ l.map Prod.fst) :
    (RegFile.writeAll l r).x i = r.x i := by
  simp only [RegFile.x, (r.writeAll_sameControl l).cb]
  exact RegFile.writeAll_reg_other l r r.cb i (.inr h)

/-- Writes to distinct registers: each register written holds the value written to it. -/
theorem RegFile.writeAll_x_mem (l : List (Reg × Nibble)) (r : RegFile) (hl : (l.map Prod.fst).Nodup) (i : Reg)
    (v : Nibble) (h : (i, v) ∈ l) : (RegFile.writeAll l r).x i = v := by
  induction l generalizing r with
  | nil => cases h
  | cons p t ih =>
    simp only [List.map_cons, List.nodup_cons] at hl
    rw [RegFile.writeAll]
    rcases List.mem_cons.mp h with h | h
    · subst h
      rw [RegFile.writeAll_x_other t _ _ hl.1, RegFile.x_writeX, if_pos rfl]
    · exact ih _ hl.2 h

/-- Writes to distinct registers: bSA captures their old values in write order (R25). -/
theorem RegFile.writeAll_bsa (l : List (Reg × Nibble)) (r : RegFile) (hl : (l.map Prod.fst).Nodup) :
    (RegFile.writeAll l r).bsa = (r.digits (l.map Prod.fst)).foldl capture r.bsa := by
  induction l generalizing r with
  | nil => rfl
  | cons p t ih =>
    simp only [List.map_cons, List.nodup_cons] at hl
    rw [RegFile.writeAll, ih _ hl.2]
    simp only [RegFile.digits, List.map_cons, List.foldl_cons, RegFile.writeX_bsa]
    congr 1
    refine List.map_congr_left fun i hi => ?_
    rw [RegFile.x_writeX, if_neg]
    rintro rfl
    exact hl.1 hi

/-- Writes to a window, in either order, leave the window holding the digits written. -/
theorem RegFile.writeAll_digits (w : List Reg) (ds : List Nibble) (l : List (Reg × Nibble)) (r : RegFile)
    (hw : w.Nodup) (hlen : ds.length = w.length) (hl : l.Perm (w.zip ds)) :
    (RegFile.writeAll l r).digits w = ds := by
  have hfst : (w.zip ds).map Prod.fst = w := by rw [List.map_fst_zip (by omega)]
  have hnd : (l.map Prod.fst).Nodup := by
    rw [(hl.map Prod.fst).nodup_iff, hfst]; exact hw
  refine List.ext_getElem (by simp [RegFile.digits, hlen]) fun k h1 h2 => ?_
  simp only [RegFile.digits, List.getElem_map]
  refine RegFile.writeAll_x_mem l r hnd _ _ (hl.mem_iff.mpr ?_)
  have hk : k < (w.zip ds).length := by simp [RegFile.digits] at h1; simp; omega
  have := List.getElem_mem hk
  rwa [List.getElem_zip] at this

/-! ### Moves in list order -/

/-- Moves whose earlier destinations are no later sources write the old source values. -/
theorem RegFile.moveAll_eq_writeAll (l : List (Reg × Reg)) (r : RegFile)
    (h : l.Pairwise fun p q => p.1 ≠ q.2) :
    RegFile.moveAll l r = RegFile.writeAll (l.map fun p => (p.1, r.x p.2)) r := by
  induction l generalizing r with
  | nil => rfl
  | cons p t ih =>
    rw [List.pairwise_cons] at h
    rw [RegFile.moveAll, ih _ h.2, List.map_cons, RegFile.writeAll]
    congr 1
    refine List.map_congr_left fun q hq => ?_
    rw [RegFile.x_writeX, if_neg (Ne.symm (h.1 q hq))]

/-! ### The digit loop -/

theorem RegFile.rippleLoop_append (f : DigitFn) (keep : Bool) (l l' : List (Reg × Reg)) (r : RegFile) (c z : Bool) :
    RegFile.rippleLoop f keep (l ++ l') r c z
      = RegFile.rippleLoop f keep l' (RegFile.rippleLoop f keep l r c z).1 (RegFile.rippleLoop f keep l r c z).2.1
          (RegFile.rippleLoop f keep l r c z).2.2 := by
  induction l generalizing r c z with
  | nil => rfl
  | cons p t ih => exact ih _ _ _

@[simp] theorem rippleDigits_length (f : DigitFn) (l : List (Nibble × Nibble)) :
    (rippleDigits f l).1.length = l.length := by
  induction l with
  | nil => rfl
  | cons p t ih => simp [rippleDigits, ih]

/-- Everything the digit loop can do with write-back: over pairs that are apart, taken from the lo end, it
writes the digits of `rippleDigits` from the lo end to the hi end, and answers its carry and whether
every digit is zero. -/
theorem RegFile.rippleLoop_keep (f : DigitFn) (l : List (Reg × Reg)) (r : RegFile) (h : PairsApart l) :
    RegFile.rippleLoop f true l.reverse r false true
      = (RegFile.writeAll ((l.map Prod.fst).zip (rippleDigits f (l.map fun p => (r.x p.1, r.x p.2))).1).reverse r,
         (rippleDigits f (l.map fun p => (r.x p.1, r.x p.2))).2,
         (rippleDigits f (l.map fun p => (r.x p.1, r.x p.2))).1.all (· == 0)) := by
  induction l with
  | nil => rfl
  | cons p t ih =>
    unfold PairsApart at h
    rw [List.pairwise_cons] at h
    have hread : ∀ i, (∀ q ∈ t, q.1 ≠ i) →
        (RegFile.writeAll ((t.map Prod.fst).zip (rippleDigits f (t.map fun p => (r.x p.1, r.x p.2))).1).reverse r).x i
          = r.x i := by
      intro i hi
      refine RegFile.writeAll_x_other _ _ _ ?_
      rw [List.map_reverse, List.mem_reverse, List.map_fst_zip (by simp)]
      simp only [List.mem_map, not_exists, not_and]
      exact hi
    rw [List.reverse_cons, RegFile.rippleLoop_append, ih h.2]
    simp only [RegFile.rippleLoop, rippleDigits, List.map_cons, List.zip_cons_cons, List.reverse_cons,
      RegFile.writeAll_append, RegFile.writeAll, List.all_cons, if_true]
    rw [hread p.1 fun q hq => (h.1 q hq).1.symm, hread p.2 fun q hq => (h.1 q hq).2.2]
    simp [Bool.and_comm]

/-- Everything the digit loop can do without write-back: the registers stay, and the carry and zero answers
are those of `rippleDigits`. -/
theorem RegFile.rippleLoop_noKeep (f : DigitFn) (l : List (Reg × Reg)) (r : RegFile) :
    RegFile.rippleLoop f false l.reverse r false true
      = (r, (rippleDigits f (l.map fun p => (r.x p.1, r.x p.2))).2,
         (rippleDigits f (l.map fun p => (r.x p.1, r.x p.2))).1.all (· == 0)) := by
  induction l with
  | nil => rfl
  | cons p t ih =>
    rw [List.reverse_cons, RegFile.rippleLoop_append, ih]
    simp [RegFile.rippleLoop, rippleDigits, Bool.and_comm]

end Sys2Proof.Machine
end

