-- ==== Sys2Proof/Laws/Digits.lean ====
section
/-! SUPPORT. The digit functions of spec/40_arithmetic.md R130 as exact arithmetic, one lemma each, and digit lists
read as numbers (R154). -/

namespace Sys2Proof.Machine

/-! ### One digit -/

/-- `AddBin`: the digit and sixteen times the carry are the sum. -/
theorem addBin_exact (a b : Nibble) (c : Bool) :
    (addBin a b c).1.toNat + 16 * (addBin a b c).2.toNat = a.toNat + b.toNat + c.toNat := by
  have ha := a.isLt; have hb := b.isLt
  have hc : c.toNat ≤ 1 := Bool.toNat_le c
  simp only [addBin, BitVec.toNat_ofNat]
  by_cases h : 16 ≤ a.toNat + b.toNat + c.toNat
  · simp [h]; omega
  · simp [h]; omega

/-- `SubBin`: the digit and the subtrahends are the minuend and sixteen times the borrow. -/
theorem subBin_exact (a b : Nibble) (c : Bool) :
    (subBin a b c).1.toNat + b.toNat + c.toNat = a.toNat + 16 * (subBin a b c).2.toNat := by
  have ha := a.isLt; have hb := b.isLt
  have hc : c.toNat ≤ 1 := Bool.toNat_le c
  simp only [subBin, BitVec.toNat_ofInt]
  by_cases h : (a.toNat : Int) - b.toNat - c.toNat < 0
  · simp [h]; omega
  · simp [h]; omega

/-- `AddDec` on decimal digits: a decimal digit, and with ten times the carry the sum. -/
theorem addDec_exact (a b : Nibble) (c : Bool) (ha : a.toNat ≤ 9) (hb : b.toNat ≤ 9) :
    (addDec a b c).1.toNat ≤ 9 ∧
      (addDec a b c).1.toNat + 10 * (addDec a b c).2.toNat = a.toNat + b.toNat + c.toNat := by
  have hc : c.toNat ≤ 1 := Bool.toNat_le c
  unfold addDec
  dsimp only
  split <;> simp only [BitVec.toNat_ofNat, Bool.toNat_true, Bool.toNat_false] <;> omega

/-- `SubDec` on decimal digits: a decimal digit, and with the subtrahends the minuend and ten times the borrow. -/
theorem subDec_exact (a b : Nibble) (c : Bool) (ha : a.toNat ≤ 9) (hb : b.toNat ≤ 9) :
    (subDec a b c).1.toNat ≤ 9 ∧
      (subDec a b c).1.toNat + b.toNat + c.toNat = a.toNat + 10 * (subDec a b c).2.toNat := by
  have hc : c.toNat ≤ 1 := Bool.toNat_le c
  unfold subDec
  dsimp only
  split <;> simp only [BitVec.toNat_ofInt, Bool.toNat_true, Bool.toNat_false] <;> omega

/-! ### Digit lists as numbers -/

theorem digitsValue_foldl (base acc : Nat) (ds : List Nibble) :
    ds.foldl (fun a d => a * base + d.toNat) acc = acc * base ^ ds.length + digitsValue base ds := by
  induction ds generalizing acc with
  | nil => simp [digitsValue]
  | cons d t ih =>
    have hd : digitsValue base (d :: t) = (0 * base + d.toNat) * base ^ t.length + digitsValue base t := ih _
    rw [List.foldl_cons, ih, hd, List.length_cons, pow_succ]
    ring

@[simp] theorem digitsValue_nil (base : Nat) : digitsValue base [] = 0 := rfl

theorem digitsValue_cons (base : Nat) (d : Nibble) (ds : List Nibble) :
    digitsValue base (d :: ds) = d.toNat * base ^ ds.length + digitsValue base ds := by
  rw [digitsValue, List.foldl_cons, digitsValue_foldl]
  simp

/-- Digits below a base make a number below the power of the base. -/
theorem digitsValue_lt (base : Nat) (ds : List Nibble) (h : ∀ d ∈ ds, d.toNat < base) :
    digitsValue base ds < base ^ ds.length := by
  induction ds with
  | nil => simp
  | cons d t ih =>
    have hd := h d (by simp)
    have ht := ih fun e he => h e (by simp [he])
    rw [digitsValue_cons, List.length_cons, pow_succ]
    nlinarith [Nat.mul_le_mul_right (base ^ t.length) (Nat.succ_le_of_lt hd)]

theorem digitsValue_lt_sixteen (ds : List Nibble) : digitsValue 16 ds < 16 ^ ds.length :=
  digitsValue_lt 16 ds fun d _ => d.isLt

/-- A number is zero exactly if all its digits are. -/
theorem digitsValue_eq_zero (base : Nat) (hb : 0 < base) (ds : List Nibble) :
    digitsValue base ds = 0 ↔ ds.all (· == 0) = true := by
  induction ds with
  | nil => simp
  | cons d t ih =>
    have hp : base ^ t.length ≠ 0 := (Nat.pow_pos hb).ne'
    rw [digitsValue_cons, Nat.add_eq_zero_iff, ih, mul_eq_zero, List.all_cons, Bool.and_eq_true, beq_iff_eq]
    simp only [hp, or_false]
    rw [← BitVec.toNat_inj]
    rfl

/-- Ripple binary addition adds the numbers (R154). -/
theorem rippleDigits_addBin (l : List (Nibble × Nibble)) :
    digitsValue 16 (rippleDigits addBin l).1 + 16 ^ l.length * (rippleDigits addBin l).2.toNat
      = digitsValue 16 (l.map Prod.fst) + digitsValue 16 (l.map Prod.snd) := by
  induction l with
  | nil => rfl
  | cons p t ih =>
    have h := addBin_exact p.1 p.2 (rippleDigits addBin t).2
    simp only [rippleDigits, List.map_cons, digitsValue_cons, rippleDigits_length, List.length_map,
      List.length_cons, pow_succ]
    generalize 16 ^ t.length = P at *
    nlinarith [congrArg (· * P) h]

/-- Ripple binary subtraction subtracts the numbers (R154). -/
theorem rippleDigits_subBin (l : List (Nibble × Nibble)) :
    digitsValue 16 (rippleDigits subBin l).1 + digitsValue 16 (l.map Prod.snd)
      = digitsValue 16 (l.map Prod.fst) + 16 ^ l.length * (rippleDigits subBin l).2.toNat := by
  induction l with
  | nil => rfl
  | cons p t ih =>
    have h := subBin_exact p.1 p.2 (rippleDigits subBin t).2
    simp only [rippleDigits, List.map_cons, digitsValue_cons, rippleDigits_length, List.length_map,
      List.length_cons, pow_succ]
    generalize 16 ^ t.length = P at *
    nlinarith [congrArg (· * P) h]

/-- Ripple decimal addition of decimal digits gives decimal digits and adds the numbers. -/
theorem rippleDigits_addDec (l : List (Nibble × Nibble)) (h : ∀ p ∈ l, p.1.toNat ≤ 9 ∧ p.2.toNat ≤ 9) :
    Decimal (rippleDigits addDec l).1 ∧
    digitsValue 10 (rippleDigits addDec l).1 + 10 ^ l.length * (rippleDigits addDec l).2.toNat
      = digitsValue 10 (l.map Prod.fst) + digitsValue 10 (l.map Prod.snd) := by
  induction l with
  | nil => exact ⟨fun d hd => by simp [rippleDigits] at hd, rfl⟩
  | cons p t ih =>
    have ih := ih fun q hq => h q (by simp [hq])
    have hp := h p (by simp)
    have hx := addDec_exact p.1 p.2 (rippleDigits addDec t).2 hp.1 hp.2
    refine ⟨fun d hd => ?_, ?_⟩
    · simp only [rippleDigits, List.mem_cons] at hd
      rcases hd with rfl | hd
      · exact hx.1
      · exact ih.1 d hd
    · have h2 := ih.2
      have h1 := hx.2
      simp only [rippleDigits, List.map_cons, digitsValue_cons, rippleDigits_length, List.length_map,
        List.length_cons, pow_succ]
      generalize 10 ^ t.length = P at *
      nlinarith [congrArg (· * P) h1]

/-- Ripple decimal subtraction of decimal digits gives decimal digits and subtracts the numbers. -/
theorem rippleDigits_subDec (l : List (Nibble × Nibble)) (h : ∀ p ∈ l, p.1.toNat ≤ 9 ∧ p.2.toNat ≤ 9) :
    Decimal (rippleDigits subDec l).1 ∧
    digitsValue 10 (rippleDigits subDec l).1 + digitsValue 10 (l.map Prod.snd)
      = digitsValue 10 (l.map Prod.fst) + 10 ^ l.length * (rippleDigits subDec l).2.toNat := by
  induction l with
  | nil => exact ⟨fun d hd => by simp [rippleDigits] at hd, rfl⟩
  | cons p t ih =>
    have ih := ih fun q hq => h q (by simp [hq])
    have hp := h p (by simp)
    have hx := subDec_exact p.1 p.2 (rippleDigits subDec t).2 hp.1 hp.2
    refine ⟨fun d hd => ?_, ?_⟩
    · simp only [rippleDigits, List.mem_cons] at hd
      rcases hd with rfl | hd
      · exact hx.1
      · exact ih.1 d hd
    · have h2 := ih.2
      have h1 := hx.2
      simp only [rippleDigits, List.map_cons, digitsValue_cons, rippleDigits_length, List.length_map,
        List.length_cons, pow_succ]
      generalize 10 ^ t.length = P at *
      nlinarith [congrArg (· * P) h1]

end Sys2Proof.Machine
end

