-- ==== Sys2Proof/Laws/Events.lean ====
section
/-! SUPPORT. The special registers and the event sources: reads after writes, and once for each shared operation
what it can do (spec/42_io_display_write.md R206..R219; spec/60_exceptions.md R354..R367). -/

namespace Sys2Proof.Machine

/-! ### Bits of a nibble -/

theorem testBit_setBit (v : Nibble) (m n : BitIdx) : (setBit v n).getLsbD m.val = (v.getLsbD m.val || decide (m = n)) := by
  revert v m n; decide

theorem testBit_clearBit (v : Nibble) (m n : BitIdx) :
    (clearBit v n).getLsbD m.val = (v.getLsbD m.val && !decide (m = n)) := by
  revert v m n; decide

theorem testBit_putBit (v : Nibble) (m n : BitIdx) (b : Bool) :
    (putBit v n b).getLsbD m.val = if m = n then b else v.getLsbD m.val := by
  revert v m n b; decide

/-- The counter at a shift goes up by 1 mod 4 (R355, R359). -/
theorem bumpCounter_count (v : Nibble) (k : Fin 3) :
    (bumpCounter v k >>> k.val &&& 3).toNat = ((v >>> k.val &&& 3).toNat + 1) % 4 := by
  revert v k; decide

/-- The bits beside the counter stay (R355, R359). -/
theorem bumpCounter_rest (v : Nibble) (k : Fin 3) :
    bumpCounter v k &&& ~~~(3#4 <<< k.val) = v &&& ~~~(3#4 <<< k.val) := by
  revert v k; decide

/-! ### Raw reads and writes -/

theorem Devices.getSr_setSr (d : Devices) (i : SRIdx) (v : Nibble) (j : SRIdx) :
    (d.setSr i v).getSr j = if j = i then v else d.getSr j := by
  simp only [Devices.getSr, Devices.setSr, Fin.getElem_fin, Vector.getElem_set, Fin.val_inj]
  split <;> split <;> simp_all

theorem Devices.getSr_modSr (d : Devices) (i : SRIdx) (f : Nibble → Nibble) (j : SRIdx) :
    (d.modSr i f).getSr j = if j = i then f (d.getSr i) else d.getSr j :=
  d.getSr_setSr i (f (d.getSr i)) j

@[simp] theorem Devices.getSr_setSr_self (d : Devices) (i : SRIdx) (v : Nibble) : (d.setSr i v).getSr i = v := by
  simp [Devices.getSr_setSr]

@[simp] theorem Devices.getSr_modSr_self (d : Devices) (i : SRIdx) (f : Nibble → Nibble) :
    (d.modSr i f).getSr i = f (d.getSr i) := by
  simp [Devices.getSr_modSr]

/-- What a read with side effect leaves: SR3 and SR4 cleared, bit 0 of SR15 cleared (R206, R207). -/
theorem Devices.getSr_afterRead (d : Devices) (k j : SRIdx) :
    (d.afterRead k).getSr j =
      if j = k ∧ (k = 3 ∨ k = 4) then 0 else if j = k ∧ k = 15 then d.getSr 15 &&& 0b1110 else d.getSr j := by
  unfold Devices.afterRead
  by_cases h : k = 3 ∨ k = 4
  · simp only [h, if_true, and_true, Devices.getSr_setSr]
    by_cases hj : j = k
    · simp [hj]
    · simp [hj]
  · by_cases h15 : k = 15
    · subst h15
      simp only [h, if_false, and_false, if_true, and_true, Devices.getSr_modSr]
    · simp [h, h15]

/-- The device state beside the special registers. -/
structure Devices.SameHidden (d d' : Devices) : Prop where
  ispMode : d'.ispMode = d.ispMode
  ispTxen : d'.ispTxen = d.ispTxen
  ispRxen : d'.ispRxen = d.ispRxen
  ispTxpend : d'.ispTxpend = d.ispTxpend
  ispDiv : d'.ispDiv = d.ispDiv
  t0 : d'.t0 = d.t0
  t1 : d'.t1 = d.t1
  sw : d'.sw = d.sw

theorem Devices.SameHidden.refl (d : Devices) : d.SameHidden d := ⟨rfl, rfl, rfl, rfl, rfl, rfl, rfl, rfl⟩

theorem Devices.setSr_sameHidden (d : Devices) (i : SRIdx) (v : Nibble) : d.SameHidden (d.setSr i v) :=
  ⟨rfl, rfl, rfl, rfl, rfl, rfl, rfl, rfl⟩

theorem Devices.modSr_sameHidden (d : Devices) (i : SRIdx) (f : Nibble → Nibble) : d.SameHidden (d.modSr i f) :=
  d.setSr_sameHidden i _

theorem Devices.SameHidden.trans {d d' d'' : Devices} (h : d.SameHidden d') (h' : d'.SameHidden d'') :
    d.SameHidden d'' :=
  ⟨h'.1.trans h.1, h'.2.trans h.2, h'.3.trans h.3, h'.4.trans h.4, h'.5.trans h.5, h'.6.trans h.6, h'.7.trans h.7,
    h'.8.trans h.8⟩

theorem Devices.afterRead_sameHidden (d : Devices) (k : SRIdx) : d.SameHidden (d.afterRead k) := by
  unfold Devices.afterRead
  split
  · exact d.setSr_sameHidden _ _
  · split
    · exact d.modSr_sameHidden _ _
    · exact .refl d

/-! ### The write dispatch -/

theorem Devices.srWrite_1 (c : Cfg) (v : Nibble) (d : Devices) :
    d.srWrite c 1 v = (d.setSr 1 v).modSr 0 (· &&& ~~~c.ackSr1) := rfl
theorem Devices.srWrite_3 (c : Cfg) (v : Nibble) (d : Devices) :
    d.srWrite c 3 v = { d with ispMode := testBit v c.ispModeBit, ispTxen := testBit v c.ispTxenBit } := rfl
theorem Devices.srWrite_4 (c : Cfg) (v : Nibble) (d : Devices) :
    d.srWrite c 4 v =
      { d with ispRxen := testBit v c.ispRxenBit, ispTxpend := d.ispTxpend || testBit v c.ispTxreqBit } := rfl
theorem Devices.srWrite_7 (c : Cfg) (v : Nibble) (d : Devices) :
    d.srWrite c 7 v = (d.setSr 7 v).modSr 0 (· &&& ~~~c.ackSr7) := rfl
theorem Devices.srWrite_9 (c : Cfg) (v : Nibble) (d : Devices) : d.srWrite c 9 v = d.sr9Write c v := rfl
theorem Devices.srWrite_10 (c : Cfg) (v : Nibble) (d : Devices) : d.srWrite c 10 v = d.sr10Write c v := rfl
theorem Devices.srWrite_12 (c : Cfg) (v : Nibble) (d : Devices) : d.srWrite c 12 v = d.sr12Write c v := rfl
theorem Devices.srWrite_14 (c : Cfg) (v : Nibble) (d : Devices) : d.srWrite c 14 v = d.setSr 14 0 := rfl

/-- The plain store arms (R209, R211, R219). -/
theorem Devices.srWrite_store (c : Cfg) (i : SRIdx) (v : Nibble) (d : Devices) (h : i ∈ [0, 2, 5, 6, 8, 11, 13, 15]) :
    d.srWrite c i v = d.setSr i v := by
  simp only [List.mem_cons, List.not_mem_nil, or_false] at h
  rcases h with rfl | rfl | rfl | rfl | rfl | rfl | rfl | rfl <;> rfl

/-- Every arm of the dispatch keeps the Timer1 count in range: the one that touches it sets it to 0 (R215). -/
theorem Devices.srWrite_t1 (c : Cfg) (i : SRIdx) (v : Nibble) (d : Devices) :
    (d.srWrite c i v).t1 = d.t1 ∨ (d.srWrite c i v).t1 = 0 := by
  unfold Devices.srWrite Devices.sr10Write Devices.sr9Write Devices.sr12Write
  split <;> (try (dsimp only; split)) <;> (try split) <;> first | exact .inl rfl | exact .inr rfl

/-- No arm of the dispatch touches the transmit divider. -/
theorem Devices.srWrite_ispDiv (c : Cfg) (i : SRIdx) (v : Nibble) (d : Devices) :
    (d.srWrite c i v).ispDiv = d.ispDiv := by
  unfold Devices.srWrite Devices.sr10Write Devices.sr9Write Devices.sr12Write
  split <;> (try (dsimp only; split)) <;> (try split) <;> rfl

/-! ### Several events on the record -/

/-- Several events go on the record in their order, all with the number of the tick now running (R416). -/
theorem State.emitAll_eq (l : List PortEvent) (s : State) :
    State.emitAll l s
      = { s with eng := { s.eng with trace := s.eng.trace ++ l.map fun e => (s.eng.cycles + 1, e) } } := by
  induction l generalizing s with
  | nil => simp [State.emitAll]
  | cons e t ih => rw [State.emitAll, ih]; simp [State.emit]

/-- What an SR write does to the whole state: the dispatch on the devices, and the audio commands of an SR15
write on the record (R208, R219). -/
theorem State.srWrite_eq (c : Cfg) (i : SRIdx) (v : Nibble) (s : State) :
    s.srWrite c i v =
      { s with
        dev := s.dev.srWrite c i v
        eng := { s.eng with
          trace := s.eng.trace ++
            if i = 15 then (audioCommands v).map fun a => (s.eng.cycles + 1, PortEvent.audio a) else [] } } := by
  unfold State.srWrite
  split
  · rw [State.emitAll_eq]; simp [State.mapDev]
  · simp [State.mapDev]

/-! ### Timer0 -/

@[simp] theorem Devices.raiseTimer0_t0 (c : Cfg) (src : Timer0Source) (d : Devices) : (d.raiseTimer0 c src).t0 = d.t0 := by
  unfold Devices.raiseTimer0; split <;> rfl

/-- Raising a source touches SR12 only (R354, R357). -/
theorem Devices.getSr_raiseTimer0 (c : Cfg) (src : Timer0Source) (d : Devices) (j : SRIdx) :
    (d.raiseTimer0 c src).getSr j =
      if j = 12 ∧ c.sr13Enables src (d.getSr 13) = true then setBit (d.getSr 12) (c.sr12Bit src) else d.getSr j := by
  unfold Devices.raiseTimer0
  split
  · rename_i h; simp [h, Devices.getSr_modSr]
  · rename_i h; simp [h]

@[simp] theorem Devices.timer0Source_t0 (c : Cfg) (src : Timer0Source) (d : Devices) :
    (d.timer0Source c src).t0 = d.t0 := by
  unfold Devices.timer0Source; split <;> simp

theorem Devices.getSr_timer0Source (c : Cfg) (src : Timer0Source) (d : Devices) (j : SRIdx) :
    (d.timer0Source c src).getSr j =
      if j = 12 ∧ d.t0.toNat % timer0Period src = 0 ∧ c.sr13Enables src (d.getSr 13) = true
      then setBit (d.getSr 12) (c.sr12Bit src) else d.getSr j := by
  unfold Devices.timer0Source
  split
  · rename_i h; simp [h, Devices.getSr_raiseTimer0]
  · rename_i h; simp [h]

/-- When an SR12 bit is set after one source of the loop (R354, R357). -/
theorem Devices.testBit_timer0Source (c : Cfg) (src : Timer0Source) (d : Devices) (n : BitIdx) :
    ((d.timer0Source c src).getSr 12).getLsbD n = true ↔
      (d.getSr 12).getLsbD n = true ∨
        c.sr12Bit src = n ∧ c.sr13Enables src (d.getSr 13) = true ∧ d.t0.toNat % timer0Period src = 0 := by
  rw [Devices.getSr_timer0Source]
  split
  · rename_i h
    rw [testBit_setBit, Bool.or_eq_true, decide_eq_true_eq]
    exact or_congr_right ⟨fun e => ⟨e.symm, h.2.2, h.2.1⟩, fun e => e.1.symm⟩
  · rename_i h
    exact ⟨.inl, fun e => e.resolve_right fun e' => h ⟨rfl, e'.2.2, e'.2.1⟩⟩

/-- What the seconds step leaves in every special register (R355). -/
theorem Devices.getSr_secStep (c : Cfg) (d : Devices) (j : SRIdx) :
    (d.secStep c).getSr j =
      if j = 14 then d.getSr 14 + 1
      else if d.getSr 14 + 1 = 0 ∧ j = 4 then bumpCounter (d.getSr 4) c.sr4CntShift
      else if d.getSr 14 + 1 = 0 ∧ j = 12 ∧ c.sr13Enables .sec (d.getSr 13) = true then
        setBit (d.getSr 12) (c.sr12Bit .sec)
      else d.getSr j := by
  unfold Devices.secStep
  simp only [Devices.getSr_modSr_self]
  by_cases h : d.getSr 14 + 1 = 0
  · simp only [h, if_true, Devices.getSr_raiseTimer0, Devices.getSr_modSr, true_and]
    by_cases h12 : j = 12
    · subst h12; simp
    · by_cases h14 : j = 14
      · subst h14; simp
      · simp [h12, h14]
  · simp only [h, if_false, Devices.getSr_modSr, false_and]

@[simp] theorem Devices.secStep_t0 (c : Cfg) (d : Devices) : (d.secStep c).t0 = d.t0 := by
  unfold Devices.secStep; dsimp only; split
  · rw [Devices.raiseTimer0_t0]; rfl
  · rfl

/-- When an SR12 bit is set after the seconds step: SEC is raised at the SR14 rollover (R355, R357). -/
theorem Devices.testBit_secStep (c : Cfg) (d : Devices) (n : BitIdx) :
    ((d.secStep c).getSr 12).getLsbD n = true ↔
      (d.getSr 12).getLsbD n = true ∨
        c.sr12Bit .sec = n ∧ c.sr13Enables .sec (d.getSr 13) = true ∧ d.getSr 14 = 15 := by
  have hb : d.getSr 14 + 1 = 0 ↔ d.getSr 14 = 15 := by
    generalize d.getSr 14 = x; revert x; decide
  rw [Devices.getSr_secStep]
  simp only [show (12 : SRIdx) ≠ 14 by decide, show (12 : SRIdx) ≠ 4 by decide, if_false, and_false, hb, true_and]
  split
  · rename_i h
    rw [testBit_setBit, Bool.or_eq_true, decide_eq_true_eq]
    exact or_congr_right ⟨fun e => ⟨e.symm, h.2, h.1⟩, fun e => e.1.symm⟩
  · rename_i h
    exact ⟨.inl, fun e => e.resolve_right fun e' => h ⟨e'.2.2, e'.2.1⟩⟩

/-- What the last part of a Timer0 step leaves in every special register (R356). -/
theorem Devices.getSr_timerEvent (c : Cfg) (d : Devices) (j : SRIdx) :
    (d.timerEvent c).getSr j =
      if j = 0 ∧ d.getSr 12 ≠ 0 then setBit (d.getSr 0) c.sr0TimerBit else d.getSr j := by
  unfold Devices.timerEvent
  by_cases h : d.getSr 12 = 0
  · rw [if_pos h, if_neg fun hj => hj.2 h]
  · simp only [h, if_false, ne_eq, not_false_eq_true, and_true, Devices.getSr_modSr]

@[simp] theorem Devices.timerEvent_t0 (c : Cfg) (d : Devices) : (d.timerEvent c).t0 = d.t0 := by
  unfold Devices.timerEvent; split <;> rfl

/-- What a Timer0 step leaves in every special register but SR0 and SR12: SR14 and SR4 move at the seconds
step, nothing else does (R354, R355). -/
theorem Devices.getSr_timer0Step (c : Cfg) (d : Devices) (j : SRIdx) (h0 : j ≠ 0) (h12 : j ≠ 12) :
    (d.timer0Step c).getSr j =
      if (d.t0.toNat + 1) % 256 = 0 ∧ j = 14 then d.getSr 14 + 1
      else if (d.t0.toNat + 1) % 256 = 0 ∧ d.getSr 14 + 1 = 0 ∧ j = 4 then bumpCounter (d.getSr 4) c.sr4CntShift
      else d.getSr j := by
  have ht : (d.t0 + 1).toNat % 256 = (d.t0.toNat + 1) % 256 := by simp only [BitVec.toNat_add]; simp
  have hs : ∀ (e : Devices) k, k ≠ 12 →
      (Devices.timer0Source c .t1024 (Devices.timer0Source c .t256 (Devices.timer0Source c .t128 e))).getSr k
        = e.getSr k := by
    intro e k hk
    simp only [Devices.getSr_timer0Source, hk, false_and, if_false]
  unfold Devices.timer0Step
  simp only [Devices.getSr_timerEvent, h0, false_and, if_false, Devices.timer0Source_t0, ht]
  have hd : ∀ k, Devices.getSr { d with t0 := d.t0 + 1 } k = d.getSr k := fun _ => rfl
  by_cases h : (d.t0.toNat + 1) % 256 = 0
  · simp only [h, if_true, true_and, Devices.getSr_secStep, hs _ 14 (by decide), hs _ 4 (by decide), hs _ j h12, h12,
      false_and, and_false, if_false, hd]
  · simp only [h, if_false, false_and, hs _ j h12, hd]

/-- Only the fields t0 and sr are touched by Timer0 (R354). -/
theorem Devices.timer0Step_hidden (c : Cfg) (d : Devices) :
    { d with t0 := d.t0 + 1 }.SameHidden (d.timer0Step c) := by
  have hr : ∀ src (e : Devices), e.SameHidden (e.raiseTimer0 c src) := by
    intro src e; unfold Devices.raiseTimer0; split
    · exact e.modSr_sameHidden _ _
    · exact .refl e
  have hs : ∀ src (e : Devices), e.SameHidden (e.timer0Source c src) := by
    intro src e; unfold Devices.timer0Source; split
    · exact hr _ _
    · exact .refl e
  have hsec : ∀ e : Devices, e.SameHidden (e.secStep c) := by
    intro e; unfold Devices.secStep; dsimp only; split
    · exact (e.modSr_sameHidden _ _).trans ((Devices.modSr_sameHidden _ _ _).trans (hr _ _))
    · exact e.modSr_sameHidden _ _
  have hev : ∀ e : Devices, e.SameHidden (e.timerEvent c) := by
    intro e; unfold Devices.timerEvent; split
    · exact .refl e
    · exact e.modSr_sameHidden _ _
  unfold Devices.timer0Step
  dsimp only
  have h3 := ((hs .t128 { d with t0 := d.t0 + 1 }).trans (hs .t256 _)).trans (hs .t1024 _)
  refine h3.trans ?_
  split
  · exact (hsec _).trans (hev _)
  · exact hev _

/-! ### Timer1 -/

/-- What a digit step leaves in every special register (R359). -/
theorem Devices.getSr_digitStep (c : Cfg) (d : Devices) (j : SRIdx) :
    (d.digitStep c).getSr j =
      if 9 ≤ (d.getSr 10).toNat then
        if j = 3 then bumpCounter (d.getSr 3) c.sr3CntShift
        else if j = 0 then setBit (d.getSr 0) c.sr0SwBit
        else if j = 9 then setBit (d.getSr 9) (c.swPendBit.castLE (by omega))
        else if j = 10 then 0
        else d.getSr j
      else if j = 10 then d.getSr 10 + 1 else d.getSr j := by
  unfold Devices.digitStep
  split
  · simp only [Devices.getSr_modSr, Devices.getSr_setSr, show (3 : SRIdx) ≠ 0 by decide, show (3 : SRIdx) ≠ 9 by decide,
      show (3 : SRIdx) ≠ 10 by decide, show (0 : SRIdx) ≠ 9 by decide, show (0 : SRIdx) ≠ 10 by decide,
      show (9 : SRIdx) ≠ 10 by decide, if_false]
  · simp only [Devices.getSr_modSr]

@[simp] theorem Devices.digitStep_t1 (c : Cfg) (d : Devices) : (d.digitStep c).t1 = d.t1 := by
  unfold Devices.digitStep; split <;> rfl

/-- Timer1 touches the special registers and its count only (R358, R359). -/
theorem Devices.timer1Step_only (c : Cfg) (d : Devices) :
    d.timer1Step c = { d with sr := (d.timer1Step c).sr, t1 := (d.timer1Step c).t1 } := by
  unfold Devices.timer1Step Devices.digitStep
  split
  · split
    · split <;> rfl
    · rfl
  · rfl

/-- Timer1 keeps its count in range (R359). -/
theorem Devices.timer1Step_t1 (c : Cfg) (d : Devices) (h : d.t1 ≤ 37) : (d.timer1Step c).t1 ≤ 37 := by
  unfold Devices.timer1Step Devices.digitStep
  split
  · split
    · split <;> exact Nat.zero_le _
    · rename_i hne; show d.t1 + 1 ≤ 37; omega
  · exact h

/-- Timer1 touches t1 and special registers only. -/
theorem Devices.timer1Step_ispDiv (c : Cfg) (d : Devices) : (d.timer1Step c).ispDiv = d.ispDiv := by
  unfold Devices.timer1Step Devices.digitStep
  split
  · split
    · split <;> rfl
    · rfl
  · rfl

/-! ### The ISP unit -/

theorem Devices.getSr_setShift (d : Devices) (b : Byte) (j : SRIdx) :
    (d.setShift b).getSr j = if j = 6 then b.extractLsb' 0 4 else if j = 5 then b.extractLsb' 4 4 else d.getSr j := by
  simp [Devices.setShift, Devices.getSr_setSr]

/-- A byte put into the shift buffer reads back (R35). -/
theorem Devices.shiftByte_setShift (d : Devices) (b : Byte) : (d.setShift b).shiftByte = b := by
  simp only [Devices.shiftByte, Devices.getSr_setShift]
  simp only [show (5 : SRIdx) ≠ 6 by decide, if_false, if_true]
  exact BitVec.eq_of_getLsbD_eq (by
    intro i hi
    simp only [BitVec.getLsbD_append, BitVec.getLsbD_extractLsb']
    by_cases h : i < 4
    · simp [h]
    · simp [h, show i - 4 < 4 by omega, show 4 + (i - 4) = i by omega])

/-- An ISP event sets its status bit and the SR0 ISP bit (R364, R366, R367). -/
theorem Devices.ispEvent_bits (c : Cfg) (n : BitIdx) (d : Devices) :
    ((d.ispEvent c n).getSr c.ispStatusSr).getLsbD n.val = true ∧
      ((d.ispEvent c n).getSr 0).getLsbD c.sr0IspBit.val = true := by
  simp only [Devices.ispEvent, Devices.getSr_modSr]
  by_cases h : c.ispStatusSr = 0
  · simp [h, testBit_setBit]
  · simp [h, testBit_setBit]

/-- What an ISP event leaves in every special register: its bits are ORed in (R364, R366, R367). -/
theorem Devices.getSr_ispEvent (c : Cfg) (n : BitIdx) (d : Devices) (j : SRIdx) :
    (d.ispEvent c n).getSr j =
      if j = 0 then setBit (if j = c.ispStatusSr then setBit (d.getSr j) n else d.getSr j) c.sr0IspBit
      else if j = c.ispStatusSr then setBit (d.getSr j) n else d.getSr j := by
  simp only [Devices.ispEvent, Devices.getSr_modSr]
  by_cases h0 : j = 0
  · subst h0
    by_cases h : (0 : SRIdx) = c.ispStatusSr
    · simp [← h]
    · simp [h]
  · by_cases h : j = c.ispStatusSr
    · have h0' : c.ispStatusSr ≠ 0 := fun e => h0 (h.trans e)
      simp [h0', h]
    · simp [h0, h]

/-- An ISP event touches no special register but its status register and SR0 (R364, R366, R367). -/
theorem Devices.getSr_ispEvent_other (c : Cfg) (n : BitIdx) (d : Devices) (j : SRIdx) (h0 : j ≠ 0)
    (h : j ≠ c.ispStatusSr) : (d.ispEvent c n).getSr j = d.getSr j := by
  simp [Devices.ispEvent, Devices.getSr_modSr, h0, h]

/-- SR5 and SR6 after a byte is put into the shift buffer, written as the two reads (R35). -/
theorem Devices.setShift_append (d : Devices) (b : Byte) : (d.setShift b).getSr 5 ++ (d.setShift b).getSr 6 = b :=
  d.shiftByte_setShift b

theorem Devices.ispEvent_sameHidden (c : Cfg) (n : BitIdx) (d : Devices) : d.SameHidden (d.ispEvent c n) :=
  (d.modSr_sameHidden _ _).trans (Devices.modSr_sameHidden _ _ _)

/-- What the transmit of a byte does: the byte goes on the record, and into the shift buffer while receive is
enabled (R364, R365). -/
theorem State.transmit_eq (b : Byte) (s : State) :
    s.transmit b =
      { s with
        dev := if s.dev.ispRxen then s.dev.setShift b else s.dev
        eng := { s.eng with trace := s.eng.trace ++ [(s.eng.cycles + 1, .tx b)] } } := rfl

/-- What an ISP step leaves alone (R363, R364, R365): registers, display, both memories, both dirty sets, the
engine but its record, and the timers; the divider goes on mod 24. -/
structure State.IspKept (s t : State) : Prop where
  regs : t.regs = s.regs
  lcd : t.lcd = s.lcd
  imem : t.bus.imem = s.bus.imem
  xmem : t.bus.xmem = s.bus.xmem
  dirtyI : t.bus.dirtyI = s.bus.dirtyI
  dirtyX : t.bus.dirtyX = s.bus.dirtyX
  busy : t.eng.busy = s.eng.busy
  cycles : t.eng.cycles = s.eng.cycles
  mark : t.eng.mark = s.eng.mark
  t0 : t.dev.t0 = s.dev.t0
  t1 : t.dev.t1 = s.dev.t1
  sw : t.dev.sw = s.dev.sw
  ispDiv : t.dev.ispDiv = (s.dev.ispDiv + 1) % 24

theorem State.ispStep_kept (c : Cfg) (s : State) : s.IspKept (s.ispStep c) := by
  unfold State.ispStep
  dsimp only
  split
  · split
    · unfold State.dmaTransmit
      dsimp only
      rw [State.transmit_eq]
      split <;> constructor <;> first | rfl | (dsimp only; split <;> rfl)
    · unfold State.regTransmit
      dsimp only
      rw [State.transmit_eq]
      constructor <;> first | rfl | (dsimp only; split <;> rfl)
  · constructor <;> rfl

/-- All that an ISP step can change, as one equation: the special registers, the armed transmit, the divider, SA and
the record (R363 to R365). -/
theorem State.ispStep_frame (c : Cfg) (s : State) :
    s.ispStep c =
      { s with
        dev := { s.dev with
          sr := (s.ispStep c).dev.sr
          ispTxpend := (s.ispStep c).dev.ispTxpend
          ispDiv := (s.dev.ispDiv + 1) % 24 }
        bus := { s.bus with sa := (s.ispStep c).bus.sa }
        eng := { s.eng with trace := (s.ispStep c).eng.trace } } := by
  unfold State.ispStep
  dsimp only
  split
  · split
    · unfold State.dmaTransmit
      dsimp only
      rw [State.transmit_eq]
      dsimp only
      split <;> split <;> rfl
    · unfold State.regTransmit
      dsimp only
      rw [State.transmit_eq]
      dsimp only
      split <;> rfl
  · rfl

end Sys2Proof.Machine
end

