-- ==== Sys2Proof/Laws/Lcd.lean ====
section
/-! SUPPORT. The display controller: what painting touches, what a display write can do, and what the display step
can do (spec/45_display_controller.md R302..R331; spec/20_memory.md R85). -/

namespace Sys2Proof.Machine

/-! ### Painting -/

/-- Everything of the display controller but the pixels and the cursor is the same. -/
structure Lcd.SameCells (l m : Lcd) : Prop where
  ddram : m.ddram = l.ddram
  daram : m.daram = l.daram
  dctrl : m.dctrl = l.dctrl
  la : m.la = l.la
  contrast : m.contrast = l.contrast
  blinkOn : m.blinkOn = l.blinkOn
  blinkCtr : m.blinkCtr = l.blinkCtr

theorem Lcd.SameCells.refl (l : Lcd) : l.SameCells l := ⟨rfl, rfl, rfl, rfl, rfl, rfl, rfl⟩

theorem Lcd.SameCells.trans {l m n : Lcd} (h : l.SameCells m) (h' : m.SameCells n) : l.SameCells n :=
  ⟨h'.1.trans h.1, h'.2.trans h.2, h'.3.trans h.3, h'.4.trans h.4, h'.5.trans h.5, h'.6.trans h.6, h'.7.trans h.7⟩

/-- Pixel writes change the pixel buffer and nothing else. -/
theorem Lcd.paint_eq (ps : List PixelWrite) (l : Lcd) : Lcd.paint ps l = { l with pix := (Lcd.paint ps l).pix } := by
  induction ps generalizing l with
  | nil => rfl
  | cons p t ih => exact (ih _).trans rfl

@[simp] theorem Lcd.paint_ddram (ps : List PixelWrite) (l : Lcd) : (Lcd.paint ps l).ddram = l.ddram := by rw [Lcd.paint_eq]
@[simp] theorem Lcd.paint_daram (ps : List PixelWrite) (l : Lcd) : (Lcd.paint ps l).daram = l.daram := by rw [Lcd.paint_eq]
@[simp] theorem Lcd.paint_dctrl (ps : List PixelWrite) (l : Lcd) : (Lcd.paint ps l).dctrl = l.dctrl := by rw [Lcd.paint_eq]
@[simp] theorem Lcd.paint_la (ps : List PixelWrite) (l : Lcd) : (Lcd.paint ps l).la = l.la := by rw [Lcd.paint_eq]
@[simp] theorem Lcd.paint_cursor (ps : List PixelWrite) (l : Lcd) : (Lcd.paint ps l).cursor = l.cursor := by rw [Lcd.paint_eq]
@[simp] theorem Lcd.paint_contrast (ps : List PixelWrite) (l : Lcd) : (Lcd.paint ps l).contrast = l.contrast := by
  rw [Lcd.paint_eq]
@[simp] theorem Lcd.paint_blinkOn (ps : List PixelWrite) (l : Lcd) : (Lcd.paint ps l).blinkOn = l.blinkOn := by rw [Lcd.paint_eq]
@[simp] theorem Lcd.paint_blinkCtr (ps : List PixelWrite) (l : Lcd) : (Lcd.paint ps l).blinkCtr = l.blinkCtr := by
  rw [Lcd.paint_eq]
@[simp] theorem Lcd.paint_redrawReq (ps : List PixelWrite) (l : Lcd) : (Lcd.paint ps l).redrawReq = l.redrawReq := by
  rw [Lcd.paint_eq]

theorem Lcd.pix_setPix (l : Lcd) (y : Fin 28) (x : Fin 50) (b : Bool) (y' : Fin 28) (x' : Fin 50) :
    ((l.setPix y x b).pix[y'])[x'] = if y' = y ∧ x' = x then b else (l.pix[y'])[x'] := by
  simp only [Lcd.setPix, Fin.getElem_fin, Vector.getElem_set]
  by_cases hy : y' = y
  · subst hy
    by_cases hx : x' = x
    · subst hx; simp
    · simp [hx, Fin.val_inj, Ne.symm hx]
  · simp [hy, Fin.val_inj, Ne.symm hy]

/-- A pixel that no write of the list names keeps its value. -/
theorem Lcd.pix_paint_other (ps : List PixelWrite) (l : Lcd) (y : Fin 28) (x : Fin 50)
    (h : ∀ p ∈ ps, ¬(p.y = y ∧ p.x = x)) : ((Lcd.paint ps l).pix[y])[x] = (l.pix[y])[x] := by
  induction ps generalizing l with
  | nil => rfl
  | cons p t ih =>
    rw [Lcd.paint, ih _ fun q hq => h q (by simp [hq]), Lcd.pix_setPix, if_neg]
    rintro ⟨rfl, rfl⟩
    exact h p (by simp) ⟨rfl, rfl⟩

/-- A pixel that writes of the list name, all with one value, holds that value. -/
theorem Lcd.pix_paint_mem (ps : List PixelWrite) (l : Lcd) (y : Fin 28) (x : Fin 50) (b : Bool)
    (h : ∃ p ∈ ps, p.y = y ∧ p.x = x) (hb : ∀ p ∈ ps, p.y = y → p.x = x → p.on = b) :
    ((Lcd.paint ps l).pix[y])[x] = b := by
  induction ps generalizing l with
  | nil => simp at h
  | cons p t ih =>
    have hbt : ∀ q ∈ t, q.y = y → q.x = x → q.on = b := fun q hq => hb q (by simp [hq])
    by_cases ht : ∃ q ∈ t, q.y = y ∧ q.x = x
    · exact ih _ ht hbt
    · have hp : p.y = y ∧ p.x = x := by
        obtain ⟨q, hq, hyx⟩ := h
        rcases List.mem_cons.mp hq with rfl | hq
        · exact hyx
        · exact absurd ⟨q, hq, hyx⟩ ht
      rw [Lcd.paint, Lcd.pix_paint_other t _ y x fun q hq hyx => ht ⟨q, hq, hyx⟩, Lcd.pix_setPix, if_pos ⟨hp.1.symm, hp.2.symm⟩]
      exact hb p (by simp) hp.1 hp.2

/-! ### Display writes -/

/-- A store at an index in bounds, in the form that names no proof of it. -/
theorem set_eq_setIfInBounds {α : Type} {n : Nat} (v : Vector α n) (i : Nat) (x : α) (h : i < n) :
    v.set i x h = v.setIfInBounds i x := by
  ext j hj
  simp [Vector.getElem_set, Vector.getElem_setIfInBounds]

/-- The DDRAM part of the address map (R85). -/
theorem Lcd.target_ddram (c : Cfg) (a : BitVec 8) (v : Byte) (l : Lcd) (h : a.toNat < 64) :
    Lcd.target c a v l = .ok { l with ddram := l.ddram.setIfInBounds a.toNat (v.setWidth 4) } := by
  unfold Lcd.target
  rw [if_neg (by rintro ⟨rfl, _⟩; exact absurd h (by decide)), dif_pos h, set_eq_setIfInBounds]

/-- The DARAM part of the address map (R85). -/
theorem Lcd.target_daram (c : Cfg) (a : BitVec 8) (v : Byte) (l : Lcd) (h : 64 ≤ a.toNat) (h' : a.toNat < 112) :
    Lcd.target c a v l = .ok { l with daram := l.daram.setIfInBounds (a.toNat - 64) (v.getLsbD 0) } := by
  unfold Lcd.target
  rw [if_neg (by rintro ⟨rfl, _⟩; exact absurd h' (by decide)), dif_neg (by omega), dif_neg (by omega), dif_pos h',
    set_eq_setIfInBounds]

/-- The DCTRL part of the address map: the store, then the effect of the index (R85, R310). -/
theorem Lcd.target_dctrl (c : Cfg) (a : BitVec 8) (v : Byte) (l : Lcd) (h : 112 ≤ a.toNat) (h' : a.toNat < 128)
    (ht : a.toNat = 127 → v.getLsbD 0 = false) :
    Lcd.target c a v l = .ok (Lcd.controlEffect c (a.toNat - 112) v
      { l with dctrl := l.dctrl.setIfInBounds (a.toNat - 112) (v.setWidth 4) }) := by
  unfold Lcd.target
  rw [if_neg (by rintro ⟨rfl, hb⟩; rw [ht rfl] at hb; exact absurd hb (by decide)), dif_neg (by omega),
    dif_pos ⟨h, h'⟩, set_eq_setIfInBounds]

/-- A write to 127 with bit 0 set is refused (R306). -/
theorem Lcd.target_transient (c : Cfg) (a : BitVec 8) (v : Byte) (l : Lcd) (h : a.toNat = 127)
    (hb : v.getLsbD 0 = true) : Lcd.target c a v l = .error .transientDirectDraw := by
  unfold Lcd.target
  rw [if_pos ⟨BitVec.eq_of_toNat_eq h, hb⟩]

/-- A write at 128 or above is refused (R85). -/
theorem Lcd.target_high (c : Cfg) (a : BitVec 8) (v : Byte) (l : Lcd) (h : 128 ≤ a.toNat) :
    Lcd.target c a v l = .error (.displayAddressHigh a) := by
  unfold Lcd.target
  rw [if_neg (by rintro ⟨rfl, _⟩; exact absurd h (by decide)), dif_neg (by omega), dif_neg (by omega),
    dif_neg (by omega)]

/-- A latched write that is no direct-draw write is the addressed write at LA, and LA + 1 (R302). -/
theorem Lcd.dispWrite_eq_target (c : Cfg) (v : Byte) (l : Lcd) (h : ¬(l.directDraw c = true ∧ l.la.toNat < 64)) :
    Lcd.dispWrite c v l =
      match Lcd.target c l.la v l with
      | .ok l' => .ok { l' with la := l.la + 1 }
      | .error r => .error r := by
  unfold Lcd.dispWrite
  exact if_neg h

/-- The ranges and the part of the controller that no display write touches. -/
structure Lcd.WriteKept (l m : Lcd) : Prop where
  cursor : l.cursor ≤ 512 → m.cursor ≤ 512
  contrast : l.contrast ≤ 32 → m.contrast ≤ 32
  blinkOn : m.blinkOn = l.blinkOn
  blinkCtr : m.blinkCtr = l.blinkCtr

theorem Lcd.WriteKept.trans {l m n : Lcd} (h : l.WriteKept m) (h' : m.WriteKept n) : l.WriteKept n :=
  ⟨fun x => h'.1 (h.1 x), fun x => h'.2 (h.2 x), h'.3.trans h.3, h'.4.trans h.4⟩

theorem Lcd.controlEffect_kept (c : Cfg) (i : Nat) (v : Byte) (l : Lcd) :
    l.WriteKept (Lcd.controlEffect c i v l) ∧ (Lcd.controlEffect c i v l).la = l.la := by
  unfold Lcd.controlEffect Lcd.fillPix
  refine ⟨⟨fun h => ?_, fun h => ?_, ?_, ?_⟩, ?_⟩ <;> split <;> (try split) <;> first | rfl | omega | (dsimp only; omega)

theorem Lcd.target_kept (c : Cfg) (a : BitVec 8) (v : Byte) (l m : Lcd) (h : Lcd.target c a v l = .ok m) :
    l.WriteKept m ∧ m.la = l.la := by
  unfold Lcd.target at h
  split at h
  · cases h
  · split at h
    · cases h; exact ⟨⟨id, id, rfl, rfl⟩, rfl⟩
    · split at h
      · cases h
        have := Lcd.controlEffect_kept c (a.toNat - 112) v
          { l with dctrl := l.dctrl.set (a.toNat - 112) (v.setWidth 4) }
        exact ⟨⟨this.1.1, this.1.2, this.1.3, this.1.4⟩, this.2⟩
      · split at h
        · cases h; exact ⟨⟨id, id, rfl, rfl⟩, rfl⟩
        · cases h

/-- What every latched write that is not refused does: LA goes up by 1, the ranges hold, the blink state
stays (R302, R329). -/
theorem Lcd.dispWrite_kept (c : Cfg) (v : Byte) (l m : Lcd) (h : Lcd.dispWrite c v l = .ok m) :
    l.WriteKept m ∧ m.la = l.la + 1 := by
  unfold Lcd.dispWrite at h
  split at h
  · cases h
    refine ⟨⟨fun _ => ?_, fun h => ?_, ?_, ?_⟩, rfl⟩
    · exact Nat.min_le_right _ _
    · simpa [Lcd.directWrite] using h
    · simp [Lcd.directWrite]
    · simp [Lcd.directWrite]
  · split at h
    · rename_i l' hl'
      cases h
      have := Lcd.target_kept c l.la v l l' hl'
      exact ⟨⟨this.1.1, this.1.2, this.1.3, this.1.4⟩, rfl⟩
    · cases h

/-! ### The display step -/

theorem Lcd.blinkStep_kept (c : Cfg) (l : Lcd) :
    (l.cursor ≤ 512 → (l.blinkStep c).cursor ≤ 512) ∧ (l.blinkStep c).contrast = l.contrast ∧
      (l.blinkStep c).ddram = l.ddram ∧ (l.blinkStep c).daram = l.daram ∧ (l.blinkStep c).dctrl = l.dctrl ∧
      (l.blinkStep c).la = l.la ∧ (l.blinkStep c).pix = l.pix ∧ (l.blinkStep c).redrawReq = l.redrawReq := by
  unfold Lcd.blinkStep
  dsimp only
  split
  · split <;> exact ⟨fun _ => by simp_all, rfl, rfl, rfl, rfl, rfl, rfl, rfl⟩
  · exact ⟨id, rfl, rfl, rfl, rfl, rfl, rfl, rfl⟩

/-- A raster step at a cursor changes the pixels, and the cursor by 4 to at most 512 (R328). -/
theorem Lcd.rasterAt_eq (c : Cfg) (l : Lcd) (n : Fin 512) :
    l.rasterAt c n
      = { l with
          pix := (Lcd.paint (l.rasterPixels c (c.scanCells n)) l).pix
          cursor := min (n.val + 4) 512 } := by
  unfold Lcd.rasterAt; rw [Lcd.paint_eq]

theorem Lcd.rasterStep_kept (c : Cfg) (l : Lcd) :
    l.SameCells (l.rasterStep c) ∧ (l.cursor ≤ 512 → (l.rasterStep c).cursor ≤ 512) := by
  unfold Lcd.rasterStep
  split
  · exact ⟨.refl l, id⟩
  · split
    · rw [Lcd.rasterAt_eq]; exact ⟨⟨rfl, rfl, rfl, rfl, rfl, rfl, rfl⟩, fun _ => Nat.min_le_right _ _⟩
    · split
      · rw [Lcd.rasterAt_eq]; exact ⟨⟨rfl, rfl, rfl, rfl, rfl, rfl, rfl⟩, fun _ => Nat.min_le_right _ _⟩
      · exact ⟨.refl l, id⟩

/-- What every display step does: the ranges hold, and cells, control registers, LA and contrast stay (R300). -/
theorem Lcd.displayStep_kept (c : Cfg) (l : Lcd) :
    (l.cursor ≤ 512 → (l.displayStep c).cursor ≤ 512) ∧ (l.displayStep c).contrast = l.contrast ∧
      (l.displayStep c).ddram = l.ddram ∧ (l.displayStep c).daram = l.daram ∧ (l.displayStep c).dctrl = l.dctrl ∧
      (l.displayStep c).la = l.la := by
  have hb := Lcd.blinkStep_kept c l
  have hr := Lcd.rasterStep_kept c (l.blinkStep c)
  unfold Lcd.displayStep
  exact ⟨fun h => hr.2 (hb.1 h), hr.1.contrast.trans hb.2.1, hr.1.ddram.trans hb.2.2.1,
    hr.1.daram.trans hb.2.2.2.1, hr.1.dctrl.trans hb.2.2.2.2.1, hr.1.la.trans hb.2.2.2.2.2.1⟩

end Sys2Proof.Machine
end

