-- ==== Sys2Proof/Laws/Memory.lean ====
section
/-! SUPPORT. Byte memories and dirty sets: every operation keeps the canonical form, and a read after a write
(spec/20_memory.md R73, R76..R81). -/

namespace Sys2Proof.Machine

/-! ### The canonical form -/

theorem Memory.wfFrom_cons (lo size a : Nat) (b : Byte) (t : Memory) :
    Memory.wfFrom lo size ((a, b) :: t) = true ↔
      lo ≤ a ∧ a < size ∧ b ≠ Memory.unlisted ∧ Memory.wfFrom (a + 1) size t = true := by
  simp [Memory.wfFrom, and_assoc]

theorem Memory.wfFrom_mono {lo lo' size : Nat} {m : Memory} (h : Memory.wfFrom lo size m = true) (hle : lo' ≤ lo) :
    Memory.wfFrom lo' size m = true := by
  cases m with
  | nil => rfl
  | cons p t =>
    rw [Memory.wfFrom_cons] at h ⊢
    exact ⟨by omega, h.2⟩

/-- A write inside the region keeps the canonical form. -/
theorem Memory.write_wfFrom (lo size : Nat) (m : Memory) (a : Nat) (b : Byte) (h : Memory.wfFrom lo size m = true)
    (hlo : lo ≤ a) (ha : a < size) : Memory.wfFrom lo size (m.write a b) = true := by
  induction m generalizing lo with
  | nil =>
    unfold Memory.write
    split
    · rfl
    · rename_i hb
      exact (Memory.wfFrom_cons ..).mpr ⟨hlo, ha, hb, rfl⟩
  | cons p t ih =>
    obtain ⟨a', b'⟩ := p
    have h' := (Memory.wfFrom_cons ..).mp h
    unfold Memory.write
    split
    · split
      · exact h
      · rename_i hlt hb
        exact (Memory.wfFrom_cons ..).mpr
          ⟨hlo, ha, hb, (Memory.wfFrom_cons ..).mpr ⟨hlt, h'.2⟩⟩
    · split
      · rename_i heq
        subst heq
        split
        · exact Memory.wfFrom_mono h'.2.2.2 (by omega)
        · rename_i hb
          exact (Memory.wfFrom_cons ..).mpr ⟨hlo, ha, hb, h'.2.2.2⟩
      · exact (Memory.wfFrom_cons ..).mpr ⟨h'.1, h'.2.1, h'.2.2.1, ih (a' + 1) h'.2.2.2 (by omega)⟩

theorem Memory.write_wf (size : Nat) (m : Memory) (a : Nat) (b : Byte) (h : m.wf size = true) (ha : a < size) :
    Memory.wf size (m.write a b) = true :=
  Memory.write_wfFrom 0 size m a b h (Nat.zero_le a) ha

/-- Below its first address a canonical memory reads as unlisted. -/
theorem Memory.read_below (lo size : Nat) (m : Memory) (a : Nat) (h : Memory.wfFrom lo size m = true) (ha : a < lo) :
    m.read a = Memory.unlisted := by
  induction m generalizing lo with
  | nil => rfl
  | cons p t ih =>
    obtain ⟨a', b'⟩ := p
    have h' := (Memory.wfFrom_cons ..).mp h
    rw [Memory.read, if_neg (by omega)]
    exact ih (a' + 1) h'.2.2.2 (by omega)

/-- A read after a write: the byte written at its address, the old byte elsewhere. -/
theorem Memory.read_write_from (lo size : Nat) (m : Memory) (a : Nat) (b : Byte) (a' : Nat)
    (h : Memory.wfFrom lo size m = true) :
    (m.write a b).read a' = if a' = a then b else m.read a' := by
  induction m generalizing lo with
  | nil =>
    unfold Memory.write
    split
    · rename_i hb
      split
      · simp [Memory.read, hb]
      · rfl
    · rfl
  | cons p t ih =>
    obtain ⟨x, y⟩ := p
    have h' := (Memory.wfFrom_cons ..).mp h
    unfold Memory.write
    split
    · rename_i hlt
      split
      · rename_i hb
        split
        · rename_i heq
          subst heq
          rw [Memory.read, if_neg (by omega), Memory.read_below _ _ _ _ h'.2.2.2 (by omega), hb]
        · rfl
      · rfl
    · split
      · rename_i heq
        subst heq
        split
        · rename_i hb
          split
          · rename_i heq'
            subst heq'
            rw [Memory.read_below _ _ _ _ h'.2.2.2 (by omega), hb]
          · rename_i hne
            rw [Memory.read.eq_2, if_neg hne]
        · rw [Memory.read]
          split
          · rfl
          · rename_i hne
            rw [Memory.read, if_neg hne]
      · rename_i hne
        rw [Memory.read]
        split
        · rename_i heq
          subst heq
          rw [if_neg (Ne.symm hne), Memory.read, if_pos rfl]
        · rename_i hne'
          rw [ih _ h'.2.2.2]
          split
          · rfl
          · rw [Memory.read, if_neg hne']

theorem Memory.read_write (size : Nat) (m : Memory) (a : Nat) (b : Byte) (a' : Nat) (h : m.wf size = true) :
    (m.write a b).read a' = if a' = a then b else m.read a' :=
  Memory.read_write_from 0 size m a b a' h

/-! ### Images -/

theorem Memory.ofBytes_wfFrom (bs : List Byte) (a size : Nat) (h : a + bs.length ≤ size) :
    Memory.wfFrom a size (Memory.ofBytes a bs) = true := by
  induction bs generalizing a with
  | nil => rfl
  | cons b t ih =>
    have h' : a + 1 + t.length ≤ size := by simp only [List.length_cons] at h; omega
    unfold Memory.ofBytes
    split
    · exact Memory.wfFrom_mono (ih (a + 1) h') (by omega)
    · rename_i hb
      exact (Memory.wfFrom_cons ..).mpr
        ⟨le_refl a, by simp only [List.length_cons] at h; omega, hb, ih (a + 1) h'⟩

/-- An image truncated to a region makes a canonical memory of it (R77). -/
theorem Memory.ofBytes_wf (bs : List Byte) (size : Nat) : Memory.wf size (Memory.ofBytes 0 (bs.take size)) = true :=
  Memory.ofBytes_wfFrom _ 0 size (by simp)

/-- An image reads as its bytes, and as zero beyond them (R77). -/
theorem Memory.read_ofBytes (bs : List Byte) (a k : Nat) :
    (Memory.ofBytes a bs).read (a + k) = bs.getD k Memory.unlisted := by
  induction bs generalizing a k with
  | nil => simp [Memory.ofBytes, Memory.read]
  | cons b t ih =>
    unfold Memory.ofBytes
    cases k with
    | zero =>
      split
      · rename_i hb
        rw [Memory.read_below (a + 1) (a + 1 + t.length) _ _ (Memory.ofBytes_wfFrom t _ _ (by omega)) (by omega), hb]
        rfl
      · simp [Memory.read]
    | succ k =>
      have hk : a + (k + 1) = a + 1 + k := by omega
      split
      · rw [hk, ih]; rfl
      · rw [Memory.read, if_neg (by omega), hk, ih]; rfl

/-! ### Dirty sets -/

theorem WordSet.wfFrom_cons (lo words w : Nat) (t : WordSet) :
    WordSet.wfFrom lo words (w :: t) = true ↔ lo ≤ w ∧ w < words ∧ WordSet.wfFrom (w + 1) words t = true := by
  simp [WordSet.wfFrom, and_assoc]

/-- Adding an index of the region keeps the canonical form. -/
theorem WordSet.insert_wfFrom (lo words : Nat) (s : WordSet) (w : Nat) (h : WordSet.wfFrom lo words s = true)
    (hlo : lo ≤ w) (hw : w < words) : WordSet.wfFrom lo words (WordSet.insert s w) = true := by
  induction s generalizing lo with
  | nil => exact (WordSet.wfFrom_cons ..).mpr ⟨hlo, hw, rfl⟩
  | cons w' t ih =>
    have h' := (WordSet.wfFrom_cons ..).mp h
    unfold WordSet.insert
    split
    · exact (WordSet.wfFrom_cons ..).mpr ⟨hlo, hw, (WordSet.wfFrom_cons ..).mpr ⟨by omega, h'.2⟩⟩
    · split
      · exact h
      · exact (WordSet.wfFrom_cons ..).mpr ⟨h'.1, h'.2.1, ih (w' + 1) h'.2.2 (by omega)⟩

theorem WordSet.insert_wf (words : Nat) (s : WordSet) (w : Nat) (h : WordSet.wf words s = true) (hw : w < words) :
    WordSet.wf words (WordSet.insert s w) = true :=
  WordSet.insert_wfFrom 0 words s w h (Nat.zero_le w) hw

/-- Adding an index adds that index and no other. -/
theorem WordSet.mem_insert (s : WordSet) (w x : Nat) : x ∈ WordSet.insert s w ↔ x = w ∨ x ∈ s := by
  induction s with
  | nil => simp [WordSet.insert]
  | cons w' t ih =>
    unfold WordSet.insert
    split
    · simp
    · split
      · rename_i heq
        subst heq
        simp
      · simp only [List.mem_cons, ih]
        tauto

theorem WordSet.range_wfFrom (n lo : Nat) : WordSet.wfFrom lo (lo + n) (List.range' lo n) = true := by
  induction n generalizing lo with
  | zero => rfl
  | succ n ih =>
    rw [List.range'_succ]
    refine (WordSet.wfFrom_cons ..).mpr ⟨le_refl lo, by omega, ?_⟩
    have := ih (lo + 1)
    rwa [show lo + 1 + n = lo + (n + 1) by omega] at this

/-- The full dirty set of a region is canonical. -/
theorem WordSet.range_wf (n : Nat) : WordSet.wf n (List.range n) = true := by
  have := WordSet.range_wfFrom n 0
  rwa [Nat.zero_add, ← List.range_eq_range'] at this

/-! ### Power-on and load -/

theorem MemoryBus.powerOn_dirtyI : MemoryBus.powerOn.dirtyI = List.range (imemSize / 2) := by simp only [MemoryBus.powerOn]

theorem MemoryBus.powerOn_dirtyX : MemoryBus.powerOn.dirtyX = List.range (xmemSize / 2) := by simp only [MemoryBus.powerOn]

/-- The bus at power-on is canonical (R77, R401). -/
theorem MemoryBus.powerOn_wf :
    MemoryBus.powerOn.imem.wf imemSize = true ∧ MemoryBus.powerOn.xmem.wf xmemSize = true ∧
      WordSet.wf (imemSize / 2) MemoryBus.powerOn.dirtyI = true ∧
      WordSet.wf (xmemSize / 2) MemoryBus.powerOn.dirtyX = true := by
  rw [MemoryBus.powerOn_dirtyI, MemoryBus.powerOn_dirtyX]
  exact ⟨rfl, rfl, WordSet.range_wf _, WordSet.range_wf _⟩

@[simp] theorem State.reset_bus : State.reset.bus = MemoryBus.powerOn := rfl

/-- A load makes its region's memory and dirty set canonical and keeps the other region (R77). -/
theorem MemoryBus.load_internal (image : Option (List Byte)) (m : MemoryBus) :
    (m.load image .internal).imem = Memory.ofBytes 0 ((image.getD []).take imemSize) ∧
      (m.load image .internal).dirtyI = List.range (imemSize / 2) ∧ (m.load image .internal).xmem = m.xmem ∧
      (m.load image .internal).dirtyX = m.dirtyX ∧ (m.load image .internal).sa = m.sa := by
  simp only [MemoryBus.load, and_self]

theorem MemoryBus.load_external (image : Option (List Byte)) (m : MemoryBus) :
    (m.load image .external).xmem = Memory.ofBytes 0 ((image.getD []).take xmemSize) ∧
      (m.load image .external).dirtyX = List.range (xmemSize / 2) ∧ (m.load image .external).imem = m.imem ∧
      (m.load image .external).dirtyI = m.dirtyI ∧ (m.load image .external).sa = m.sa := by
  simp only [MemoryBus.load, and_self]

end Sys2Proof.Machine
end

