-- ==== Sys2Proof/Laws/Engine.lean ====
section
/-! SUPPORT. The tick: what the device steps can do, and the ways a step can end (spec/70_reset_and_hazards.md
R402..R405). -/

namespace Sys2Proof.Machine

/-- What the device steps of a tick leave alone (R403): registers, display, memories, dirty sets, the engine but
its record; and the ranges they keep. -/
structure State.DevicesKept (s t : State) : Prop where
  regs : t.regs = s.regs
  lcd : t.lcd = s.lcd
  imem : t.bus.imem = s.bus.imem
  xmem : t.bus.xmem = s.bus.xmem
  dirtyI : t.bus.dirtyI = s.bus.dirtyI
  dirtyX : t.bus.dirtyX = s.bus.dirtyX
  busy : t.eng.busy = s.eng.busy
  cycles : t.eng.cycles = s.eng.cycles
  mark : t.eng.mark = s.eng.mark
  ispDiv : t.dev.ispDiv ≤ 23
  t1 : s.dev.t1 ≤ 37 → t.dev.t1 ≤ 37

theorem State.deviceSteps_kept (c : Cfg) (s : State) : s.DevicesKept (s.deviceSteps c) := by
  have h := State.ispStep_kept c (s.mapDev fun d => Devices.timer1Step c (Devices.timer0Step c d))
  exact
    { regs := h.regs, lcd := h.lcd, imem := h.imem, xmem := h.xmem, dirtyI := h.dirtyI, dirtyX := h.dirtyX,
      busy := h.busy, cycles := h.cycles, mark := h.mark
      ispDiv := by rw [State.deviceSteps, h.ispDiv]; omega
      t1 := fun h1 => by
        rw [State.deviceSteps, h.t1]
        exact Devices.timer1Step_t1 c _ (by rw [(Devices.timer0Step_hidden c s.dev).t1]; exact h1) }

/-- The device steps do not read the display, and keep it (R403). -/
theorem State.deviceSteps_setLcd (c : Cfg) (s : State) (l : Lcd) :
    (s.setLcd l).deviceSteps c = (s.deviceSteps c).setLcd l := by
  unfold State.deviceSteps State.ispStep
  dsimp only [State.mapDev, State.setLcd]
  split
  · split
    · unfold State.dmaTransmit; dsimp only; split <;> rfl
    · rfl
  · rfl

/-- The fetch reads the PC and the internal region only (R72, R405). -/
theorem fetchDecode_congr {s t : State} (hp : t.regs.pc = s.regs.pc) (hm : t.bus.imem = s.bus.imem) :
    fetchDecode t = fetchDecode s := by
  unfold fetchDecode MemoryBus.fetchOpcode; rw [hp, hm]

/-- The ways a tick gives a next state: the engine was busy, or it ran the form the fetch gave (R404, R405). -/
theorem tickOutcome_next {fetch : State → FetchResult} {s t : State} (h : tickOutcome fetch s = .next t) :
    s.eng.mark = none ∧
      ((0 < s.eng.busy ∧ t = ((s.deviceSteps chipCfg).setBusy (s.eng.busy - 1)).finishTick chipCfg) ∨
       (s.eng.busy = 0 ∧ ∃ i u, fetch (s.deviceSteps chipCfg) = .ok i ∧ exec i (s.deviceSteps chipCfg) = .next u ∧
         t = (u.setBusy (cost i - 1)).finishTick chipCfg)) := by
  unfold tickOutcome at h
  split at h
  · rename_i m _; cases m <;> cases h
  · rename_i hm
    refine ⟨hm, ?_⟩
    have hb := (State.deviceSteps_kept chipCfg s).busy
    unfold engineStep at h
    split at h
    · rename_i s' he
      cases h
      split at he
      · cases he
        exact .inl ⟨by omega, by rw [hb]⟩
      · refine .inr ⟨by omega, ?_⟩
        split at he
        · rename_i m _; cases m <;> cases he
        · rename_i i hi
          split at he
          · rename_i u hu
            cases he
            exact ⟨i, u, hi, hu, rfl⟩
          · cases he
          · cases he
    · cases h
    · cases h

end Sys2Proof.Machine
end

