-- ==== Sys2Proof/Laws/PerInstr.lean ====
section
/-! SUPPORT. The family stated for every instruction: the bounds on the cost of a form that follow from R406,
one lemma per constructor. -/

namespace Sys2Proof.Laws.CostBounds

open Sys2Proof Sys2Proof.Machine

/-- An instruction takes 1 to 8 ticks (R406), so that the busy count stays in 0..7 (R38). -/
def Statement (i : Instr) : Prop := 1 ≤ cost i ∧ cost i ≤ 8

/-- One tick lies in the bounds. -/
theorem one_tick : 1 ≤ 1 ∧ 1 ≤ 8 := by decide

theorem add (x y : Reg) : Statement (.add x y) := one_tick
theorem adb (x y : Reg) : Statement (.adb x y) := one_tick
theorem sub (x y : Reg) : Statement (.sub x y) := one_tick
theorem sbb (x y : Reg) : Statement (.sbb x y) := one_tick
theorem addi (x : Reg) (i : Imm4) : Statement (.addi x i) := one_tick
theorem adbi (x : Reg) (i : Imm4) : Statement (.adbi x i) := one_tick
theorem subi (x : Reg) (i : Imm4) : Statement (.subi x i) := one_tick
theorem sbbi (x : Reg) (i : Imm4) : Statement (.sbbi x i) := one_tick
theorem radd (pd ps : Page) (hi lo : Off3) : Statement (.radd pd ps hi lo) :=
  ⟨windowLen_pos hi lo, windowLen_le hi lo⟩
theorem radb (pd ps : Page) (hi lo : Off3) : Statement (.radb pd ps hi lo) :=
  ⟨windowLen_pos hi lo, windowLen_le hi lo⟩
theorem rsub (pd ps : Page) (hi lo : Off3) : Statement (.rsub pd ps hi lo) :=
  ⟨windowLen_pos hi lo, windowLen_le hi lo⟩
theorem rsbb (pd ps : Page) (hi lo : Off3) : Statement (.rsbb pd ps hi lo) :=
  ⟨windowLen_pos hi lo, windowLen_le hi lo⟩
theorem cmp (x y : Reg) : Statement (.cmp x y) := one_tick
theorem cmpi (x : Reg) (i : Imm4) : Statement (.cmpi x i) := one_tick
theorem rcmp (pd ps : Page) (hi lo : Off3) : Statement (.rcmp pd ps hi lo) :=
  ⟨windowLen_pos hi lo, windowLen_le hi lo⟩
theorem andi (x : Reg) (i : Imm4) : Statement (.andi x i) := one_tick
theorem ori (x : Reg) (i : Imm4) : Statement (.ori x i) := one_tick
theorem xori (x : Reg) (i : Imm4) : Statement (.xori x i) := one_tick
theorem rshl (p : Page) (hi lo : Off3) : Statement (.rshl p hi lo) := ⟨windowLen_pos hi lo, windowLen_le hi lo⟩
theorem rshr (p : Page) (hi lo : Off3) : Statement (.rshr p hi lo) := ⟨windowLen_pos hi lo, windowLen_le hi lo⟩
theorem mov (x y : Reg) : Statement (.mov x y) := one_tick
theorem movi (x : Reg) (i : Imm4) : Statement (.movi x i) := one_tick
theorem rmov (pd ps : Page) (hi lo : Off3) : Statement (.rmov pd ps hi lo) :=
  ⟨windowLen_pos hi lo, windowLen_le hi lo⟩
theorem rclr (p : Page) (hi lo : Off3) : Statement (.rclr p hi lo) := ⟨windowLen_pos hi lo, windowLen_le hi lo⟩
theorem mvca (x y : Reg) : Statement (.mvca x y) := one_tick
theorem mvac (x y : Reg) : Statement (.mvac x y) := one_tick
theorem scb (n : Bank) : Statement (.scb n) := one_tick
theorem sab (n : Bank) : Statement (.sab n) := one_tick
theorem inp (x : Reg) (s : SRIdx) : Statement (.inp x s) := one_tick
theorem out (s : SRIdx) (y : Reg) : Statement (.out s y) := one_tick
theorem outi (s : SRIdx) (i : Imm4) : Statement (.outi s i) := one_tick
theorem dw (y : Reg) : Statement (.dw y) := one_tick
theorem dw2 (y1 y2 : Reg) : Statement (.dw2 y1 y2) := one_tick
theorem call (v : Fin 3) (f : Field) : Statement (.call v f) := one_tick
theorem ret : Statement .ret := one_tick
theorem br (f : Field) : Statement (.br f) := one_tick
theorem jmp (v : Fin 4) (f : Field) : Statement (.jmp v f) := one_tick
theorem jz (f : Field) : Statement (.jz f) := one_tick
theorem jnz (f : Field) : Statement (.jnz f) := one_tick
theorem jc (f : Field) : Statement (.jc f) := one_tick
theorem jnc (f : Field) : Statement (.jnc f) := one_tick
theorem btb (x : Reg) (b : BitIdx) (pol : Bool) (f : Field) : Statement (.btb x b pol f) := one_tick
theorem cib (x : Reg) (i : Imm4) (eq : Bool) (f : Field) : Statement (.cib x i eq f) := one_tick
theorem ijmp (x : Reg) (f : Field) : Statement (.ijmp x f) := one_tick
theorem wfe : Statement .wfe := one_tick
theorem xld : Statement .xld := one_tick
theorem xst : Statement .xst := one_tick
theorem ssa : Statement .ssa := one_tick
theorem sla : Statement .sla := one_tick
theorem bsar : Statement .bsar := one_tick

end Sys2Proof.Laws.CostBounds
end

