-- ==== Sys2Proof/Tests/Slice0.lean ====
section
/-! SUPPORT. Small tests: what WellFormed refuses, the decoder, one step of each instruction, and a witness for the
hypotheses of every statement that has some. Expected values are taken from the vectors of
spec/95_test_vectors.md (named S1.. for its section 1, and by section else) or worked out from a rule. -/

namespace Sys2Proof.Tests

open Sys2Proof Sys2Proof.Machine

/-! ### Helpers -/

/-- The reset state with some registers of bank 0 set. -/
def withX (l : List (Reg × Nibble)) : State :=
  State.reset.mapRegs fun r => l.foldl (fun r p => r.rawWrite 0 p.1 p.2) r

/-- The reset state with some special registers set. -/
def withSr (l : List (SRIdx × Nibble)) : State :=
  State.reset.mapDev fun d => l.foldl (fun d p => d.setSr p.1 p.2) d

/-- The reset state with the PC, the flags and the call stack set. -/
def withPc (pc : Addr12) (cf zf : Bool) (stk : List Addr12) : State :=
  State.reset.mapRegs fun r => { r with pc := pc, cf := cf, zf := zf, stk := stk }

/-- The reset state with the display latch set. -/
def withLa (la : BitVec 8) : State := State.reset.setLcd { State.reset.lcd with la := la }

/-- What a function says of the next state, none if there is none. -/
def after {α : Type} (o : Host.Outcome State Fault Refusal) (f : State → α) : Option α :=
  match o with
  | .next t => some (f t)
  | _ => none

/-- Register x and both flags. -/
def xcz (x : Reg) (s : State) : Nibble × Bool × Bool := (s.regs.x x, s.regs.cf, s.regs.zf)

/-! ### Instructions on single digits (95 sections 2.1, 2.2) -/

theorem test_add_carry : after (exec (.add 1 2) (withX [(1, 9), (2, 8)])) (xcz 1) = some (1, true, false) := by decide
theorem test_add_same_register : after (exec (.add 1 1) (withX [(1, 12)])) (xcz 1) = some (8, true, false) := by decide
theorem test_adb_S5 : after (exec (.adb 0 1) (withX [(0, 7), (1, 5)])) (xcz 0) = some (2, true, false) := by decide
theorem test_adb_not_decimal : after (exec (.adb 1 2) (withX [(1, 15), (2, 15)])) (xcz 1) = some (4, true, false) := by
  decide
theorem test_sub_borrow : after (exec (.sub 3 4) (withX [(3, 4), (4, 6)])) (xcz 3) = some (14, true, false) := by decide
theorem test_sub_same_register : after (exec (.sub 3 3) (withX [(3, 9)])) (xcz 3) = some (0, false, true) := by decide
theorem test_sbb_corrects : after (exec (.sbb 3 4) (withX [(3, 3), (4, 7)])) (xcz 3) = some (6, true, false) :=
    by decide
theorem test_sbb_no_borrow : after (exec (.sbb 3 4) (withX [(3, 15)])) (xcz 3) = some (15, false, false) := by decide
theorem test_addi_wraps : after (exec (.addi 0 4) (withX [(0, 12)])) (xcz 0) = some (0, true, true) := by decide
theorem test_addi_advances : after (exec (.addi 0 0) (withPc 0xFFF true false [])) (fun t => (t.regs.pc, t.regs.cf,
    t.regs.zf))
    = some (0, false, true) := by decide
theorem test_adbi_large_immediate : after (exec (.adbi 0 12) (withX [])) (xcz 0) = some (2, true, false) := by decide
theorem test_adbi_S5 : after (exec (.adbi 0 5) (withX [(0, 7)])) (xcz 0) = some (2, true, false) := by decide
theorem test_subi_zero : after (exec (.subi 5 5) (withX [(5, 5)])) (xcz 5) = some (0, false, true) := by decide
theorem test_subi_borrow : after (exec (.subi 5 15) (withX [])) (xcz 5) = some (1, true, false) := by decide
theorem test_sbbi_corrects : after (exec (.sbbi 5 2) (withX [(5, 1)])) (xcz 5) = some (9, true, false) := by decide
theorem test_sbbi_fifteen : after (exec (.sbbi 5 15) (withX [])) (xcz 5) = some (11, true, false) := by decide
theorem test_cmp_below : after (exec (.cmp 0 1) (withX [(0, 3), (1, 9)])) (fun t => (t.regs.bsa, xcz 0 t))
    = some (0, 3, true, false) := by decide
theorem test_cmp_same_register : after (exec (.cmp 0 0) (withX [(0, 6)])) (xcz 0) = some (6, false, true) := by decide
theorem test_cmpi_equal : after (exec (.cmpi 2 10) (withX [(2, 10)])) (xcz 2) = some (10, false, true) := by decide
theorem test_cmpi_above : after (exec (.cmpi 2 0) (withX [(2, 10)])) (xcz 2) = some (10, false, false) := by decide
theorem test_andi : after (exec (.andi 4 0b0110) (withX [(4, 0b1010)])) (xcz 4) = some (0b0010, false, false) :=
    by decide
theorem test_andi_captures_bsa : after (exec (.andi 4 15) (withX [(4, 9)])) (fun t => t.regs.bsa) = some 0x900 :=
    by decide
theorem test_ori : after (exec (.ori 4 0b0001) (withX [(4, 0b1000)])) (xcz 4) = some (0b1001, false, false) := by decide
theorem test_ori_zero : after (exec (.ori 4 0) (withX [])) (xcz 4) = some (0, false, true) := by decide
theorem test_xori : after (exec (.xori 4 0b1111) (withX [(4, 0b1100)])) (xcz 4) = some (0b0011, false, false) :=
    by decide
theorem test_xori_keeps_carry : after (exec (.xori 4 0) (withPc 0 true false [])) (xcz 4) = some (0, true, true) := by
  decide

/-! ### Ranged forms (95 section 2.3; S3) -/

/-- The digits of a window and both flags. -/
def wcz (p : Page) (hi lo : Off3) (s : State) : List Nibble × Bool × Bool :=
  (s.regs.digits (window p hi lo), s.regs.cf, s.regs.zf)

theorem test_window_S3 : window 1 5 2 = [13, 14, 15, 8, 9, 10] ∧ cost (.rclr 1 5 2) = 6 := by decide
theorem test_radd_wraps : after (exec (.radd 0 1 0 1) (withX [(0, 15), (1, 15), (9, 1)])) (wcz 0 0 1)
    = some ([0, 0], true, true) := by decide
theorem test_radd_length_eight : after (exec (.radd 0 1 1 0) (withX [(0, 1), (8, 15)])) (wcz 0 1 0)
    = some ([0, 0, 0, 0, 0, 0, 1, 0], false, false) := by decide
theorem test_radb_carries : after (exec (.radb 0 1 0 1) (withX [(0, 4), (1, 7), (8, 3), (9, 5)])) (wcz 0 0 1)
    = some ([8, 2], false, false) := by decide
theorem test_radb_wraps : after (exec (.radb 0 1 0 1) (withX [(0, 9), (1, 9), (9, 1)])) (wcz 0 0 1)
    = some ([0, 0], true, true) := by decide
theorem test_rsub_borrows : after (exec (.rsub 0 1 0 1) (withX [(0, 1), (9, 1)])) (wcz 0 0 1)
    = some ([0, 15], false, false) := by decide
theorem test_rsub_same_page : after (exec (.rsub 0 0 0 2) (withX [(0, 5), (1, 6), (2, 7)])) (wcz 0 0 2)
    = some ([0, 0, 0], false, true) := by decide
theorem test_rsbb_corrects : after (exec (.rsbb 0 1 0 1) (withX [(0, 5), (1, 2), (8, 1), (9, 7)])) (wcz 0 0 1)
    = some ([3, 5], false, false) := by decide
theorem test_rsbb_borrows : after (exec (.rsbb 0 1 0 1) (withX [(9, 1)])) (wcz 0 0 1)
    = some ([9, 9], true, false) := by decide
theorem test_rcmp_above : after (exec (.rcmp 0 1 0 1) (withX [(0, 2), (8, 1), (9, 9)])) (wcz 0 0 1)
    = some ([2, 0], false, false) := by decide
theorem test_rcmp_below : after (exec (.rcmp 0 1 0 1) (withX [(0, 1), (1, 9), (8, 2)])) (wcz 0 0 1)
    = some ([1, 9], true, false) := by decide
theorem test_rshl_captures_in_order : after (exec (.rshl 0 0 3) (withX [(0, 1), (1, 2), (2, 3), (3, 4)]))
    (fun t => (t.regs.bsa, t.regs.digits [0, 1, 2, 3])) = some (0x432, [2, 3, 4, 0]) := by decide
theorem test_rshl_wraps_in_page : after (exec (.rshl 0 6 1) (withX [(6, 1), (7, 2), (0, 3), (1, 4)])) (wcz 0 6 1)
    = some ([2, 3, 4, 0], false, false) := by decide
theorem test_rshr : after (exec (.rshr 0 0 3) (withX [(0, 1), (1, 2), (2, 3), (3, 4)])) (wcz 0 0 3)
    = some ([0, 1, 2, 3], false, false) := by decide
theorem test_rmov : after (exec (.rmov 0 1 0 2) (withX [(8, 1), (9, 2), (10, 3)])) (wcz 0 0 2)
    = some ([1, 2, 3], false, false) := by decide
theorem test_rclr_captures_in_order : after (exec (.rclr 3 1 0)
    (withX [(24, 1), (25, 2), (26, 3), (27, 4), (28, 5), (29, 6), (30, 7), (31, 8)]))
    (fun t => (t.regs.bsa, t.regs.digits (window 3 1 0))) = some (0x187, [0, 0, 0, 0, 0, 0, 0, 0]) := by decide

/-! ### Moves and banks (95 section 2.4) -/

theorem test_mov : after (exec (.mov 3 9) (withX [(3, 7), (9, 2)])) (fun t => (t.regs.x 3, t.regs.bsa))
    = some (2, 0x700) := by
  decide
theorem test_movi : after (exec (.movi 0 9) (withX [(0, 4)])) (fun t => t.regs.x 0) = some 9 := by decide
theorem test_mvca : after (exec (.mvca 1 5) ((withX [(5, 6)]).mapRegs fun r => { r with ab := 2 }))
    (fun t => (t.regs.reg 2 1, t.regs.reg 0 1)) = some (6, 0) := by decide
theorem test_mvac : after (exec (.mvac 7 1) ((withX []).mapRegs fun r => { r.rawWrite 2 1 6 with ab := 2 }))
    (fun t => (t.regs.reg 0 7, t.regs.reg 2 7)) = some (6, 0) := by decide
theorem test_scb : after (exec (.scb 3) State.reset) (fun t => (t.regs.cb, t.regs.ab)) = some (3, 0) := by decide
theorem test_sab : after (exec (.sab 1) State.reset) (fun t => (t.regs.cb, t.regs.ab)) = some (0, 1) := by decide

/-! ### Special registers (95 section 2.5) -/

theorem test_inp_clears_only_bit_zero : after (exec (.inp 0 15) (withSr [(15, 0b0111)]))
    (fun t => (t.regs.x 0, t.dev.getSr 15)) = some (7, 0b0110) := by decide
theorem test_inp_clears_whole : after (exec (.inp 0 4) (withSr [(4, 0b0011)])) (fun t => (t.regs.x 0, t.dev.getSr 4))
    = some (3, 0) := by decide
theorem test_out_stores : after (exec (.out 13 2) (withX [(2, 5)])) (fun t => (t.dev.getSr 13, t.regs.pc))
    = some (5, 1) := by
  decide
theorem test_outi_audio_order : after (exec (.outi 15 0b0111) State.reset) (fun t => t.eng.trace)
    = some [(1, .audio .playTone), (1, .audio .startTremolo), (1, .audio .stopTremolo)] := by decide
theorem test_outi_sr14_clears : after (exec (.outi 14 7) (withSr [(14, 9)])) (fun t => t.dev.getSr 14) = some 0 :=
    by decide

/-- Some special registers of the devices after a write of one, under the reference parameters. -/
def srAfter (k : SRIdx) (v : Nibble) (s : State) (ks : List SRIdx) : List Nibble :=
  ks.map (s.dev.srWrite Cfg.reference k v).getSr

theorem test_sr9_arm : srAfter 9 0b0011 (withSr [(9, 0b1011), (0, 4)]) [9, 0] = [0b1000, 4] ∧
    srAfter 9 0b0111 (withSr [(9, 1), (0, 4)]) [9, 0] = [0, 0] := by decide
theorem test_sr12_arm : srAfter 12 1 (withSr [(12, 1), (0, 0b0011)]) [12, 0] = [0, 0b0010] ∧
    srAfter 12 0 (withSr [(0, 1)]) [12, 0] = [0, 0] := by decide
theorem test_sr1_sr7_arms : srAfter 1 0 (withSr [(0, 0b1010)]) [1, 0] = [0, 0b0010] ∧
    srAfter 7 0 (withSr [(0, 0b0010), (7, 0b0100)]) [7, 0] = [0, 0] := by decide
theorem test_sr10_arm : (State.reset.dev.srWrite Cfg.reference 10 8).sw = .enabled ∧
    srAfter 10 2 (withSr [(10, 7)]) [10] = [0] ∧ srAfter 10 1 State.reset [9] = [0b1000] := by decide
theorem test_sr3_sr4_arms : (State.reset.dev.srWrite Cfg.reference 3 0b0011).ispMode = true ∧
    (State.reset.dev.srWrite Cfg.reference 3 0b0011).ispTxen = true ∧
    (State.reset.dev.srWrite Cfg.reference 4 0b0011).ispRxen = true ∧
    (State.reset.dev.srWrite Cfg.reference 4 0b0011).ispTxpend = true := by decide

/-! ### Display writes (95 section 2.6) -/

/-- What a function says of the display after a write, none if it refuses. -/
def shown {α : Type} (r : Except Refusal Lcd) (f : Lcd → α) : Option α :=
  match r with
  | .ok l => some (f l)
  | .error _ => none

/-- One latched write at an address of the reset display, under the reference parameters. -/
def dispAt (la : BitVec 8) (v : Byte) : Except Refusal Lcd := (withLa la).lcd.dispWrite Cfg.reference v

theorem test_dw_ddram_end : shown (dispAt 63 3) (fun l => (l.ddram[63], l.la)) = some (3, 64) := by decide
theorem test_dw_daram : shown (dispAt 64 3) (fun l => (l.daram[0], l.la)) = some (true, 65) ∧
    shown (dispAt 111 2) (fun l => (l.daram[47], l.la)) = some (false, 112) := by decide
theorem test_dw_dctrl_zero : shown (dispAt 112 1) (fun l => (l.dctrl[0], l.daram[48], l.la))
    = some (1, false, 113) := by
  decide
theorem test_dw_contrast : shown (dispAt 121 1) (fun l => (l.contrast, l.dctrl[9]))
    = some (min (chipCfg.contrastReset.val + 1) 32, 1) := rfl
/-- The refusal a display write ends in, none if it ends in none. -/
def refusalOf (r : Except Refusal Lcd) : Option Refusal :=
  match r with
  | .ok _ => none
  | .error e => some e

theorem test_dw_refused_high : refusalOf (dispAt 128 0) = some (.displayAddressHigh 128) := by decide
theorem test_dw_refused_transient : refusalOf (dispAt 127 3) = some .transientDirectDraw ∧
    refusalOf (dispAt 127 2) = none := by
  decide

/-- `dw2 r1, r2` with 3 and 4, at LA = 0, under a reading. -/
def dw2At (mode : Dw2Mode) : Except Refusal Lcd :=
  dw2Writes { Cfg.reference with dw2Mode := mode } 1 2 (withX [(1, 3), (2, 4)])

theorem test_dw2_two_nibbles : shown (dw2At .twoNibbles) (fun l => (l.ddram[0], l.ddram[1], l.la))
    = some (3, 4, 2) := by
  decide
theorem test_dw2_one_byte : shown (dw2At .oneByte) (fun l => (l.ddram[0], l.ddram[1], l.la)) = some (4, 0, 1) :=
    by decide

/-- `dw2 r1, r2` with 1 and 0, at LA = 121: as one byte, 16 is written, and the action is tested on all 8 bits. -/
theorem test_dw2_action_sees_all_bits :
    shown (dw2Writes { Cfg.reference with dw2Mode := .oneByte } 1 2 ((withX [(1, 1)]).setLcd (withLa 121).lcd))
      (fun l => (l.contrast, l.dctrl[9])) = some (min (chipCfg.contrastReset.val + 1) 32, 0) := rfl
/-- A `dw2` of two writes at LA = 127 whose second one refuses leaves the first one done (95 section 2.6). -/
theorem test_dw2_stopped_leaves_first_write :
    let l := (stateAtRefusal Cfg.reference (.dw2 1 2) ((withX [(1, 2)]).setLcd (withLa 127).lcd)).lcd
    (l.dctrl[15], l.la) = (2, 128) := by decide

/-- The reset display with direct draw on. -/
def directLcd : Lcd := { State.reset.lcd with dctrl := State.reset.lcd.dctrl.set 7 1 }

theorem test_direct_draw : shown (directLcd.dispWrite Cfg.reference 0b1011)
    (fun l => ((l.pix[0]).toList.take 6, l.cursor, l.la, l.ddram[0]))
    = some ([false, true, false, true, true, false], 1, 1, 0) := by decide
theorem test_opacity : opacityOff 16 = 6 / 255 ∧ opacityOn 16 = 240 / 255 ∧ opacityOff 32 = 102 / 255 ∧
    opacityOn 17 = 1 := by
  decide +kernel
theorem test_raster_columns : rasterColumns 0 = [0, 1, 2] ∧ rasterColumns 4 = [3, 4, 5, 6] ∧
    rasterColumns 8 = [7, 8, 9] ∧
    rasterColumns 12 = [] := by decide
theorem test_raster_column_ten : rasterColumns 10 = [9] ∧ rasterColumns 11 = [] := by decide
theorem test_mirror_rows : Config.refMirrorApply .v .top 0 0 = (13, 0) ∧
    Config.refMirrorApply .vh .bot 14 0 = (27, 49) := by
  decide

/-! ### Control (95 section 2.7; S2, S4, S7): a target is the chip's parameter, so a taken jump goes there -/

theorem test_call_evicts : after (exec (.call 0 0x300) (withPc 4 false false [1, 2, 3]))
    (fun t => (t.regs.stk, decide (t.regs.pc = chipCfg.callTarget 0 0x300))) = some ([2, 3, 4], true) := by
  simp [exec, execCall, after, withPc, pushStack]
theorem test_ret : after (exec .ret (withPc 0x200 false false [0x100])) (fun t => (t.regs.pc, t.regs.stk))
    = some (0x101, []) := by
  decide
theorem test_ret_empty : after (exec .ret (withPc 0x200 false false [])) (fun t => (t.regs.pc, t.regs.stk))
    = some (0x201, []) := by
  decide
theorem test_br : after (exec (.br 0x10) (withPc 5 false false [])) (fun t => t.regs.pc)
    = some (chipCfg.brTarget 5 0x10) := rfl
theorem test_jmp : after (exec (.jmp 3 0x100) (withPc 5 false false [])) (fun t => t.regs.pc)
    = some (chipCfg.jmpTarget 3 0x100) :=
  rfl
theorem test_jz_not_taken : after (exec (.jz 0x40) (withPc 0 true false [])) (fun t => t.regs.pc) = some 1 := rfl
theorem test_jnz_not_taken : after (exec (.jnz 0x40) (withPc 0 false true [])) (fun t => t.regs.pc) = some 1 := rfl
theorem test_jc_not_taken : after (exec (.jc 0x40) (withPc 0 false true [])) (fun t => t.regs.pc) = some 1 := rfl
theorem test_jnc_not_taken : after (exec (.jnc 0x30) (withPc 5 true false [])) (fun t => t.regs.pc) = some 6 := rfl
theorem test_jz_taken : after (exec (.jz 0x40) (withPc 9 false true [])) (fun t => t.regs.pc)
    = some (chipCfg.jccTarget 9 0x40) :=
  rfl
theorem test_jc_taken : after (exec (.jc 0x20) (withPc 9 true false [])) (fun t => t.regs.pc)
    = some (chipCfg.jccTarget 9 0x20) :=
  rfl
theorem test_btb_not_taken : after (exec (.btb 3 2 false 0x50) (withX [(3, 4)])) (fun t => t.regs.pc) = some 1 := rfl
theorem test_btb_taken : after (exec (.btb 3 0 false 0x50) (withX [(3, 4)])) (fun t => t.regs.pc)
    = some (chipCfg.btbTarget 0 0x50) :=
  rfl
theorem test_cib_not_taken : after (exec (.cib 0 9 false 0x60) (withX [(0, 9)])) (fun t => t.regs.pc) = some 1 := rfl
theorem test_cib_taken : after (exec (.cib 0 9 false 0x60) (withX [(0, 8)])) (fun t => t.regs.pc)
    = some (chipCfg.cibTarget 0 0x60) :=
  rfl
theorem test_ijmp : after (exec (.ijmp 5 0xFFE) (withX [(5, 3)])) (fun t => t.regs.pc)
    = some (chipCfg.ijmpTarget 0 0xFFE 3) := rfl
theorem test_ijmp_target_wraps : Cfg.reference.ijmpTarget 0 0xFFE 3 = 1 := by decide
theorem test_wfe_waits : after (exec .wfe (withPc 0x10 false false [])) (fun t => t.regs.pc) = some 0x10 := by decide
theorem test_wfe_advances : after (exec .wfe (withSr [(0, 8)])) (fun t => (t.regs.pc, t.dev.getSr 0))
    = some (1, 8) := by decide

/-! ### The implied forms (R280 to R284) -/

theorem test_implied_refused : exec .xld State.reset = .refused (.unmodelled .xld) ∧
    exec .xst State.reset = .refused (.unmodelled .xst) ∧ exec .ssa State.reset = .refused (.unmodelled .ssa) ∧
    exec .sla State.reset = .refused (.unmodelled .sla) ∧ exec .bsar State.reset = .refused (.unmodelled .bsar) :=
    ⟨rfl, rfl, rfl, rfl, rfl⟩

/-! ### Devices and host events (95 sections 2.8, 2.9; S1, S2, S10), one step each -/

theorem test_timer0_second : ((({ State.reset.dev with t0 := 255 }).timer0Step Cfg.reference).getSr 14) = 1 := by decide
theorem test_timer0_rollover : [14, 4, 12].map
    ({ (withSr [(14, 15), (13, 0b1000)]).dev with t0 := 1023 }.timer0Step Cfg.reference).getSr = [0, 1, 0b1000] :=
    by decide
theorem test_sr13_polarity_per_source :
    let c := { Cfg.reference with sr13On := fun s => decide (s = Timer0Source.t128) }
    c.sr13Enables .t128 0b0001 = true ∧ c.sr13Enables .t256 0b0010 = false ∧ c.sr13Enables .t256 0b0001 = true := by
  decide
theorem test_timer1_rollover : [10, 9, 0, 3].map
    ({ (withSr [(9, 8), (10, 9)]).dev with t1 := 37 }.timer1Step Cfg.reference).getSr = [0, 0b1001, 0b0100, 1] :=
    by decide
theorem test_timer1_closed : ({ State.reset.dev with t1 := 37 }.timer1Step Cfg.reference).t1 = 37 := by decide

/-- A state one tick before an ISP slot with a transmit armed. -/
def slotState (dma : Bool) (sa : BitVec 11) : State :=
  let s := withSr [(5, 4), (6, 1)]
  { s with
    dev := { s.dev with ispTxen := true, ispTxpend := true, ispMode := dma, ispDiv := 23 }
    bus := { s.bus with xmem := [(0xFF, 0xCD)], sa := sa } }

theorem test_isp_register_mode :
    let t := (slotState false 0).ispStep Cfg.reference
    t.eng.trace = [(1, .tx 0x41)] ∧ t.dev.getSr 1 = 1 ∧ t.dev.getSr 0 = 8 ∧ t.dev.ispTxpend = false := by decide
theorem test_isp_dma_mode :
    let t := (slotState true 0xFF).ispStep Cfg.reference
    t.eng.trace = [(1, .tx 0xCD)] ∧ t.bus.sa = 0x100 ∧ t.dev.getSr 1 = 1 ∧ t.dev.ispTxpend = false := by decide
theorem test_isp_done_keeps_other_bits :
    let t := ((slotState false 0).mapDev fun d => (d.setSr 0 0b0011).setSr 1 0b0100).ispStep Cfg.reference
    (t.dev.getSr 0, t.dev.getSr 1) = (0b1011, 0b0101) := by decide
theorem test_receive_immediate :
    let t := ((withSr []).mapDev fun d => { d with ispRxen := true, ispTxen := true }).receive Cfg.reference 0x5A
    [5, 6, 1, 0].map t.dev.getSr = [5, 0xA, 2, 8] ∧ t.dev.ispTxpend = true := by decide
theorem test_press_release : [7, 8, 0].map (State.reset.press Cfg.reference 2).dev.getSr = [4, 4, 2] ∧
    ((State.reset.press Cfg.reference 2).release 2).dev.getSr 8 = 0 ∧
    (State.reset.press Cfg.reference 5).eng.mark = some (.refused (.keyLine 5)) := by decide
theorem test_patch_masks : (State.reset.patchStore (.gr 0 4) 0x1F).regs.x 4 = 15 ∧
    (State.reset.patchStore .pc 0x1234).regs.pc = 0x234 := by decide
theorem test_drain_S10 :
    let m := (((MemoryBus.powerOn.drain .internal).2.writeRaw 20 7).writeRaw 10 7).drain .internal
    m.1 = [5, 10] ∧ (m.2.drain .internal).1 = [] := by decide
theorem test_raw_word : ((MemoryBus.powerOn.writeRawWord 3 0x1234).imem.read 6,
    (MemoryBus.powerOn.writeRawWord 3 0x1234).imem.read 7) = (0x12, 0x34) := by decide

/-! ### WellFormed: an ill-formed term for each check -/

theorem test_illFormed_call : (Instr.call 0 65536).WellFormed = false := by decide
theorem test_illFormed_br : (Instr.br 65536).WellFormed = false := by decide
theorem test_illFormed_jmp : (Instr.jmp 0 65536).WellFormed = false := by decide
theorem test_illFormed_jz : (Instr.jz 65536).WellFormed = false := by decide
theorem test_illFormed_jnz : (Instr.jnz 65536).WellFormed = false := by decide
theorem test_illFormed_jc : (Instr.jc 65536).WellFormed = false := by decide
theorem test_illFormed_jnc : (Instr.jnc 65536).WellFormed = false := by decide
theorem test_illFormed_btb : (Instr.btb 0 0 false 65536).WellFormed = false := by decide
theorem test_illFormed_cib : (Instr.cib 0 0 false 65536).WellFormed = false := by decide
theorem test_illFormed_ijmp : (Instr.ijmp 0 65536).WellFormed = false := by decide
theorem test_wellFormed_largest : (Instr.br 65535).WellFormed = true := by decide

/-! ### Decode. The spec states no word but 0x0000 (R104), so no constructor's word can be written out; what it
states is the byte order (S9) and that 0x0000 is some instruction. -/

theorem test_word_big_endian_S9 : wordOfBytes 0x12 0x34 = 0x1234 ∧ wordHi 0x1234 = 0x12 ∧
    wordLo 0x1234 = 0x34 := by decide
theorem test_fetch_big_endian : { MemoryBus.powerOn with imem :=
    [(0x10, 0xAB), (0x11, 0xCD)] }.fetchOpcode 8 = 0xABCD := by
  decide
theorem test_decode_zero : decode 0 ≠ none := chipCfg_valid.decode_zero

/-- A toy decoder, no part of the spec: the low byte of a word whose high byte is 0x01 is the field of a `br`. -/
def toyDecode (w : Word16) : Option Instr := if wordHi w = 1 then some (.br (wordLo w).toNat) else none

theorem test_encode_finds_least_word : searchWord toyDecode (.br 5) 16 0x100 = some 0x105 := by decide
theorem test_encode_none : searchWord toyDecode .ret 16 0x100 = none := by decide

/-! ### Witnesses: states and operands that meet the hypotheses of each statement that has some -/

/-- A state in which the engine is busy with n more ticks. -/
def busyState (n : Nat) : State := State.reset.setBusy n

/-- A busy state has a next state, whatever the parameters. -/
theorem busyState_steps (s : State) (hm : s.eng.mark = none) (hb : s.eng.busy = 1) : ∃ t, step s = .next t := by
  have h := (State.deviceSteps_kept chipCfg s).busy
  unfold step tickOutcome engineStep
  rw [hm, h, hb]
  exact ⟨_, rfl⟩

theorem witness_BusyTickExecutesNothing : (busyState 1).eng.mark = none ∧ 0 < (busyState 1).eng.busy ∧
    (busyState 7).eng.mark = none ∧ 0 < (busyState 7).eng.busy := by decide

theorem witness_RangedArithmeticRipplesDigits : (Instr.rsbb 3 3 7 6, subDec) ∈
    [(Instr.radd 3 3 7 6, addBin), (.radb 3 3 7 6, addDec), (.rsub 3 3 7 6, subBin), (.rsbb 3 3 7 6, subDec)] := by
  simp

theorem witness_RangedDecimalFormsAreDecimalArithmetic :
    Decimal ((withX [(0, 9), (1, 9)]).regs.digits (window 0 0 1)) ∧
    Decimal ((withX [(0, 9), (1, 9)]).regs.digits (window 1 0 1)) := by
  constructor <;> (unfold Decimal; decide)

/-- The arms of an SR write: with `outi` and with `out`, each special register and a value. -/
theorem witness_WritesSr (k : SRIdx) (v : Nibble) :
    WritesSr (.outi k v) State.reset k v ∧ WritesSr (.out k 2) (withX [(2, 15)]) k 15 :=
  ⟨.inl rfl, .inr ⟨2, rfl, rfl⟩⟩

theorem witness_StoringArms : ∀ k ∈ ([0, 2, 5, 6, 8, 11, 13] : List SRIdx), WritesSr (.outi k 15) State.reset k 15 :=
  fun _ _ => .inl rfl

theorem witness_DisplayWriteReachesCellOrPixels : (withLa 0).lcd.la.toNat < 112 ∧ (withLa 63).lcd.la.toNat < 112 ∧
    (withLa 64).lcd.la.toNat < 112 ∧ (withLa 111).lcd.la.toNat < 112 := by decide

theorem witness_ControlRegisterWriteAppliesEffect : (withLa 112).lcd.la.toNat = 112 + 0 ∧
    (withLa 126).lcd.la.toNat = 112 + 14 ∧
    (withLa 127).lcd.la.toNat = 112 + 15 ∧ ((withLa 127).regs.x 0).getLsbD 0 = false := by decide

theorem witness_DisplayWriteRefusesUnmappedAndTransient : 128 ≤ (withLa 128).lcd.la.toNat ∧
    128 ≤ (withLa 255).lcd.la.toNat ∧
    (withLa 127).lcd.la.toNat = 127 ∧ ((withX [(3, 1)]).setLcd (withLa 127).lcd).lcd.la.toNat = 127 ∧
    (((withX [(3, 1)]).setLcd (withLa 127).lcd).regs.x 3).getLsbD 0 = true ∧
    ((withX [(3, 1)]).setLcd (withLa 126).lcd).lcd.la.toNat = 126 := by decide

theorem witness_PairedDisplayWriteFollowsItsMode : (withLa 125).lcd.la.toNat < 126 ∧
    (withLa 126).lcd.la.toNat = 126 ∧ ((withLa 126).regs.x 2).getLsbD 0 = false ∧
    ((withX [(2, 1)]).setLcd (withLa 126).lcd).lcd.la.toNat < 127 ∧
    (((withX [(2, 1)]).setLcd (withLa 126).lcd).regs.x 2).getLsbD 0 = true ∧
    (withLa 127).lcd.la.toNat = 127 ∧ ((withLa 127).regs.x 2).getLsbD 0 = false ∧
    (withLa 120).lcd.la.toNat < 121 ∧ ¬(withLa 121).lcd.la.toNat < 121 ∧ ¬(withLa 127).lcd.la.toNat < 121 := by decide

theorem witness_CallPushesItsOwnAddress_RetGoesAfterTheNewestEntry : (withPc 0 false false []).regs.stk.length < 3 ∧
    (withPc 0 false false [1, 2, 3]).regs.stk.length = 3 ∧ (withPc 0 false false [1, 2, 3]).regs.stk = [1,
    2] ++ [3] := by
  decide

theorem witness_JumpsGoToTargetOrFallThrough (s : State) : (Instr.jnc 0, !s.regs.cf, chipCfg.jccTarget s.regs.pc 0) ∈
    [(Instr.br 0, true, chipCfg.brTarget s.regs.pc 0), (.jmp 3 0, true, chipCfg.jmpTarget 3 0),
      (.ijmp 0 0, true, chipCfg.ijmpTarget s.regs.pc 0 (s.regs.x 0)),
      (.jz 0, s.regs.zf, chipCfg.jccTarget s.regs.pc 0), (.jnz 0, !s.regs.zf, chipCfg.jccTarget s.regs.pc 0),
      (.jc 0, s.regs.cf, chipCfg.jccTarget s.regs.pc 0), (.jnc 0, !s.regs.cf, chipCfg.jccTarget s.regs.pc 0)] := by
  simp

/-- An instruction and a step that answer a next state, for the statements about next states. -/
theorem witness_NoInstructionWritesMemory : (∃ t, exec (.movi 0 1) State.reset = .next t) ∧
    ∃ t, step (busyState 1) = .next t :=
  ⟨⟨_, rfl⟩, busyState_steps _ rfl rfl⟩

theorem witness_ControlStateWrittenOnlyByItsForms :
    (∃ t, exec (.scb 1) State.reset = .next t ∧ t.regs.cb ≠ State.reset.regs.cb) ∧
    (∃ t, exec (.sab 1) State.reset = .next t ∧ t.regs.ab ≠ State.reset.regs.ab) ∧
    (∃ t, exec (.call 0 0) State.reset = .next t ∧ t.regs.stk ≠ State.reset.regs.stk) ∧
    (∃ t, exec (.cmpi 0 1) State.reset = .next t ∧ t.regs.cf ≠ State.reset.regs.cf) ∧
    (∃ t, exec (.andi 0 0) State.reset = .next t ∧ t.regs.zf ≠ State.reset.regs.zf) :=
  ⟨⟨_, rfl, by decide⟩, ⟨_, rfl, by decide⟩, ⟨_, rfl, by decide⟩, ⟨_, rfl, by decide⟩, ⟨_, rfl, by decide⟩⟩

theorem witness_NonControlFormsAdvanceByOne : isControl (.movi 0 1) = false ∧
    ∃ t, exec (.movi 0 1) State.reset = .next t :=
  ⟨rfl, _, rfl⟩

theorem witness_OtherBanksReachedOnlyByCrossBankMoves :
    (∃ t, exec (.movi 0 1) State.reset = .next t) ∧ (∀ x y, Instr.movi 0 1 ≠ .mvca x y) ∧
    (∀ x y, Instr.movi 0 1 ≠ .mvac x y) ∧
    (1 : Bank) ≠ State.reset.regs.cb ∧
    (State.reset.regs.rawWrite 1 0 7).gr[State.reset.regs.cb] = State.reset.regs.gr[State.reset.regs.cb] :=
  ⟨⟨_, rfl⟩, by simp, by simp, by decide, by decide⟩

theorem witness_DisplayIsWriteOnlyForTheProgram :
    (∃ t, step (busyState 1) = .next t) ∧ ∃ t', step ((busyState 1).setLcd directLcd) = .next t' :=
  ⟨busyState_steps _ rfl rfl, busyState_steps _ rfl rfl⟩

theorem witness_StepRunsTheDecodedInstruction : ∀ pc ∈ ([0, 0xBFF] : List Addr12),
    let s := withPc pc false false []
    s.eng.mark = none ∧ s.eng.busy = 0 ∧ s.regs.pc.toNat < 0xC00 := by decide

theorem witness_FetchBeyondInternalRegionFaults : ∀ pc ∈ ([0xC00, 0xFFF] : List Addr12),
    let s := withPc pc false false []
    s.eng.mark = none ∧ s.eng.busy = 0 ∧ 0xC00 ≤ s.regs.pc.toNat := by decide

/-- A state beyond the internal region steps to a fault, whatever the parameters. -/
theorem faultState_steps (s : State) (hm : s.eng.mark = none) (hb : s.eng.busy = 0) (hp : pcBacked s.regs.pc = false) :
    step s = .fault (.fetchOutsideInternal s.regs.pc) := by
  have h := State.deviceSteps_kept chipCfg s
  unfold step tickOutcome engineStep fetchDecode
  rw [hm, h.busy, hb, h.regs, hp]
  rfl

theorem witness_TickSetsStickyMarkExactlyOnStops : (∃ t, step (busyState 1) = .next t) ∧
    step (withPc 0xC00 false false []) = .fault (.fetchOutsideInternal 0xC00) ∧
    (State.reset.raise (.refused (.keyLine 4))).eng.mark = some (.refused (.keyLine 4)) ∧
    step (State.reset.raise (.refused (.keyLine 4))) = .refused (.keyLine 4) ∧
    (withPc 0xC00 false false []).eng.mark = none ∧
    step (withPc 0xC00 false false []) = (Mark.fault (.fetchOutsideInternal 0xC00)).outcome ∧
    ¬(withPc 0xC00 false false []).regs.pc.toNat < 0xC00 :=
  ⟨busyState_steps _ rfl rfl, faultState_steps _ rfl rfl rfl, rfl, rfl, rfl, faultState_steps _ rfl rfl rfl, by decide⟩

theorem witness_TimerZeroCountsSecondsNibble : State.reset.dev.t0 = 0 := rfl

/-- All four sources are due at once at the end of a period of 1024 ticks with SR14 at 15, and enabled. -/
theorem witness_TimerZeroRaisesEnabledSources (src : Timer0Source) :
    Cfg.reference.sr13Enables src ((withSr [(13, 15)]).dev.getSr 13) = true ∧
    Timer0Due { (withSr [(13, 15), (14, 15)]).dev with t0 := 1023 } src := by
  cases src <;> (unfold Timer0Due; decide)

/-- The gate closed; and open with the digit at 9 and at 12, which a rollover follows in 38 steps, and at 0. -/
theorem witness_TimerOneCountsGatedTicks : testBit (State.reset.dev.getSr 9) Cfg.reference.t1GateBit = false ∧
    ∀ v ∈ ([0, 9, 12] : List Nibble), let d := (withSr [(9, 8), (10, v)]).dev
      testBit (d.getSr 9) Cfg.reference.t1GateBit = true ∧ d.t1 ≤ 37 ∧ d.t1 + 37 < 38 ∧ 38 ≤ d.t1 + 38 := by decide

theorem witness_IspSlotTransmitsOneByte : ¬(State.reset.dev.ispTxpend = true) ∧
    (∀ dma rx, let s := (slotState dma 0).mapDev fun d => { d with ispRxen := rx }
      (s.dev.ispDiv + 1) % 24 = 0 ∧ s.dev.ispTxpend = true ∧ s.dev.ispTxen = true ∧ s.dev.ispMode = dma ∧
      s.dev.ispRxen = rx) ∧
    ((slotState true 0xFF).ispStep Cfg.reference).bus.sa.toNat % Cfg.reference.ispPage = 0 ∧
    ¬((slotState true 0xFE).ispStep Cfg.reference).bus.sa.toNat % Cfg.reference.ispPage = 0 := by decide

/-- The reset state with the ISP enabled to receive. -/
def rxState (dma pend : Bool) : State :=
  State.reset.mapDev fun d => { d with ispRxen := true, ispMode := dma, ispTxpend := pend }

/-- The reset state lies in the ranges, and so does it with the ISP's bits set. -/
theorem rxState_inv (dma pend : Bool) : (rxState dma pend).Inv where
  stk_length := Nat.zero_le _
  ispDiv_range := Nat.zero_le _
  t1_range := Nat.zero_le _
  busy_range := Nat.zero_le _
  cursor_range := Nat.zero_le _
  contrast_range := Nat.le_of_lt_succ chipCfg.contrastReset.isLt
  imem_wf := rfl
  xmem_wf := rfl
  dirtyI_wf := by
    show WordSet.wf _ MemoryBus.powerOn.dirtyI = true
    rw [MemoryBus.powerOn_dirtyI]; exact WordSet.range_wf _
  dirtyX_wf := by
    show WordSet.wf _ MemoryBus.powerOn.dirtyX = true
    rw [MemoryBus.powerOn_dirtyX]; exact WordSet.range_wf _

theorem witness_ReceiveStoresOrRaisesImmediateData : Cfg.reference.ispStatusSr ≠ 5 ∧
    Cfg.reference.ispStatusSr ≠ 6 ∧ State.reset.dev.ispRxen = false ∧
    (rxState true false).dev.ispRxen = true ∧ (rxState true false).dev.ispMode = true ∧
    (rxState true false).dev.ispTxpend = false ∧ (rxState true false).Inv ∧
    (rxState true true).dev.ispRxen = true ∧ ¬((rxState true true).dev.ispMode = true ∧
    (rxState true true).dev.ispTxpend = false) :=
  ⟨by decide, by decide, rfl, rfl, rfl, rfl, rxState_inv _ _, rfl, by decide⟩

theorem witness_KeysSetAndClearLineBits : State.reset.eng.mark = none ∧ State.reset.dev.sw = .disabled ∧ 3 < 4 ∧
    4 ≤ 4 := by
  decide

theorem witness_StopwatchFollowsItsTable (sw : Stopwatch) : (State.reset.mapDev fun d => { d with sw :=
    sw }).dev.sw = sw ∧ (State.reset.mapDev fun d => { d with sw := sw }).eng.mark = none ∧
    ((State.reset.mapDev fun d => { d with sw := sw }).raise (.refused (.keyLine 4))).eng.mark ≠ none :=
  ⟨rfl, rfl, by cases sw <;> decide⟩

theorem witness_BlinkGlyphFlipsEveryPeriod : State.reset.lcd.blinkCtr = 0 ∧
    Cfg.reference.ctrlOn State.reset.lcd.dctrl[8] = false ∧
    Cfg.reference.ctrlOn (State.reset.lcd.dctrl.set 8 1)[8] = true := by decide

theorem witness_RasterStepMovesCursorByFour : State.reset.lcd.cursor ≤ 512 ∧ State.reset.lcd.redrawReq = false ∧
    (∀ i : Fin 16, Cfg.reference.ctrlOn State.reset.lcd.dctrl[i] = false) ∧
    Cfg.reference.ctrlOn directLcd.dctrl[7] = true ∧
    { State.reset.lcd with cursor := 512, redrawReq := true }.cursor = 512 := by decide

theorem witness_SteadyFrameIsDrawnInOneSweep : Cfg.reference.Valid ∧ Cfg.reference.scanCells = Config.refScanCells ∧
    Cfg.reference.mirrorMode State.reset.lcd.dctrl[0] = .none ∧
    Cfg.reference.mirrorMode State.reset.lcd.dctrl[1] = .none ∧
    (∀ i : Fin 16, Cfg.reference.ctrlOn State.reset.lcd.dctrl[i] = false) ∧ State.reset.lcd.cursor = 0 :=
  ⟨Cfg.reference_valid, rfl, by decide⟩

theorem witness_StepKeepsRanges : ((rxState true false).setBusy 1).Inv ∧
    ∃ t, step ((rxState true false).setBusy 1) = .next t :=
  ⟨{ rxState_inv true false with busy_range := by decide }, busyState_steps _ rfl rfl⟩

theorem witness_RunsKeepRanges : (rxState false false).Inv := rxState_inv _ _

theorem witness_LoadedImageIsFetchedBigEndian : 0 < 3072 ∧ 3071 < 3072 := by decide

theorem witness_DebugPatchStoresRaw : 16 ≤ 16 ∧ 64 ≤ 64 ∧ (4 ≤ 4 ∨ 32 ≤ 0) ∧ (4 ≤ 0 ∨ 32 ≤ 32) := by decide

theorem witness_DebugPatchAppliesEntriesInOrder : State.reset.bus.imem.wf imemSize = true ∧ 0 < 3072 ∧ 3071 < 3072 ∧
    3072 ≤ 3072 := by
  decide

/-- Some word decodes, to a form that is well formed. -/
theorem witness_ZeroWordDecodesAndDecodedFormsAreWellFormed : ∃ w i, decode w = some i := by
  cases h : decode 0 with
  | none => exact absurd h chipCfg_valid.decode_zero
  | some i => exact ⟨0, i, h⟩

/-- A search finds a word that is there. -/
theorem searchWord_finds (dec : Word16 → Option Instr) (i : Instr) (n w : Nat) (h : dec (BitVec.ofNat 16 w) = some i) :
    searchWord dec i (n + 1) w = some (BitVec.ofNat 16 w) := if_pos h

/-- Some form has an encoding, and an ill-formed one has none. -/
theorem witness_DecodeOfEncodeIsTheForm : ∃ i bs, encodeBytes i = some bs := by
  cases h : decode 0 with
  | none => exact absurd h chipCfg_valid.decode_zero
  | some i =>
    refine ⟨i, [wordHi 0, wordLo 0], ?_⟩
    unfold encodeBytes encode encodeWith
    rw [show (65536 : Nat) = 65535 + 1 from rfl, searchWord_finds decode i 65535 0 h]
    rfl

end Sys2Proof.Tests
end

