-- ==== Sys2Proof/Proofs/StickyMark.lean ====
section
/-! PROOFS. Stops and the sticky mark (R13, R403, R416): what an instruction can answer, what a stop keeps of the
instruction's writes, and the agreement of the tick with the step. -/

namespace Sys2Proof.Machine

/-! ### What an instruction answers -/

/-- Of the engine's state an instruction writes at most the record of the output ports: the busy count, the cycle
count and the mark are the tick's own (R403 to R405). -/
def EngineKept (s t : State) : Prop := t.eng = { s.eng with trace := t.eng.trace }

theorem EngineKept.mark {s t : State} (h : EngineKept s t) : t.eng.mark = s.eng.mark := by
  unfold EngineKept at h; rw [h]

theorem State.srWrite_engineKept (c : Cfg) (k : SRIdx) (v : Nibble) (s : State) : EngineKept s (s.srWrite c k v) := by
  rw [State.srWrite_eq]; rfl

/-- The two answers open to an instruction: a next state, or a refusal. A fault is the fetch's alone (R351). -/
def Answers (s : State) (o : Host.Outcome State Fault Refusal) : Prop :=
  (∃ t, o = .next t ∧ EngineKept s t) ∨ ∃ r, o = .refused r

theorem State.finishDisplay_answers (s : State) (res : Except Refusal Lcd) : Answers s (s.finishDisplay res) := by
  cases res with
  | ok l => exact .inl ⟨_, rfl, rfl⟩
  | error r => exact .inr ⟨r, rfl⟩

theorem exec_answers (i : Instr) (s : State) : Answers s (exec i s) := by
  cases i with
  | dw y => exact s.finishDisplay_answers _
  | dw2 y1 y2 => exact s.finishDisplay_answers _
  | out k y => exact .inl ⟨_, rfl, s.srWrite_engineKept chipCfg k (s.regs.x y)⟩
  | outi k v => exact .inl ⟨_, rfl, s.srWrite_engineKept chipCfg k v⟩
  | wfe => exact .inl ⟨_, rfl, by unfold EngineKept; split <;> rfl⟩
  | xld | xst | ssa | sla | bsar => exact .inr ⟨_, rfl⟩
  | _ => exact .inl ⟨_, rfl, rfl⟩

theorem exec_next_engineKept {i : Instr} {s t : State} (h : exec i s = .next t) : EngineKept s t := by
  obtain ⟨u, hu, hk⟩ | ⟨r, hr⟩ := exec_answers i s
  · rw [h] at hu; cases hu; exact hk
  · rw [h] at hr; cases hr

theorem exec_ne_fault (i : Instr) (s : State) (r : Fault) : exec i s ≠ .fault r := by
  intro h
  obtain ⟨u, hu, -⟩ | ⟨r', hr⟩ := exec_answers i s
  · rw [h] at hu; cases hu
  · rw [h] at hr; cases hr

/-! ### What a refused instruction has written -/

theorem State.finishDisplay_eq_next {s t : State} {res : Except Refusal Lcd} :
    s.finishDisplay res = .next t ↔ ∃ l, res = .ok l ∧ t = (s.setLcd l).mapRegs RegFile.advance := by
  cases res <;> simp [State.finishDisplay, eq_comm]

/-- The first write of a `dw2` is the write of the `dw` of its first operand (R204, R205). -/
theorem exec_dw_eq_next {y : Reg} {s t : State} :
    exec (.dw y) s = .next t ↔ ∃ l, dw2First chipCfg y s = .ok l ∧ t = (s.setLcd l).mapRegs RegFile.advance :=
  State.finishDisplay_eq_next

/-- The instruction is a `dw2` of two writes whose first write is done and leaves the display `l` (R205, log 21). -/
def FirstWriteDone (c : Cfg) (i : Instr) (s : State) (l : Lcd) : Prop :=
  ∃ y1 y2, i = .dw2 y1 y2 ∧ c.dw2Mode = .twoNibbles ∧ dw2First c y1 s = .ok l

theorem stateAtRefusal_of_firstWriteDone {c : Cfg} {i : Instr} {s : State} {l : Lcd} (h : FirstWriteDone c i s l) :
    stateAtRefusal c i s = s.setLcd l := by
  obtain ⟨y1, y2, rfl, hmode, hfirst⟩ := h
  simp only [stateAtRefusal, hmode, hfirst]

theorem stateAtRefusal_of_not_firstWriteDone {c : Cfg} {i : Instr} {s : State} (h : ¬∃ l, FirstWriteDone c i s l) :
    stateAtRefusal c i s = s := by
  cases i with
  | dw2 y1 y2 =>
    simp only [stateAtRefusal]
    split
    · next l hmode hfirst => exact absurd ⟨l, y1, y2, rfl, hmode, hfirst⟩ h
    · rfl
  | _ => rfl

/-- The display in which a stop of the engine leaves a state: that after the writes of the fetched instruction if
there is one (R403, R416). -/
def lcdAtStop (fetch : State → FetchResult) (s : State) : Lcd :=
  match fetch s with
  | .ok i => (stateAtRefusal chipCfg i s).lcd
  | .error _ => s.lcd

theorem lcdAtStop_of_firstWriteDone {fetch : State → FetchResult} {i : Instr} {s : State} {l : Lcd}
    (hi : fetch s = .ok i) (h : FirstWriteDone chipCfg i s l) : lcdAtStop fetch s = l := by
  simp only [lcdAtStop, hi, stateAtRefusal_of_firstWriteDone h, State.setLcd_lcd]

theorem lcdAtStop_of_not_firstWriteDone {fetch : State → FetchResult} {s : State}
    (h : ∀ i l, fetch s = .ok i → ¬FirstWriteDone chipCfg i s l) : lcdAtStop fetch s = s.lcd := by
  unfold lcdAtStop
  split
  · next i hi => rw [stateAtRefusal_of_not_firstWriteDone fun ⟨l, hl⟩ => h i l hi hl]
  · rfl

/-- Nothing but the display is written before a refusal. -/
theorem stateAtRefusal_eq_setLcd (c : Cfg) (i : Instr) (s : State) :
    stateAtRefusal c i s = s.setLcd (stateAtRefusal c i s).lcd := by
  by_cases h : ∃ l, FirstWriteDone c i s l
  · obtain ⟨l, hl⟩ := h
    rw [stateAtRefusal_of_firstWriteDone hl]; rfl
  · rw [stateAtRefusal_of_not_firstWriteDone h]; rfl

/-! ### Marks -/

/-- The state with the mark put, whatever it carried. -/
def State.withMark (s : State) (m : Mark) : State := { s with eng := { s.eng with mark := some m } }

theorem State.raise_unmarked {s : State} (h : s.eng.mark = none) (m : Mark) : s.raise m = s.withMark m := by
  unfold State.raise; rw [h]; rfl

theorem Mark.outcome_ne_next (m : Mark) (t : State) : m.outcome ≠ .next t := by cases m <;> exact nofun

theorem Mark.outcome_injective : Function.Injective Mark.outcome := by
  intro m n h
  cases m <;> cases n <;> cases h <;> rfl

/-! ### The tick and the step -/

theorem tickOutcome_marked (fetch : State → FetchResult) {s : State} {m : Mark} (h : s.eng.mark = some m) :
    tickOutcome fetch s = m.outcome := by
  unfold tickOutcome; rw [h]

theorem tickWith_marked (fetch : State → FetchResult) {s : State} {m : Mark} (h : s.eng.mark = some m) :
    tickWith fetch s = s := by
  unfold tickWith; rw [h]

/-- A next state of the step is the tick's (R403, log 8). -/
theorem tickWith_of_next {fetch : State → FetchResult} {s t : State} (h : tickOutcome fetch s = .next t) :
    tickWith fetch s = t := by
  have hm := (tickOutcome_next h).1
  unfold tickOutcome at h
  unfold tickWith
  simp only [hm] at h ⊢
  cases he : engineStep fetch (s.deviceSteps chipCfg) with
  | next u => rw [he] at h; cases h; rfl
  | fault r | refused r => rw [he] at h; cases h

/-- A next state carries no mark: no instruction sets one (R13, R403). -/
theorem tickOutcome_next_unmarked {fetch : State → FetchResult} {s t : State} (h : tickOutcome fetch s = .next t) :
    t.eng.mark = none := by
  obtain ⟨hm, ⟨-, rfl⟩ | ⟨-, i, u, -, hu, rfl⟩⟩ := tickOutcome_next h
  · exact (State.deviceSteps_kept chipCfg s).mark.trans hm
  · exact ((exec_next_engineKept hu).mark.trans (State.deviceSteps_kept chipCfg s).mark).trans hm

/-- The ways the engine stops: the fetch leaves a mark, or the fetched instruction refuses (R351, R405). -/
theorem engineStep_stop {fetch : State → FetchResult} {s : State} {m : Mark} (h : engineStep fetch s = m.outcome) :
    fetch s = .error m ∨ ∃ i r, fetch s = .ok i ∧ m = .refused r := by
  unfold engineStep at h
  split at h
  · exact absurd h.symm (m.outcome_ne_next _)
  · split at h
    · next n hn => exact .inl (hn.trans (congrArg _ (Mark.outcome_injective h)))
    · next i hi =>
      split at h
      · exact absurd h.symm (m.outcome_ne_next _)
      · next r hr => exact absurd hr (exec_ne_fault i s r)
      · next r _ => exact .inr ⟨i, r, hi, (Mark.outcome_injective (a₁ := .refused r) h).symm⟩

/-- The step of an unmarked state stops exactly as its engine does after the device steps (R403). -/
theorem tickOutcome_stop {fetch : State → FetchResult} {s : State} {m : Mark} (hs : s.eng.mark = none)
    (h : tickOutcome fetch s = m.outcome) : engineStep fetch (s.deviceSteps chipCfg) = m.outcome := by
  unfold tickOutcome at h
  simp only [hs] at h
  split at h
  · exact absurd h.symm (m.outcome_ne_next _)
  · next r hr => exact hr.trans h
  · next r hr => exact hr.trans h

/-- The whole state of a stopped tick: that after the device steps, with the display writes done before the stop and
the mark (R403, R416, log 21). -/
theorem tickWith_of_stop {fetch : State → FetchResult} {s : State} {m : Mark} (hs : s.eng.mark = none)
    (h : tickOutcome fetch s = m.outcome) :
    tickWith fetch s =
      ((s.deviceSteps chipCfg).setLcd (lcdAtStop fetch (s.deviceSteps chipCfg))).withMark m := by
  have he := tickOutcome_stop hs h
  have hd : (s.deviceSteps chipCfg).eng.mark = none := (State.deviceSteps_kept chipCfg s).mark.trans hs
  unfold tickWith
  simp only [hs, he]
  obtain hf | ⟨i, r, hf, rfl⟩ := engineStep_stop he
  · cases m <;> simp only [Mark.outcome, hf, lcdAtStop, State.raise_unmarked hd] <;> rfl
  · simp only [Mark.outcome, hf, lcdAtStop]
    rw [State.raise_unmarked (by rw [stateAtRefusal_eq_setLcd]; exact hd), ← stateAtRefusal_eq_setLcd]

theorem tickWith_mark_of_stop {fetch : State → FetchResult} {s : State} {m : Mark}
    (h : tickOutcome fetch s = m.outcome) : (tickWith fetch s).eng.mark = some m := by
  cases hs : s.eng.mark with
  | none => rw [tickWith_of_stop hs h]; rfl
  | some n =>
    rw [tickWith_marked fetch hs, hs, ← Mark.outcome_injective ((tickOutcome_marked fetch hs).symm.trans h)]

/-! ### The first write of a stopped `dw2`, as its step finds it -/

theorem fetchDecode_eq_ok {s : State} {i : Instr} :
    fetchDecode s = .ok i ↔ s.regs.pc.toNat < 0xC00 ∧ decode (s.bus.fetchOpcode s.regs.pc) = some i := by
  unfold fetchDecode pcBacked
  split
  · next hpc =>
    have hlt : s.regs.pc.toNat < 0xC00 := of_decide_eq_true hpc
    split
    · next j hj => simp [hlt, hj]
    · next hj => simp [hj]
  · next hpc =>
    have hge : ¬s.regs.pc.toNat < 0xC00 := fun hlt => hpc (decide_eq_true hlt)
    simp [hge]

/-- The device steps do not touch what the fetch reads (R72, R403). -/
theorem fetchDecode_deviceSteps (s : State) : fetchDecode (s.deviceSteps chipCfg) = fetchDecode s :=
  have hk := State.deviceSteps_kept chipCfg s
  fetchDecode_congr (congrArg RegFile.pc hk.regs) hk.imem

/-- Nor what a display write reads (R204, R403). -/
theorem dw2First_deviceSteps (c : Cfg) (y : Reg) (s : State) :
    dw2First c y (s.deviceSteps chipCfg) = dw2First c y s := by
  have hk := State.deviceSteps_kept chipCfg s
  unfold dw2First; rw [hk.regs, hk.lcd]

/-- The display of a stopped tick is that of the first write where the PC names a `dw2` of two writes whose first
write is done. -/
theorem lcdAtStop_dw2 {s t : State} {y1 y2 : Reg} (hd : decode (s.bus.fetchOpcode s.regs.pc) = some (.dw2 y1 y2))
    (hpc : s.regs.pc.toNat < 0xC00) (hmode : chipCfg.dw2Mode = .twoNibbles) (hw : exec (.dw y1) s = .next t) :
    lcdAtStop fetchDecode (s.deviceSteps chipCfg) = t.lcd := by
  obtain ⟨l, hl, rfl⟩ := exec_dw_eq_next.1 hw
  have hfetch : fetchDecode (s.deviceSteps chipCfg) = .ok (.dw2 y1 y2) :=
    (fetchDecode_deviceSteps s).trans (fetchDecode_eq_ok.2 ⟨hpc, hd⟩)
  exact lcdAtStop_of_firstWriteDone hfetch ⟨y1, y2, rfl, hmode, (dw2First_deviceSteps chipCfg y1 s).trans hl⟩

/-- And else it is the display of the state before the tick. -/
theorem lcdAtStop_no_dw2 {s : State}
    (h : ¬(s.regs.pc.toNat < 0xC00 ∧ chipCfg.dw2Mode = .twoNibbles ∧ ∃ y1 y2 t,
      decode (s.bus.fetchOpcode s.regs.pc) = some (.dw2 y1 y2) ∧ exec (.dw y1) s = .next t)) :
    lcdAtStop fetchDecode (s.deviceSteps chipCfg) = s.lcd := by
  refine (lcdAtStop_of_not_firstWriteDone ?_).trans (State.deviceSteps_kept chipCfg s).lcd
  rintro _ l hfetch ⟨y1, y2, rfl, hmode, hfirst⟩
  obtain ⟨hpc, hd⟩ := fetchDecode_eq_ok.1 ((fetchDecode_deviceSteps s).symm.trans hfetch)
  have hw := exec_dw_eq_next.2 ⟨l, (dw2First_deviceSteps chipCfg y1 s).symm.trans hfirst, rfl⟩
  exact h ⟨hpc, hmode, y1, y2, _, hd, hw⟩

/-- Settles O40: a next state by the inversion of the step, a stop by the whole state of a stopped tick, whose display
is looked up by whether the fetched form is a `dw2` of two writes with the first one done. -/
theorem tickSetsStickyMarkExactlyOnStops : Obligations.TickSetsStickyMarkExactlyOnStops := by
  unfold Obligations.TickSetsStickyMarkExactlyOnStops
  refine ⟨fun s t h => ⟨tickWith_of_next h, tickOutcome_next_unmarked h⟩,
    fun s r h => tickWith_mark_of_stop (m := .fault r) h,
    fun s r h => tickWith_mark_of_stop (m := .refused r) h,
    fun s m h => ⟨tickWith_marked fetchDecode h, tickOutcome_marked fetchDecode h⟩, fun s m hs h => ?_⟩
  have hk := State.deviceSteps_kept chipCfg s
  have ht : tick s = ((s.deviceSteps chipCfg).setLcd _).withMark m := tickWith_of_stop hs h
  rw [ht]
  exact ⟨hk.regs, rfl, rfl, hk.imem, rfl, hk.cycles, hk.busy,
    fun _ _ _ hd hpc hmode hw => lcdAtStop_dw2 hd hpc hmode hw, lcdAtStop_no_dw2⟩

end Sys2Proof.Machine
end

