-- ==== Sys2Proof/Proofs/StateRules.lean ====
section
/-! PROOFS. The rules over the state (spec/10_state.md): what an instruction writes of the register file (R21 to R32),
what it does not read of it (R21, R26), what the display does not reach (R41), and the ranges of the state elements
(R29, R35, R36, R38, R40, R70, R78). -/

namespace Sys2Proof.Machine

/-! ### What holds of a next state -/

/-- A property of the next state, for an outcome that may be a stop. -/
def OnNext (p : State → Prop) : Host.Outcome State Fault Refusal → Prop
  | .next t => p t
  | _ => True

theorem OnNext.of_eq {p : State → Prop} {o : Host.Outcome State Fault Refusal} {t : State} (h : OnNext p o)
    (ht : o = .next t) : p t := by
  subst ht; exact h

theorem State.finishDisplay_onNext {p : State → Prop} {s : State} {res : Except Refusal Lcd}
    (h : ∀ l, res = .ok l → p ((s.setLcd l).mapRegs RegFile.advance)) : OnNext p (s.finishDisplay res) := by
  cases res with
  | ok l => exact h l rfl
  | error r => trivial

/-! ### What the data forms do to the register file -/

/-- A form that works in the current bank and goes to PC + 1: it keeps the banks, the stack and the registers of the
other banks (R21, R24, R29). Flags, the current bank's registers and bSA are left open. -/
structure RegFile.DataStep (r r' : RegFile) : Prop where
  cb : r'.cb = r.cb
  ab : r'.ab = r.ab
  stk : r'.stk = r.stk
  pc : r'.pc = r.pc + 1
  otherBanks : ∀ b i, b ≠ r.cb → r'.reg b i = r.reg b i

/-- Writes in the current bank and nothing else: the control state and the other banks' registers are kept. -/
structure RegFile.CurrentBankWritten (r r' : RegFile) : Prop where
  control : r.SameControl r'
  otherBanks : ∀ b i, b ≠ r.cb → r'.reg b i = r.reg b i

theorem RegFile.CurrentBankWritten.refl (r : RegFile) : r.CurrentBankWritten r := ⟨.refl r, fun _ _ _ => rfl⟩

theorem RegFile.CurrentBankWritten.trans {r r' r'' : RegFile} (h : r.CurrentBankWritten r')
    (h' : r'.CurrentBankWritten r'') : r.CurrentBankWritten r'' where
  control := h.control.trans h'.control
  otherBanks b i hb := (h'.otherBanks b i (h.control.cb ▸ hb)).trans (h.otherBanks b i hb)

theorem RegFile.writeX_currentBankWritten (r : RegFile) (i : Reg) (v : Nibble) :
    r.CurrentBankWritten (r.writeX i v) where
  control := r.writeX_sameControl i v
  otherBanks b j hb := by rw [RegFile.reg_writeX, if_neg fun h => hb h.1]

theorem RegFile.writeAll_currentBankWritten (l : List (Reg × Nibble)) (r : RegFile) :
    r.CurrentBankWritten (RegFile.writeAll l r) where
  control := r.writeAll_sameControl l
  otherBanks b i hb := RegFile.writeAll_reg_other l r b i (.inl hb)

theorem RegFile.moveAll_currentBankWritten (l : List (Reg × Reg)) (r : RegFile) :
    r.CurrentBankWritten (RegFile.moveAll l r) := by
  induction l generalizing r with
  | nil => exact .refl r
  | cons p t ih => exact (r.writeX_currentBankWritten p.1 (r.x p.2)).trans (ih _)

theorem RegFile.rippleLoop_currentBankWritten (f : DigitFn) (keep : Bool) (l : List (Reg × Reg)) (r : RegFile)
    (c z : Bool) : r.CurrentBankWritten (RegFile.rippleLoop f keep l r c z).1 := by
  induction l generalizing r c z with
  | nil => exact .refl r
  | cons p t ih =>
    cases keep with
    | true => exact (r.writeX_currentBankWritten _ _).trans (ih _ _ _)
    | false => exact ih _ _ _

theorem RegFile.CurrentBankWritten.advance {r r' : RegFile} (h : r.CurrentBankWritten r') : r.DataStep r'.advance :=
  ⟨h.control.cb, h.control.ab, h.control.stk, congrArg (· + 1) h.control.pc, h.otherBanks⟩

theorem RegFile.aluDigit_dataStep (r : RegFile) (f : DigitFn) (x : Reg) (b : Nibble) :
    r.DataStep (r.aluDigit f x b) :=
  have h := r.writeX_currentBankWritten x (f (r.x x) b false).1
  ⟨rfl, rfl, rfl, rfl, h.otherBanks⟩

theorem RegFile.compareDigit_dataStep (r : RegFile) (x : Reg) (b : Nibble) : r.DataStep (r.compareDigit x b) :=
  ⟨rfl, rfl, rfl, rfl, fun _ _ _ => rfl⟩

theorem RegFile.logicDigit_dataStep (r : RegFile) (f : Nibble → Nibble → Nibble) (x : Reg) (i : Nibble) :
    r.DataStep (r.logicDigit f x i) :=
  have h := r.writeX_currentBankWritten x (f (r.x x) i)
  ⟨rfl, rfl, rfl, rfl, h.otherBanks⟩

theorem RegFile.rippleForm_dataStep (r : RegFile) (f : DigitFn) (keep : Bool) (pd ps : Page) (hi lo : Off3) :
    r.DataStep (r.rippleForm f keep pd ps hi lo) :=
  have h := (r.rippleLoop_currentBankWritten f keep (windowPairs pd ps hi lo).reverse false true).advance
  ⟨h.cb, h.ab, h.stk, h.pc, h.otherBanks⟩

/-! ### What every form writes of the register file -/

/-- What an instruction may write of the register file beside the current bank and bSA: each part of the control state
and the other banks only by the forms the rules name (R21, R24, R27, R28, R29, R185). -/
structure RegFrame (i : Instr) (r r' : RegFile) : Prop where
  cb : r'.cb = r.cb ∨ ∃ n, i = .scb n
  ab : r'.ab = r.ab ∨ ∃ n, i = .sab n
  stk : r'.stk = r.stk ∨ i = .ret ∨ ∃ v f, i = .call v f
  cf : r'.cf = r.cf ∨ writesCarry i = true
  zf : r'.zf = r.zf ∨ writesZero i = true
  pc : r'.pc = r.pc + 1 ∨ isControl i = true
  otherBanks : (∀ b j, b ≠ r.cb → r'.reg b j = r.reg b j) ∨ ∃ x y, i = .mvca x y

/-- A data form with the flags it may write. -/
theorem RegFile.DataStep.frame {i : Instr} {r r' : RegFile} (h : r.DataStep r')
    (hc : r'.cf = r.cf ∨ writesCarry i = true) (hz : r'.zf = r.zf ∨ writesZero i = true) : RegFrame i r r' :=
  ⟨.inl h.cb, .inl h.ab, .inl h.stk, hc, hz, .inl h.pc, .inl h.otherBanks⟩

/-- A move: writes in the current bank, then PC + 1. -/
theorem RegFile.CurrentBankWritten.frame {i : Instr} {r r' : RegFile} (h : r.CurrentBankWritten r') :
    RegFrame i r r'.advance :=
  h.advance.frame (.inl h.control.cf) (.inl h.control.zf)

theorem RegFile.advance_frame (i : Instr) (r : RegFile) : RegFrame i r r.advance :=
  (RegFile.CurrentBankWritten.refl r).frame

/-- A control transfer: the PC changes, and the call stack where the form is `call` or `ret`. -/
theorem RegFile.transfer_frame {i : Instr} (r : RegFile) (stk : List Addr12) (pc : Addr12)
    (hi : isControl i = true) (hs : stk = r.stk ∨ i = .ret ∨ ∃ v f, i = .call v f) :
    RegFrame i r { r with stk := stk, pc := pc } :=
  ⟨.inl rfl, .inl rfl, hs, .inl rfl, .inl rfl, .inr hi, .inl fun _ _ _ => rfl⟩

theorem RegFile.branch_frame {i : Instr} (r : RegFile) (taken : Bool) (target : Addr12) (hi : isControl i = true) :
    RegFrame i r (r.branch taken target) := by
  cases taken with
  | true => exact r.transfer_frame r.stk target hi (.inl rfl)
  | false => exact r.advance_frame i

theorem exec_ret_empty {s : State} (h : s.regs.stk = []) : exec .ret s = .next (s.mapRegs RegFile.advance) := by
  simp [exec, execRet, State.mapRegs, popStack, h]

theorem exec_ret_concat {s : State} {rest : List Addr12} {a : Addr12} (h : s.regs.stk = rest ++ [a]) :
    exec .ret s = .next (s.mapRegs fun r => { r with stk := rest, pc := a + 1 }) := by
  simp [exec, execRet, State.mapRegs, popStack, h]

/-- The frame of a form that ends with the register file mapped by `f`. -/
theorem RegFrame.onNext {i : Instr} {s : State} {f : RegFile → RegFile} (h : RegFrame i s.regs (f s.regs)) :
    OnNext (fun t => RegFrame i s.regs t.regs) (.next (s.mapRegs f)) := h

theorem exec_ret_frame (s : State) : OnNext (fun t => RegFrame .ret s.regs t.regs) (exec .ret s) := by
  obtain h | ⟨rest, a, h⟩ := List.eq_nil_or_concat' s.regs.stk
  · rw [exec_ret_empty h]; exact s.regs.advance_frame .ret
  · rw [exec_ret_concat h]
    exact s.regs.transfer_frame rest (a + 1) rfl (.inr (.inl rfl))

theorem exec_regFrame (i : Instr) (s : State) : OnNext (fun t => RegFrame i s.regs t.regs) (exec i s) := by
  cases i with
  | add x y | adb x y | sub x y | sbb x y =>
    exact .onNext ((s.regs.aluDigit_dataStep _ x _).frame (.inr rfl) (.inr rfl))
  | addi x v | adbi x v | subi x v | sbbi x v =>
    exact .onNext ((s.regs.aluDigit_dataStep _ x v).frame (.inr rfl) (.inr rfl))
  | radd pd ps hi lo | radb pd ps hi lo | rsub pd ps hi lo | rsbb pd ps hi lo | rcmp pd ps hi lo =>
    exact .onNext ((s.regs.rippleForm_dataStep _ _ pd ps hi lo).frame (.inr rfl) (.inr rfl))
  | cmp x y => exact .onNext ((s.regs.compareDigit_dataStep x _).frame (.inr rfl) (.inr rfl))
  | cmpi x v => exact .onNext ((s.regs.compareDigit_dataStep x v).frame (.inr rfl) (.inr rfl))
  | andi x v | ori x v | xori x v => exact .onNext ((s.regs.logicDigit_dataStep _ x v).frame (.inl rfl) (.inr rfl))
  | rshl p hi lo | rshr p hi lo | rclr p hi lo => exact .onNext (s.regs.writeAll_currentBankWritten _).frame
  | rmov pd ps hi lo => exact .onNext (s.regs.moveAll_currentBankWritten _).frame
  | mov x y | movi x v | mvac x y => exact .onNext (s.regs.writeX_currentBankWritten x _).frame
  | inp x k => exact (s.regs.writeX_currentBankWritten x (s.dev.srRead k).1).frame (i := .inp x k)
  | mvca x y => exact .onNext ⟨.inl rfl, .inl rfl, .inl rfl, .inl rfl, .inl rfl, .inl rfl, .inr ⟨x, y, rfl⟩⟩
  | scb n =>
    exact .onNext ⟨.inr ⟨n, rfl⟩, .inl rfl, .inl rfl, .inl rfl, .inl rfl, .inl rfl, .inl fun _ _ _ => rfl⟩
  | sab n =>
    exact .onNext ⟨.inl rfl, .inr ⟨n, rfl⟩, .inl rfl, .inl rfl, .inl rfl, .inl rfl, .inl fun _ _ _ => rfl⟩
  | out k y => rw [exec, execOut, State.srWrite_eq]; exact s.regs.advance_frame _
  | outi k v => rw [exec, execOuti, State.srWrite_eq]; exact s.regs.advance_frame _
  | dw y => exact State.finishDisplay_onNext fun _ _ => s.regs.advance_frame _
  | dw2 y1 y2 => exact State.finishDisplay_onNext fun _ _ => s.regs.advance_frame _
  | call v f => exact .onNext (s.regs.transfer_frame _ _ rfl (.inr (.inr ⟨v, f, rfl⟩)))
  | ret => exact exec_ret_frame s
  | br f | jmp v f | jz f | jnz f | jc f | jnc f | btb x b pol f | cib x v eq f | ijmp x f =>
    exact .onNext (s.regs.branch_frame _ _ rfl)
  | wfe =>
    rw [exec, execWfe]
    split
    · exact s.regs.transfer_frame s.regs.stk s.regs.pc rfl (.inl rfl)
    · exact s.regs.advance_frame _
  | xld | xst | ssa | sla | bsar => trivial

theorem exec_next_regFrame {i : Instr} {s t : State} (h : exec i s = .next t) : RegFrame i s.regs t.regs :=
  (exec_regFrame i s).of_eq h

/-- Settles O32, by the frame of every form. -/
theorem controlStateWrittenOnlyByItsForms : Obligations.ControlStateWrittenOnlyByItsForms := by
  unfold Obligations.ControlStateWrittenOnlyByItsForms
  intro i s t h
  have hf := exec_next_regFrame h
  exact ⟨hf.cb.resolve_left, hf.ab.resolve_left, hf.stk.resolve_left, hf.cf.resolve_left, hf.zf.resolve_left⟩

/-- Settles O33, by the frame of every form. -/
theorem nonControlFormsAdvanceByOne : Obligations.NonControlFormsAdvanceByOne := by
  unfold Obligations.NonControlFormsAdvanceByOne
  intro i s t hi h
  have hpc : t.regs.pc = s.regs.pc + 1 := (exec_next_regFrame h).pc.resolve_right (by rw [hi]; exact nofun)
  rw [hpc, BitVec.toNat_add]; rfl

/-! ### The call stack -/

theorem pushStack_of_lt {stk : List Addr12} (h : stk.length < 3) (a : Addr12) : pushStack stk a = stk ++ [a] := by
  unfold pushStack
  exact if_neg (by rw [List.length_append, List.length_singleton]; omega)

/-- The push that would make four entries drops the oldest (R30). -/
theorem pushStack_of_full {stk : List Addr12} (h : stk.length = 3) (a : Addr12) :
    pushStack stk a = stk.drop 1 ++ [a] := by
  have hne : stk ≠ [] := by rintro rfl; cases h
  unfold pushStack
  rw [if_pos (by rw [List.length_append, h]; rfl), List.tail_append_of_ne_nil hne, List.drop_one]

theorem pushStack_length_le {stk : List Addr12} (h : stk.length ≤ 3) (a : Addr12) : (pushStack stk a).length ≤ 3 := by
  obtain hlt | heq := Nat.lt_or_eq_of_le h
  · rw [pushStack_of_lt hlt, List.length_append]; exact hlt
  · rw [pushStack_of_full heq, List.length_append, List.length_drop, heq]; exact Nat.le_refl 3

/-- Nothing outside the register file changes where only the register file is mapped. -/
theorem State.mapRegs_onlyRegs (s : State) (f : RegFile → RegFile) : OnlyRegs s (s.mapRegs f) :=
  ⟨rfl, rfl, fun _ => ⟨rfl, rfl⟩, rfl, rfl⟩

/-- Settles O25. -/
theorem callPushesItsOwnAddress : Obligations.CallPushesItsOwnAddress := by
  unfold Obligations.CallPushesItsOwnAddress
  intro s v f _
  exact ⟨rfl, _, rfl, rfl, fun h => pushStack_of_lt h _, fun h => pushStack_of_full h _, ⟨rfl, rfl⟩, ⟨rfl, rfl⟩, rfl,
    rfl, s.mapRegs_onlyRegs _⟩

/-- Settles O26, by whether the stack is empty or has a newest entry. -/
theorem retGoesAfterTheNewestEntry : Obligations.RetGoesAfterTheNewestEntry := by
  unfold Obligations.RetGoesAfterTheNewestEntry
  intro s
  refine ⟨rfl, ?_⟩
  obtain hs | ⟨rest, a, hs⟩ := List.eq_nil_or_concat' s.regs.stk
  · refine ⟨_, exec_ret_empty hs, ⟨rfl, rfl⟩, ⟨rfl, rfl⟩, rfl, rfl, s.mapRegs_onlyRegs _, fun _ => ⟨rfl, hs⟩, ?_⟩
    intro rest' a' h'
    exact absurd (hs.symm.trans h') (List.append_ne_nil_of_right_ne_nil _ (List.cons_ne_nil _ _)).symm
  · refine ⟨_, exec_ret_concat hs, ⟨rfl, rfl⟩, ⟨rfl, rfl⟩, rfl, rfl, s.mapRegs_onlyRegs _, fun h => ?_, ?_⟩
    · exact absurd (hs.symm.trans h) (List.append_ne_nil_of_right_ne_nil _ (List.cons_ne_nil _ _))
    · intro rest' a' h'
      obtain ⟨rfl, ha⟩ := List.append_inj' (hs.symm.trans h') rfl
      cases ha
      exact ⟨rfl, rfl⟩

/-! ### Register files that agree on some banks -/

/-- The register files agree on the control state and on the registers of the banks in `B`; the other banks and bSA
are left open. -/
structure RegFile.Agree (B : Bank → Prop) (r r' : RegFile) : Prop where
  control : r.SameControl r'
  reg : ∀ b, B b → ∀ i, r'.reg b i = r.reg b i

section
variable {B : Bank → Prop} {r r' : RegFile}

theorem RegFile.Agree.x (h : r.Agree B r') (hB : B r.cb) (i : Reg) : r'.x i = r.x i := by
  unfold RegFile.x; rw [h.control.cb, h.reg _ hB]

theorem RegFile.Agree.xa (h : r.Agree B r') (hB : B r.ab) (i : Reg) : r'.xa i = r.xa i := by
  unfold RegFile.xa; rw [h.control.ab, h.reg _ hB]

theorem RegFile.Agree.digits (h : r.Agree B r') (hB : B r.cb) (w : List Reg) : r'.digits w = r.digits w :=
  List.map_congr_left fun i _ => h.x hB i

theorem RegFile.Agree.write (h : r.Agree B r') (b : Bank) (i : Reg) (v : Nibble) :
    (r.write b i v).Agree B (r'.write b i v) where
  control := ⟨h.control.cb, h.control.ab, h.control.pc, h.control.cf, h.control.zf, h.control.stk⟩
  reg b' hb j := by rw [RegFile.reg_write, RegFile.reg_write, h.reg b' hb]

theorem RegFile.Agree.writeX (h : r.Agree B r') (i : Reg) (v : Nibble) : (r.writeX i v).Agree B (r'.writeX i v) := by
  unfold RegFile.writeX; rw [h.control.cb]; exact h.write r.cb i v

theorem RegFile.Agree.writeXa (h : r.Agree B r') (i : Reg) (v : Nibble) :
    (r.writeXa i v).Agree B (r'.writeXa i v) := by
  unfold RegFile.writeXa; rw [h.control.ab]; exact h.write r.ab i v

theorem RegFile.Agree.advance (h : r.Agree B r') : r.advance.Agree B r'.advance :=
  ⟨⟨h.control.cb, h.control.ab, congrArg (· + 1) h.control.pc, h.control.cf, h.control.zf, h.control.stk⟩, h.reg⟩

theorem RegFile.Agree.setFlags (h : r.Agree B r') {c c' z z' : Bool} (hc : c' = c) (hz : z' = z) :
    (r.setFlags c z).Agree B (r'.setFlags c' z') :=
  ⟨⟨h.control.cb, h.control.ab, h.control.pc, hc, hz, h.control.stk⟩, h.reg⟩

theorem RegFile.Agree.setZero (h : r.Agree B r') (z : Bool) : (r.setZero z).Agree B (r'.setZero z) :=
  ⟨⟨h.control.cb, h.control.ab, h.control.pc, h.control.cf, rfl, h.control.stk⟩, h.reg⟩

/-- A jump with the same decision and the same target. -/
theorem RegFile.Agree.branch (h : r.Agree B r') {taken taken' : Bool} {target target' : Addr12}
    (ht : taken' = taken) (ha : target' = target) : (r.branch taken target).Agree B (r'.branch taken' target') := by
  subst ht ha
  cases taken' with
  | true => exact ⟨⟨h.control.cb, h.control.ab, rfl, h.control.cf, h.control.zf, h.control.stk⟩, h.reg⟩
  | false => exact h.advance

theorem RegFile.Agree.writeAll (h : r.Agree B r') (l : List (Reg × Nibble)) :
    (RegFile.writeAll l r).Agree B (RegFile.writeAll l r') := by
  induction l generalizing r r' with
  | nil => exact h
  | cons p t ih => exact ih (h.writeX p.1 p.2)

theorem RegFile.Agree.moveAll (h : r.Agree B r') (hB : B r.cb) (l : List (Reg × Reg)) :
    (RegFile.moveAll l r).Agree B (RegFile.moveAll l r') := by
  induction l generalizing r r' with
  | nil => exact h
  | cons p t ih =>
    rw [RegFile.moveAll, RegFile.moveAll, h.x hB]
    exact ih (h.writeX p.1 (r.x p.2)) hB

/-- The digit loop leaves files that agree, and answers the same carry and zero flag. -/
theorem RegFile.Agree.rippleLoop (h : r.Agree B r') (hB : B r.cb) (f : DigitFn) (keep : Bool)
    (l : List (Reg × Reg)) (c z : Bool) :
    (RegFile.rippleLoop f keep l r c z).1.Agree B (RegFile.rippleLoop f keep l r' c z).1 ∧
      (RegFile.rippleLoop f keep l r' c z).2 = (RegFile.rippleLoop f keep l r c z).2 := by
  induction l generalizing r r' c z with
  | nil => exact ⟨h, rfl⟩
  | cons p t ih =>
    simp only [RegFile.rippleLoop, h.x hB]
    cases keep with
    | true => exact ih (h.writeX p.1 _) hB _ _
    | false => exact ih h hB _ _

theorem RegFile.Agree.aluDigit (h : r.Agree B r') (hB : B r.cb) (f : DigitFn) (x : Reg) {b b' : Nibble}
    (hb : b' = b) : (r.aluDigit f x b).Agree B (r'.aluDigit f x b') := by
  unfold RegFile.aluDigit
  rw [hb, h.x hB]
  exact ((h.writeX x _).setFlags rfl rfl).advance

theorem RegFile.Agree.compareDigit (h : r.Agree B r') (hB : B r.cb) (x : Reg) {b b' : Nibble} (hb : b' = b) :
    (r.compareDigit x b).Agree B (r'.compareDigit x b') := by
  unfold RegFile.compareDigit
  rw [hb, h.x hB]
  exact (h.setFlags rfl rfl).advance

theorem RegFile.Agree.logicDigit (h : r.Agree B r') (hB : B r.cb) (f : Nibble → Nibble → Nibble) (x : Reg)
    (i : Nibble) : (r.logicDigit f x i).Agree B (r'.logicDigit f x i) := by
  unfold RegFile.logicDigit
  rw [h.x hB]
  exact ((h.writeX x _).setZero _).advance

theorem RegFile.Agree.rippleForm (h : r.Agree B r') (hB : B r.cb) (f : DigitFn) (keep : Bool) (pd ps : Page)
    (hi lo : Off3) : (r.rippleForm f keep pd ps hi lo).Agree B (r'.rippleForm f keep pd ps hi lo) := by
  obtain ⟨hr, hcz⟩ := h.rippleLoop hB f keep (windowPairs pd ps hi lo).reverse false true
  unfold RegFile.rippleForm
  exact (hr.setFlags (congrArg Prod.fst hcz) (congrArg Prod.snd hcz)).advance

theorem RegFile.Agree.setBanks (h : r.Agree B r') {cb cb' ab ab' : Bank} (hc : cb' = cb) (ha : ab' = ab) :
    RegFile.Agree B { r with cb := cb, ab := ab } { r' with cb := cb', ab := ab' } :=
  ⟨⟨hc, ha, h.control.pc, h.control.cf, h.control.zf, h.control.stk⟩, h.reg⟩

theorem RegFile.Agree.transfer (h : r.Agree B r') {stk stk' : List Addr12} {pc pc' : Addr12} (hs : stk' = stk)
    (hp : pc' = pc) : RegFile.Agree B { r with stk := stk, pc := pc } { r' with stk := stk', pc := pc' } :=
  ⟨⟨h.control.cb, h.control.ab, hp, h.control.cf, h.control.zf, hs⟩, h.reg⟩

end

/-! ### States whose register files agree -/

/-- The register files agree on the banks in `B`, and nothing else differs. -/
structure State.AgreeOn (B : Bank → Prop) (s s' : State) : Prop where
  regs : s.regs.Agree B s'.regs
  only : OnlyRegs s s'

section
variable {B : Bank → Prop} {s s' : State}

theorem State.AgreeOn.mapRegs (h : s.AgreeOn B s') {f f' : RegFile → RegFile}
    (hf : (f s.regs).Agree B (f' s'.regs)) : (s.mapRegs f).AgreeOn B (s'.mapRegs f') :=
  ⟨hf, h.only.dev, h.only.bus, h.only.memory, h.only.lcd, h.only.eng⟩

theorem State.AgreeOn.advance (h : s.AgreeOn B s') :
    (s.mapRegs RegFile.advance).AgreeOn B (s'.mapRegs RegFile.advance) :=
  h.mapRegs h.regs.advance

theorem State.AgreeOn.withDev (h : s.AgreeOn B s') {d d' : Devices} (hd : d' = d) :
    State.AgreeOn B { s with dev := d } { s' with dev := d' } :=
  ⟨h.regs, hd, h.only.bus, h.only.memory, h.only.lcd, h.only.eng⟩

theorem State.AgreeOn.srWrite (h : s.AgreeOn B s') (c : Cfg) (k : SRIdx) (v : Nibble) :
    (s.srWrite c k v).AgreeOn B (s'.srWrite c k v) := by
  rw [State.srWrite_eq, State.srWrite_eq, h.only.dev, h.only.eng]
  exact ⟨h.regs, rfl, h.only.bus, h.only.memory, h.only.lcd, rfl⟩

/-- The outcome of a form that maps the register file. -/
theorem State.AgreeOn.next (h : s.AgreeOn B s') {f f' : RegFile → RegFile}
    (hf : (f s.regs).Agree B (f' s'.regs)) :
    OutcomesRelated (State.AgreeOn B) (.next (s.mapRegs f)) (.next (s'.mapRegs f')) :=
  h.mapRegs hf

theorem State.AgreeOn.finishDisplay (h : s.AgreeOn B s') {res res' : Except Refusal Lcd} (hr : res' = res) :
    OutcomesRelated (State.AgreeOn B) (s.finishDisplay res) (s'.finishDisplay res') := by
  subst hr
  cases res' with
  | ok l => exact ⟨h.regs.advance, h.only.dev, h.only.bus, h.only.memory, rfl, h.only.eng⟩
  | error r => exact rfl

theorem State.AgreeOn.dw2Writes (h : s.AgreeOn B s') (hB : B s.regs.cb) (c : Cfg) (y1 y2 : Reg) :
    dw2Writes c y1 y2 s' = dw2Writes c y1 y2 s := by
  unfold Machine.dw2Writes dw2First
  rw [h.only.lcd, h.regs.x hB, h.regs.x hB]

theorem State.AgreeOn.exec_ret (h : s.AgreeOn B s') :
    OutcomesRelated (State.AgreeOn B) (exec .ret s) (exec .ret s') := by
  obtain hs | ⟨rest, a, hs⟩ := List.eq_nil_or_concat' s.regs.stk
  · rw [exec_ret_empty hs, exec_ret_empty (h.regs.control.stk.trans hs)]
    exact h.advance
  · rw [exec_ret_concat hs, exec_ret_concat (h.regs.control.stk.trans hs)]
    exact h.mapRegs (h.regs.transfer rfl rfl)

/-- A form reads no bank but the current one, and the alternate one if it is `mvac`, and reads no bSA: states that
agree on those banks have outcomes that agree on them (R21, R26, R185). -/
theorem State.AgreeOn.exec (h : s.AgreeOn B s') (hB : B s.regs.cb) (i : Instr)
    (hmvac : (∃ x y, i = .mvac x y) → B s.regs.ab) :
    OutcomesRelated (State.AgreeOn B) (exec i s) (exec i s') := by
  have hr := h.regs
  have hx := hr.x hB
  have hpc := hr.control.pc
  have hzf := hr.control.zf
  have hcf := hr.control.cf
  cases i with
  | add x y | adb x y | sub x y | sbb x y => exact h.next (hr.aluDigit hB _ x (hx y))
  | addi x v | adbi x v | subi x v | sbbi x v => exact h.next (hr.aluDigit hB _ x rfl)
  | radd pd ps hi lo | radb pd ps hi lo | rsub pd ps hi lo | rsbb pd ps hi lo | rcmp pd ps hi lo =>
    exact h.next (hr.rippleForm hB _ _ pd ps hi lo)
  | cmp x y => exact h.next (hr.compareDigit hB x (hx y))
  | cmpi x v => exact h.next (hr.compareDigit hB x rfl)
  | andi x v | ori x v | xori x v => exact h.next (hr.logicDigit hB _ x v)
  | rshl p hi lo | rshr p hi lo =>
    refine h.next ?_
    rw [hr.digits hB]
    exact (hr.writeAll _).advance
  | rclr p hi lo => exact h.next (hr.writeAll _).advance
  | rmov pd ps hi lo => exact h.next (hr.moveAll hB _).advance
  | mov x y => refine h.next ?_; rw [hx y]; exact (hr.writeX x _).advance
  | movi x v => exact h.next (hr.writeX x v).advance
  | mvca x y => refine h.next ?_; rw [hx y]; exact (hr.writeXa x _).advance
  | mvac x y => refine h.next ?_; rw [hr.xa (hmvac ⟨x, y, rfl⟩) y]; exact (hr.writeX x _).advance
  | scb n => exact h.next (hr.setBanks rfl hr.control.ab).advance
  | sab n => exact h.next (hr.setBanks hr.control.cb rfl).advance
  | inp x k =>
    have hd : s'.dev.srRead k = s.dev.srRead k := congrArg (·.srRead k) h.only.dev
    rw [Machine.exec, Machine.exec, execInp, execInp, hd]
    exact (h.withDev rfl).mapRegs (hr.writeX x _).advance
  | out k y =>
    rw [Machine.exec, Machine.exec, execOut, execOut, hx y]
    exact (h.srWrite chipCfg k _).advance
  | outi k v => exact (h.srWrite chipCfg k v).advance
  | dw y =>
    refine h.finishDisplay ?_
    rw [h.only.lcd, hx y]
  | dw2 y1 y2 => exact h.finishDisplay (h.dw2Writes hB chipCfg y1 y2)
  | call v f => exact h.next (hr.transfer (congrArg₂ pushStack hr.control.stk hpc) rfl)
  | ret => exact h.exec_ret
  | br f => exact h.next (hr.branch rfl (by rw [hpc]))
  | jmp v f => exact h.next (hr.branch rfl rfl)
  | jz f | jnz f => exact h.next (hr.branch (by rw [hzf]) (by rw [hpc]))
  | jc f | jnc f => exact h.next (hr.branch (by rw [hcf]) (by rw [hpc]))
  | btb x b pol f | cib x v eq f => exact h.next (hr.branch (by rw [hx]) (by rw [hpc]))
  | ijmp x f => exact h.next (hr.branch rfl (by rw [hx, hpc]))
  | wfe =>
    rw [Machine.exec, Machine.exec, execWfe, execWfe, h.only.dev]
    split
    · exact h
    · exact h.advance
  | xld | xst | ssa | sla | bsar => exact rfl

end

theorem OutcomesRelated.mono {rel rel' : State → State → Prop} {a b : Host.Outcome State Fault Refusal}
    (h : OutcomesRelated rel a b) (himp : ∀ t t', rel t t' → rel' t t') : OutcomesRelated rel' a b := by
  cases a with
  | next t =>
    cases b with
    | next t' => exact himp t t' h
    | fault r | refused r => exact h
  | fault r | refused r => cases b <;> exact h

/-- Settles O34: the write half by the frame of every form, the read half by agreement on the current bank. -/
theorem otherBanksReachedOnlyByCrossBankMoves : Obligations.OtherBanksReachedOnlyByCrossBankMoves := by
  unfold Obligations.OtherBanksReachedOnlyByCrossBankMoves
  refine ⟨fun i s t h hi => (exec_next_regFrame h).otherBanks.resolve_right fun ⟨x, y, e⟩ => hi x y e, ?_⟩
  intro i s g hi hg
  have hs : s.AgreeOn (· = s.regs.cb) (s.mapRegs fun r => { r with gr := g }) :=
    ⟨⟨⟨rfl, rfl, rfl, rfl, rfl, rfl⟩, fun b hb j => by rw [hb]; exact congrArg (·[j]) hg⟩, s.mapRegs_onlyRegs _⟩
  refine (hs.exec rfl i fun ⟨x, y, e⟩ => absurd e (hi x y)).mono fun t t' ht => ?_
  have hc := ht.regs.control
  exact ⟨ht.regs.reg _ rfl, hc.pc, ⟨hc.cf, hc.zf⟩, ⟨hc.cb, hc.ab, hc.stk⟩, ht.only⟩

theorem RegFile.gr_ext {r r' : RegFile} (h : ∀ b i, r'.reg b i = r.reg b i) : r'.gr = r.gr :=
  Vector.ext fun b hb => Vector.ext fun i hi => h ⟨b, hb⟩ ⟨i, hi⟩

/-- Register files that agree on every bank differ at most in bSA. -/
theorem RegFile.Agree.eq_of_all {r r' : RegFile} (h : r.Agree (fun _ => True) r') : r' = { r with bsa := r'.bsa } := by
  obtain ⟨⟨hcb, hab, hpc, hcf, hzf, hstk⟩, hreg⟩ := h
  have hgr := RegFile.gr_ext fun b i => hreg b trivial i
  cases r; cases r'
  simp only at *
  subst hcb hab hpc hcf hzf hstk hgr
  rfl

theorem State.AgreeOn.eq_of_all {s s' : State} (h : s.AgreeOn (fun _ => True) s') :
    s' = s.mapRegs fun r => { r with bsa := s'.regs.bsa } := by
  have hregs := h.regs.eq_of_all
  obtain ⟨-, hdev, hbus, -, hlcd, heng⟩ := h
  cases s'
  simp only at *
  subst hdev hbus hlcd heng
  rw [State.mapRegs, ← hregs]

/-- Settles O35, by agreement on every bank, which leaves bSA alone open. -/
theorem noInstructionReadsBusLatch : Obligations.NoInstructionReadsBusLatch := by
  unfold Obligations.NoInstructionReadsBusLatch
  intro i s b
  have hs : s.AgreeOn (fun _ => True) (s.mapRegs fun r => { r with bsa := b }) :=
    ⟨⟨⟨rfl, rfl, rfl, rfl, rfl, rfl⟩, fun _ _ _ => rfl⟩, s.mapRegs_onlyRegs _⟩
  exact (hs.exec trivial i fun _ => trivial).mono fun t t' ht => ⟨t'.regs.bsa, ht.eq_of_all⟩

/-! ### States that differ in the display alone -/

/-- Everything outside the display controller is the same (R41). -/
structure SameOutsideLcd (s s' : State) : Prop where
  regs : s'.regs = s.regs
  dev : s'.dev = s.dev
  bus : s'.bus = s.bus
  eng : s'.eng = s.eng

theorem State.setLcd_sameOutsideLcd (s : State) (l : Lcd) : SameOutsideLcd s (s.setLcd l) := ⟨rfl, rfl, rfl, rfl⟩

section
variable {s s' : State}

theorem SameOutsideLcd.advance (h : SameOutsideLcd s s') :
    SameOutsideLcd (s.mapRegs RegFile.advance) (s'.mapRegs RegFile.advance) :=
  ⟨congrArg RegFile.advance h.regs, h.dev, h.bus, h.eng⟩

theorem SameOutsideLcd.srWrite (h : SameOutsideLcd s s') (c : Cfg) (k : SRIdx) (v : Nibble) :
    SameOutsideLcd (s.srWrite c k v) (s'.srWrite c k v) := by
  rw [State.srWrite_eq, State.srWrite_eq, h.dev, h.eng]
  exact ⟨h.regs, rfl, h.bus, rfl⟩

/-- The end of a tick brings nothing of the display into the rest of the state. -/
theorem SameOutsideLcd.endTick (h : SameOutsideLcd s s') (n : Nat) :
    SameOutsideLcd ((s.setBusy n).finishTick chipCfg) ((s'.setBusy n).finishTick chipCfg) :=
  ⟨h.regs, h.dev, h.bus, congrArg (fun e : Engine => { e with busy := n, cycles := e.cycles + 1 }) h.eng⟩

/-- Two display writes end, when neither refuses, in states that differ in the display alone, whatever they write. -/
theorem finishDisplay_sameOutsideLcd (h : SameOutsideLcd s s') (res res' : Except Refusal Lcd) :
    OnNext (fun t => OnNext (SameOutsideLcd t) (s'.finishDisplay res')) (s.finishDisplay res) :=
  State.finishDisplay_onNext fun _ _ => State.finishDisplay_onNext fun _ _ =>
    SameOutsideLcd.advance ⟨h.regs, h.dev, h.bus, h.eng⟩

end

/-- No form carries anything of the display into the rest of the state (R41): the display writes do not read it back,
and no other form reads it. -/
theorem exec_setLcd_sameOutsideLcd (i : Instr) (s : State) (l : Lcd) :
    OnNext (fun t => OnNext (SameOutsideLcd t) (exec i (s.setLcd l))) (exec i s) := by
  have h := s.setLcd_sameOutsideLcd l
  cases i with
  | dw y => exact finishDisplay_sameOutsideLcd h _ _
  | dw2 y1 y2 => exact finishDisplay_sameOutsideLcd h _ _
  | out k y => exact (h.srWrite chipCfg k (s.regs.x y)).advance
  | outi k v => exact (h.srWrite chipCfg k v).advance
  | wfe =>
    rw [exec, exec, execWfe, execWfe, h.dev]
    split
    · exact h
    · exact h.advance
  | xld | xst | ssa | sla | bsar => trivial
  | _ => exact ⟨rfl, rfl, rfl, rfl⟩

/-- Settles O36: the device steps and the fetch do not read the display, and no form carries anything of it over. -/
theorem displayIsWriteOnlyForTheProgram : Obligations.DisplayIsWriteOnlyForTheProgram := by
  unfold Obligations.DisplayIsWriteOnlyForTheProgram
  intro s t t' l h h'
  have hsteps : (s.setLcd l).deviceSteps chipCfg = (s.deviceSteps chipCfg).setLcd l := s.deviceSteps_setLcd chipCfg l
  suffices SameOutsideLcd t t' from ⟨this.regs, this.dev, this.bus, this.eng⟩
  obtain ⟨-, ⟨hb, rfl⟩ | ⟨hb, i, u, hi, hu, rfl⟩⟩ := tickOutcome_next h
  · obtain ⟨-, ⟨-, rfl⟩ | ⟨hb', -⟩⟩ := tickOutcome_next h'
    · rw [hsteps]
      exact (State.setLcd_sameOutsideLcd _ l).endTick _
    · exact absurd hb' hb.ne'
  · obtain ⟨-, ⟨hb', -⟩ | ⟨-, i', u', hi', hu', rfl⟩⟩ := tickOutcome_next h'
    · exact absurd hb hb'.ne'
    · rw [hsteps] at hi' hu'
      have hfetch : fetchDecode ((s.deviceSteps chipCfg).setLcd l) = fetchDecode (s.deviceSteps chipCfg) :=
        fetchDecode_congr rfl rfl
      cases hi'.symm.trans (hfetch.trans hi)
      exact (((exec_setLcd_sameOutsideLcd i _ l).of_eq hu).of_eq hu').endTick _

/-! ### Ranges -/

/-- The busy count after an instruction stays in 0..7 (R38, R406). -/
theorem cost_le_eight (i : Instr) : cost i ≤ 8 := by
  cases i with
  | radd pd ps hi lo | radb pd ps hi lo | rsub pd ps hi lo | rsbb pd ps hi lo | rcmp pd ps hi lo | rmov pd ps hi lo =>
    exact windowLen_le hi lo
  | rshl p hi lo | rshr p hi lo | rclr p hi lo => exact windowLen_le hi lo
  | _ => exact Laws.CostBounds.one_tick.2

theorem Lcd.WriteKept.refl (l : Lcd) : l.WriteKept l := ⟨id, id, rfl, rfl⟩

theorem dw2Writes_kept {c : Cfg} {y1 y2 : Reg} {s : State} {l : Lcd} (h : dw2Writes c y1 y2 s = .ok l) :
    s.lcd.WriteKept l := by
  unfold dw2Writes at h
  split at h
  · split at h
    · next m hm => exact (Lcd.dispWrite_kept c _ _ m hm).1.trans (Lcd.dispWrite_kept c _ m l h).1
    · cases h
  · exact (Lcd.dispWrite_kept c _ _ l h).1

/-- What an instruction keeps outside the register file: the memory bus, the transmit divider, the Timer1 count but
for a clear (R215), and the ranges of the display (R329). -/
structure BeyondRegsKept (s t : State) : Prop where
  bus : t.bus = s.bus
  ispDiv : t.dev.ispDiv = s.dev.ispDiv
  t1 : t.dev.t1 = s.dev.t1 ∨ t.dev.t1 = 0
  lcd : s.lcd.WriteKept t.lcd

theorem OnlyRegs.beyondRegsKept {s t : State} (h : OnlyRegs s t) : BeyondRegsKept s t :=
  ⟨h.bus, congrArg Devices.ispDiv h.dev, .inl (congrArg Devices.t1 h.dev), h.lcd ▸ .refl _⟩

theorem State.srWrite_beyondRegsKept (c : Cfg) (k : SRIdx) (v : Nibble) (s : State) :
    BeyondRegsKept s (s.srWrite c k v) := by
  rw [State.srWrite_eq]
  exact ⟨rfl, s.dev.srWrite_ispDiv c k v, s.dev.srWrite_t1 c k v, .refl _⟩

theorem exec_beyondRegsKept (i : Instr) (s : State) : OnNext (BeyondRegsKept s) (exec i s) := by
  cases i with
  | dw y =>
    exact State.finishDisplay_onNext fun l hl => ⟨rfl, rfl, .inl rfl, (Lcd.dispWrite_kept chipCfg _ _ l hl).1⟩
  | dw2 y1 y2 => exact State.finishDisplay_onNext fun l hl => ⟨rfl, rfl, .inl rfl, dw2Writes_kept hl⟩
  | inp x k =>
    have hd := s.dev.afterRead_sameHidden k
    exact ⟨rfl, hd.ispDiv, .inl hd.t1, .refl _⟩
  | out k y =>
    have hw := s.srWrite_beyondRegsKept chipCfg k (s.regs.x y)
    exact ⟨hw.bus, hw.ispDiv, hw.t1, hw.lcd⟩
  | outi k v =>
    have hw := s.srWrite_beyondRegsKept chipCfg k v
    exact ⟨hw.bus, hw.ispDiv, hw.t1, hw.lcd⟩
  | wfe =>
    rw [exec, execWfe]
    split
    · exact ⟨rfl, rfl, .inl rfl, .refl _⟩
    · exact (s.mapRegs_onlyRegs _).beyondRegsKept
  | xld | xst | ssa | sla | bsar => trivial
  | _ => exact (s.mapRegs_onlyRegs _).beyondRegsKept

/-- The call stack keeps its capacity (R29 to R31): of all forms, `call` pushes with eviction and `ret` takes one off. -/
theorem exec_stk_length_le {i : Instr} {s t : State} (h : exec i s = .next t) (hs : s.regs.stk.length ≤ 3) :
    t.regs.stk.length ≤ 3 := by
  obtain hstk | rfl | ⟨v, f, rfl⟩ := (exec_next_regFrame h).stk
  · rw [hstk]; exact hs
  · obtain he | ⟨rest, a, he⟩ := List.eq_nil_or_concat' s.regs.stk
    · cases (exec_ret_empty he).symm.trans h
      exact hs
    · cases (exec_ret_concat he).symm.trans h
      rw [he, List.length_append] at hs
      exact (Nat.le_add_right _ _).trans hs
  · cases h
    exact pushStack_length_le hs _

section
variable {s : State}

theorem State.Inv.deviceSteps (h : s.Inv) (c : Cfg) : (s.deviceSteps c).Inv :=
  have hk := s.deviceSteps_kept c
  { stk_length := by rw [hk.regs]; exact h.stk_length
    ispDiv_range := hk.ispDiv
    t1_range := hk.t1 h.t1_range
    busy_range := by rw [hk.busy]; exact h.busy_range
    cursor_range := by rw [hk.lcd]; exact h.cursor_range
    contrast_range := by rw [hk.lcd]; exact h.contrast_range
    imem_wf := by rw [hk.imem]; exact h.imem_wf
    xmem_wf := by rw [hk.xmem]; exact h.xmem_wf
    dirtyI_wf := by rw [hk.dirtyI]; exact h.dirtyI_wf
    dirtyX_wf := by rw [hk.dirtyX]; exact h.dirtyX_wf }

theorem State.Inv.exec (h : s.Inv) {i : Instr} {t : State} (ht : exec i s = .next t) : t.Inv :=
  have hk := (exec_beyondRegsKept i s).of_eq ht
  have he : t.eng.busy = s.eng.busy := by rw [exec_next_engineKept ht]
  { stk_length := exec_stk_length_le ht h.stk_length
    ispDiv_range := by rw [hk.ispDiv]; exact h.ispDiv_range
    t1_range := hk.t1.elim (fun h1 => h1 ▸ h.t1_range) fun h0 => h0 ▸ Nat.zero_le 37
    busy_range := by rw [he]; exact h.busy_range
    cursor_range := hk.lcd.cursor h.cursor_range
    contrast_range := hk.lcd.contrast h.contrast_range
    imem_wf := by rw [hk.bus]; exact h.imem_wf
    xmem_wf := by rw [hk.bus]; exact h.xmem_wf
    dirtyI_wf := by rw [hk.bus]; exact h.dirtyI_wf
    dirtyX_wf := by rw [hk.bus]; exact h.dirtyX_wf }

theorem State.Inv.setBusy (h : s.Inv) {n : Nat} (hn : n ≤ 7) : (s.setBusy n).Inv :=
  { h with busy_range := hn }

theorem State.Inv.finishTick (h : s.Inv) (c : Cfg) : (s.finishTick c).Inv := by
  obtain ⟨hcursor, hcontrast, -⟩ := Lcd.displayStep_kept c s.lcd
  exact { h with cursor_range := hcursor h.cursor_range, contrast_range := hcontrast.trans_le h.contrast_range }

end

/-- Settles O53: the device steps, the engine's part and the end of the tick each keep the ranges. -/
theorem stepKeepsRanges : Obligations.StepKeepsRanges := by
  unfold Obligations.StepKeepsRanges
  intro s t hs h
  have hd := hs.deviceSteps chipCfg
  obtain ⟨-, ⟨-, rfl⟩ | ⟨-, i, u, -, hu, rfl⟩⟩ := tickOutcome_next h
  · exact (hd.setBusy ((Nat.sub_le _ 1).trans hs.busy_range)).finishTick chipCfg
  · exact ((hd.exec hu).setBusy (Nat.sub_le_sub_right (cost_le_eight i) 1)).finishTick chipCfg

/-! ### Reset -/

/-- Settles O52. -/
theorem resetStateIsInRange : Obligations.ResetStateIsInRange := by
  unfold Obligations.ResetStateIsInRange
  obtain ⟨himem, hxmem, hdirtyI, hdirtyX⟩ := MemoryBus.powerOn_wf
  exact
    { stk_length := Nat.zero_le 3
      ispDiv_range := Nat.zero_le 23
      t1_range := Nat.zero_le 37
      busy_range := Nat.zero_le 7
      cursor_range := Nat.zero_le 512
      contrast_range := Nat.le_of_lt_succ chipCfg.contrastReset.isLt
      imem_wf := himem
      xmem_wf := hxmem
      dirtyI_wf := hdirtyI
      dirtyX_wf := hdirtyX }

theorem RegFile.reg_reset (b : Bank) (i : Reg) : RegFile.reset.reg b i = 0 := by
  simp [RegFile.reg, RegFile.reset]

theorem Devices.getSr_reset (k : SRIdx) : Devices.reset.getSr k = 0 := by
  simp [Devices.getSr, Devices.reset]

theorem MemoryBus.mem_dirty_powerOn (w : Nat) :
    (w ∈ MemoryBus.powerOn.dirtyI ↔ w < 3072) ∧ (w ∈ MemoryBus.powerOn.dirtyX ↔ w < 1024) := by
  rw [MemoryBus.powerOn_dirtyI, MemoryBus.powerOn_dirtyX]
  exact ⟨List.mem_range, List.mem_range⟩

theorem Lcd.cells_reset (c : Cfg) (a : Fin 64) : (Lcd.reset c).ddram[a] = 0 ∧ (Lcd.reset c).daram[a] = false := by
  simp [Lcd.reset]

theorem Lcd.dctrl_reset (c : Cfg) (i : Fin 16) : (Lcd.reset c).dctrl[i] = 0 := by
  simp [Lcd.reset]

theorem Lcd.pix_reset (c : Cfg) (y : Fin 28) (x : Fin 50) : ((Lcd.reset c).pix[y])[x] = false := by
  simp [Lcd.reset]

/-- Settles O55, part by part of the state. -/
theorem resetLeavesStatedValues : Obligations.ResetLeavesStatedValues := by
  unfold Obligations.ResetLeavesStatedValues
  refine ⟨fun u => ⟨rfl, fun a => ⟨rfl, rfl⟩, rfl, rfl, rfl, rfl⟩, ?_⟩
  exact ⟨RegFile.reg_reset, rfl, rfl, rfl, rfl, rfl, rfl, rfl, Devices.getSr_reset, rfl, rfl, rfl, rfl, rfl, rfl, rfl,
    rfl, rfl, rfl, rfl, rfl, fun a => ⟨rfl, rfl⟩, rfl, fun w => (MemoryBus.mem_dirty_powerOn w).1,
    fun w => (MemoryBus.mem_dirty_powerOn w).2, Lcd.cells_reset chipCfg, Lcd.dctrl_reset chipCfg, rfl,
    Lcd.pix_reset chipCfg, rfl, rfl, rfl, rfl, rfl⟩

end Sys2Proof.Machine
end

