-- ==== Sys2Proof/Proofs/MemoryRules.lean ====
section
/-! PROOFS. The rules over memory (spec/20_memory.md): words and their bytes with the encoder (R73, R104), images, raw
stores and patches (R76, R77, R412), what a step leaves of the bus (R70, R71, R74), the display writes (R85, R302 to
R325), and the external region behind the ISP unit (R80, R81, R363 to R367). -/

namespace Sys2Proof

/-! ### Words and their two bytes -/

theorem wordHi_wordOfBytes (b0 b1 : Byte) : wordHi (wordOfBytes b0 b1) = b0 :=
  BitVec.extractLsb'_append_eq_left

theorem wordLo_wordOfBytes (b0 b1 : Byte) : wordLo (wordOfBytes b0 b1) = b1 :=
  BitVec.extractLsb'_append_eq_right


theorem wordOfBytes_wordHi_wordLo (w : Word16) : wordOfBytes (wordHi w) (wordLo w) = w :=
  (BitVec.extractLsb'_append_extractLsb'_eq_extractLsb' rfl).trans BitVec.extractLsb'_eq_self

theorem toNat_wordHi_ofNat (v : Nat) : (wordHi (BitVec.ofNat 16 v)).toNat = v / 256 % 256 := by
  simp only [wordHi, BitVec.extractLsb'_toNat, BitVec.toNat_ofNat, Nat.shiftRight_eq_div_pow]
  omega

theorem toNat_wordLo_ofNat (v : Nat) : (wordLo (BitVec.ofNat 16 v)).toNat = v % 256 := by
  simp only [wordLo, BitVec.extractLsb'_toNat, BitVec.toNat_ofNat, Nat.shiftRight_eq_div_pow]
  omega

/-! ### The encoder -/

/-- What a search finds is a word of the form. -/
theorem searchWord_eq_some {dec : Word16 → Option Instr} {i : Instr} {n w : Nat} {x : Word16}
    (h : searchWord dec i n w = some x) : dec x = some i := by
  induction n generalizing w with
  | zero => cases h
  | succ n ih =>
    unfold searchWord at h
    split at h
    · next hw => cases h; exact hw
    · exact ih h

/-- A search that finds nothing has no word of the form in its interval. -/
theorem searchWord_eq_none {dec : Word16 → Option Instr} {i : Instr} {n w : Nat} (h : searchWord dec i n w = none)
    {m : Nat} (hlo : w ≤ m) (hhi : m < w + n) : dec (BitVec.ofNat 16 m) ≠ some i := by
  induction n generalizing w with
  | zero => omega
  | succ n ih =>
    unfold searchWord at h
    split at h
    · cases h
    · next hw =>
      obtain rfl | hlt := Nat.eq_or_lt_of_le hlo
      · exact hw
      · exact ih h hlt (by omega)

theorem decode_of_encode {i : Instr} {w : Word16} (h : encode i = some w) : decode w = some i :=
  searchWord_eq_some h

/-- The encoder searches all the words there are. -/
theorem decode_ne_of_encode_eq_none {i : Instr} (h : encode i = none) (w : Word16) : decode w ≠ some i := by
  have hw := searchWord_eq_none h (Nat.zero_le w.toNat) (by rw [Nat.zero_add]; exact w.isLt)
  rwa [BitVec.ofNat_toNat, BitVec.setWidth_eq] at hw

theorem decodeBytes_word {w : Word16} {i : Instr} (h : decode w = some i) (rest : List Byte) :
    decodeBytes (wordHi w :: wordLo w :: rest) = .ok (i, rest) := by
  simp only [decodeBytes, wordOfBytes_wordHi_wordLo, h]

/-- Settles O59: the encoder's word decodes to the form, and its search misses no word. -/
theorem decodeOfEncodeIsTheForm : Obligations.DecodeOfEncodeIsTheForm := by
  unfold Obligations.DecodeOfEncodeIsTheForm
  intro i rest
  refine ⟨fun bs hbs => ?_, fun hnone => decode_ne_of_encode_eq_none (Option.map_eq_none_iff.1 hnone)⟩
  obtain ⟨w, hw, rfl⟩ := Option.map_eq_some_iff.1 hbs
  exact ⟨rfl, wordHi w, wordLo w, rfl, decodeBytes_word (decode_of_encode hw) rest⟩

end Sys2Proof

namespace Sys2Proof.Machine

/-! ### Loads, raw stores and patches -/

theorem SameMemory.of_bus_eq {s t : State} (h : t.bus = s.bus) : SameMemory s t :=
  fun a => by rw [h]; exact ⟨rfl, rfl⟩

/-- A byte list read as an image of a region: its bytes as far as the region goes, zero for what is missing or beyond
(R77, log 16). -/
theorem Memory.read_ofBytes_take (bs : List Byte) (size a : Nat) :
    (Memory.ofBytes 0 (bs.take size)).read a = if a < size then bs.getD a 0 else 0 := by
  have hread := Memory.read_ofBytes (bs.take size) 0 a
  rw [Nat.zero_add] at hread
  rw [hread, List.getD_eq_getElem?_getD, List.getD_eq_getElem?_getD, List.getElem?_take]
  split <;> rfl

/-- A load leaves every word of its region dirty (R77, R78). -/
theorem MemoryBus.mem_dirty_load (image : Option (List Byte)) (m : MemoryBus) (w : Nat) :
    (w ∈ (m.load image .internal).dirtyI ↔ w < 3072) ∧ (w ∈ (m.load image .external).dirtyX ↔ w < 1024) := by
  obtain ⟨-, hI, -⟩ := MemoryBus.load_internal image m
  obtain ⟨-, hX, -⟩ := MemoryBus.load_external image m
  rw [hI, hX]
  exact ⟨List.mem_range, List.mem_range⟩

/-- A load changes its region's memory and dirty set only (R77). -/
theorem MemoryBus.load_frame (image : Option (List Byte)) (m : MemoryBus) :
    m.load image .internal =
        { m with imem := (m.load image .internal).imem, dirtyI := (m.load image .internal).dirtyI } ∧
      m.load image .external =
        { m with xmem := (m.load image .external).xmem, dirtyX := (m.load image .external).dirtyX } := by
  simp only [MemoryBus.load, and_self]

/-- The PC's words are as many as 12 bits count. -/
theorem MemoryBus.fetchOpcode_ofNat (m : MemoryBus) {n : Nat} (h : n < 4096) :
    m.fetchOpcode (BitVec.ofNat 12 n) = m.imem.read (2 * n) ++ m.imem.read (2 * n + 1) := by
  unfold MemoryBus.fetchOpcode wordOfBytes
  rw [BitVec.toNat_ofNat, Nat.mod_eq_of_lt h]

/-- Settles O56: the halves of a fetched word, and the bytes and dirty words a load of each region leaves. -/
theorem loadedImageIsFetchedBigEndian : Obligations.LoadedImageIsFetchedBigEndian := by
  unfold Obligations.LoadedImageIsFetchedBigEndian
  refine ⟨fun m pc => ⟨wordHi_wordOfBytes _ _, wordLo_wordOfBytes _ _⟩, fun s image => ?_⟩
  have hI : ∀ a, (s.bus.load image .internal).imem.read a = if a < 6144 then (image.getD []).getD a 0 else 0 :=
    fun a => Memory.read_ofBytes_take _ imemSize a
  have hX : ∀ a, (s.bus.load image .external).xmem.read a = if a < 2048 then (image.getD []).getD a 0 else 0 :=
    fun a => Memory.read_ofBytes_take _ xmemSize a
  obtain ⟨hframeI, hframeX⟩ := MemoryBus.load_frame image s.bus
  refine ⟨⟨fun n hn => ?_, hI, fun w => (MemoryBus.mem_dirty_load image s.bus w).1,
    congrArg (fun b => { s with bus := b }) hframeI⟩, hX, fun w => (MemoryBus.mem_dirty_load image s.bus w).2,
    congrArg (fun b => { s with bus := b }) hframeX⟩
  rw [MemoryBus.fetchOpcode_ofNat _ (by omega)]
  exact congrArg₂ (· ++ ·) ((hI (2 * n)).trans (if_pos (by omega))) ((hI (2 * n + 1)).trans (if_pos (by omega)))

/-- A raw store of a word of the region: its two bytes, high byte first, and its index in the dirty set (R76, R78). -/
theorem MemoryBus.writeRawWord_eq (m : MemoryBus) {addr : Nat} (v : Nat) (h : addr < 3072) :
    m.writeRawWord addr v =
      { m with
        imem := (m.imem.write (2 * addr) (wordHi (BitVec.ofNat 16 v))).write (2 * addr + 1)
          (wordLo (BitVec.ofNat 16 v))
        dirtyI := WordSet.insert (WordSet.insert m.dirtyI addr) addr } := by
  have hhi : 2 * addr < imemSize := by unfold imemSize; omega
  have hlo : 2 * addr + 1 < imemSize := by unfold imemSize; omega
  have hdiv : 2 * addr / 2 = addr := by omega
  have hdiv' : (2 * addr + 1) / 2 = addr := by omega
  simp only [MemoryBus.writeRawWord, MemoryBus.writeRaw, if_pos hhi, if_pos hlo, hdiv, hdiv', BitVec.ofNat_toNat,
    BitVec.setWidth_eq]

/-- The bytes of the region after the store of a word. -/
theorem Memory.read_write_word {m : Memory} (hwf : m.wf imemSize = true) {addr : Nat} (h : addr < 3072) (hi lo : Byte)
    (a : Nat) :
    ((m.write (2 * addr) hi).write (2 * addr + 1) lo).read a =
      if a = 2 * addr + 1 then lo else if a = 2 * addr then hi else m.read a := by
  have hwf' := Memory.write_wf imemSize m (2 * addr) hi hwf (by unfold imemSize; omega)
  rw [Memory.read_write imemSize _ _ _ _ hwf', Memory.read_write imemSize _ _ _ _ hwf]

theorem State.patchStore_memory (s : State) {addr : Nat} (v : Nat) (h : addr < 3072) :
    s.patchStore (.memory addr) v = { s with bus := s.bus.writeRawWord addr v } :=
  if_pos h

theorem State.debugPatch_eq_foldl (p : Patch) (s : State) :
    s.debugPatch p =
      p.foldl (fun u e => match e.2 with
        | some v => u.patchStore e.1 v
        | none => u) s := by
  induction p generalizing s with
  | nil => rfl
  | cons e t ih =>
    obtain ⟨k, _ | v⟩ := e
    · exact ih s
    · exact ih (s.patchStore k v)

/-- Settles O60: a patch by induction on its entries, the MEMORY key by the raw store of a word. -/
theorem debugPatchAppliesEntriesInOrder : Obligations.DebugPatchAppliesEntriesInOrder := by
  unfold Obligations.DebugPatchAppliesEntriesInOrder
  refine ⟨fun p s => s.debugPatch_eq_foldl p, fun s addr v hwf h => ?_, fun s addr v h => if_neg (Nat.not_lt.2 h)⟩
  have hread := Memory.read_write_word hwf h (wordHi (BitVec.ofNat 16 v)) (wordLo (BitVec.ofNat 16 v))
  rw [State.patchStore_memory s v h, MemoryBus.writeRawWord_eq s.bus v h]
  refine ⟨?_, ?_, fun a ha ha' => ?_, fun w => ?_, rfl⟩
  · rw [hread, if_neg (by omega), if_pos rfl, toNat_wordHi_ofNat]
  · rw [hread, if_pos rfl, toNat_wordLo_ofNat]
  · rw [hread, if_neg ha', if_neg ha]
  · simp only [WordSet.mem_insert, or_self_left]

/-! ### What an instruction and a step leave of the memory bus -/

theorem exec_next_bus {i : Instr} {s t : State} (h : exec i s = .next t) : t.bus = s.bus :=
  ((exec_beyondRegsKept i s).of_eq h).bus

/-- Settles O31: no form writes the bus, and of a step the device steps alone could. -/
theorem noInstructionWritesMemory : Obligations.NoInstructionWritesMemory := by
  unfold Obligations.NoInstructionWritesMemory
  refine ⟨fun i s t h => ?_, fun s t h a => ?_⟩
  · exact ⟨exec_next_bus h, .of_bus_eq (exec_next_bus h)⟩
  · have himem := (s.deviceSteps_kept chipCfg).imem
    obtain ⟨-, ⟨-, rfl⟩ | ⟨-, i, u, -, hu, rfl⟩⟩ := tickOutcome_next h
    · exact congrArg (·.read a) himem
    · exact congrArg (·.read a) ((congrArg MemoryBus.imem (exec_next_bus hu)).trans himem)

/-! ### The fetch beyond the internal region -/

theorem fetchDecode_beyond {s : State} (h : 0xC00 ≤ s.regs.pc.toNat) :
    fetchDecode s = .error (.fault (.fetchOutsideInternal s.regs.pc)) := by
  unfold fetchDecode pcBacked
  exact if_neg fun hlt => Nat.not_lt.2 h (of_decide_eq_true hlt)

/-- A fetch that leaves a mark stops the tick of an unmarked state with a free engine (R403, R405). -/
theorem tickOutcome_of_fetch_error {fetch : State → FetchResult} {s : State} {m : Mark} (hmark : s.eng.mark = none)
    (hbusy : s.eng.busy = 0) (hfetch : fetch (s.deviceSteps chipCfg) = .error m) :
    tickOutcome fetch s = m.outcome := by
  have hfree : ¬0 < (s.deviceSteps chipCfg).eng.busy := by rw [(s.deviceSteps_kept chipCfg).busy, hbusy]; omega
  unfold tickOutcome engineStep
  simp only [hmark, if_neg hfree, hfetch]
  cases m <;> rfl

/-- The state in which such a tick stops: that after the device steps, marked. -/
theorem tickWith_of_fetch_error {fetch : State → FetchResult} {s : State} {m : Mark} (hmark : s.eng.mark = none)
    (hbusy : s.eng.busy = 0) (hfetch : fetch (s.deviceSteps chipCfg) = .error m) :
    tickWith fetch s = (s.deviceSteps chipCfg).withMark m := by
  rw [tickWith_of_stop hmark (tickOutcome_of_fetch_error hmark hbusy hfetch)]
  simp only [lcdAtStop, hfetch]
  rfl

/-- Settles O39. -/
theorem fetchBeyondInternalRegionFaults : Obligations.FetchBeyondInternalRegionFaults := by
  unfold Obligations.FetchBeyondInternalRegionFaults
  intro s hmark hbusy hpc
  have hk := s.deviceSteps_kept chipCfg
  have hfetch := (fetchDecode_deviceSteps s).trans (fetchDecode_beyond hpc)
  have htick : tick s = _ := tickWith_of_fetch_error hmark hbusy hfetch
  rw [htick]
  exact ⟨tickOutcome_of_fetch_error hmark hbusy hfetch, rfl, hk.regs, hk.imem, hk.lcd, hk.cycles, rfl⟩

/-! ### The value of a display write -/

theorem setWidth_nibbleByte (v : Nibble) : (nibbleByte v).setWidth 4 = v := by
  revert v; decide

theorem getLsbD_nibbleByte_zero (v : Nibble) : (nibbleByte v).getLsbD 0 = v.getLsbD 0 := by
  revert v; decide

/-- Bit 0 of the two nibbles read as one byte is that of the second (R205). -/
theorem getLsbD_append_zero (v w : Nibble) : (v ++ w).getLsbD 0 = w.getLsbD 0 := by
  revert v w; decide

/-! ### The latched display write, place by place (R85, R302) -/

section
variable (c : Cfg) (v : Byte) (l : Lcd)

theorem Lcd.dispWrite_directDraw (hd : c.ctrlOn l.dctrl[7] = true) (h : l.la.toNat < 64) :
    Lcd.dispWrite c v l =
      .ok { Lcd.paint (c.directPaint l.cursor v (c.mirrorMode l.dctrl[1])) l with
        cursor := min (l.cursor + 1) 512, la := l.la + 1 } :=
  if_pos ⟨hd, h⟩

theorem Lcd.dispWrite_ddram (hd : ¬c.ctrlOn l.dctrl[7] = true) (h : l.la.toNat < 64) :
    Lcd.dispWrite c v l =
      .ok { l with ddram := l.ddram.setIfInBounds l.la.toNat (v.setWidth 4), la := l.la + 1 } := by
  rw [Lcd.dispWrite_eq_target c v l fun hdd => hd hdd.1, Lcd.target_ddram c _ v l h]

theorem Lcd.dispWrite_daram (h : 64 ≤ l.la.toNat) (h' : l.la.toNat < 112) :
    Lcd.dispWrite c v l =
      .ok { l with daram := l.daram.setIfInBounds (l.la.toNat - 64) (v.getLsbD 0), la := l.la + 1 } := by
  rw [Lcd.dispWrite_eq_target c v l (by omega), Lcd.target_daram c _ v l h h']

theorem Lcd.dispWrite_transient (h : l.la.toNat = 127) (hb : v.getLsbD 0 = true) :
    Lcd.dispWrite c v l = .error .transientDirectDraw := by
  rw [Lcd.dispWrite_eq_target c v l (by omega), Lcd.target_transient c _ v l h hb]

theorem Lcd.dispWrite_high (h : 128 ≤ l.la.toNat) :
    Lcd.dispWrite c v l = .error (.displayAddressHigh l.la) := by
  rw [Lcd.dispWrite_eq_target c v l (by omega), Lcd.target_high c _ v l h]

/-- No effect of a control-register write reads or writes LA (R310 to R325). -/
theorem Lcd.controlEffect_withLa (n : Nat) (a : BitVec 8) :
    { Lcd.controlEffect c n v l with la := a } = Lcd.controlEffect c n v { l with la := a } := by
  unfold Lcd.controlEffect
  split
  case h_1 =>
    have hfill : Lcd.testFill c { l with la := a } = l.testFill c := rfl
    rw [hfill]
    split <;> rfl
  case h_9 => rfl
  all_goals split <;> rfl

theorem Lcd.dispWrite_dctrl {n : Nat} (h : l.la.toNat = 112 + n) (hn : n < 16)
    (ht : n = 15 → v.getLsbD 0 = false) :
    Lcd.dispWrite c v l =
      .ok (Lcd.controlEffect c n v { l with dctrl := l.dctrl.setIfInBounds n (v.setWidth 4), la := l.la + 1 }) := by
  have hidx : l.la.toNat - 112 = n := by omega
  rw [Lcd.dispWrite_eq_target c v l (by omega),
    Lcd.target_dctrl c _ v l (by omega) (by omega) fun hla => ht (by omega), hidx]
  exact congrArg Except.ok (Lcd.controlEffect_withLa c v _ n _)

/-- Where a latched write is not refused (R85, R306). -/
theorem Lcd.dispWrite_isOk (h : l.la.toNat < 128) (ht : l.la.toNat = 127 → v.getLsbD 0 = false) :
    ∃ m, Lcd.dispWrite c v l = .ok m := by
  by_cases h64 : l.la.toNat < 64
  · by_cases hd : c.ctrlOn l.dctrl[7] = true
    · exact ⟨_, Lcd.dispWrite_directDraw c v l hd h64⟩
    · exact ⟨_, Lcd.dispWrite_ddram c v l hd h64⟩
  · by_cases h112 : l.la.toNat < 112
    · exact ⟨_, Lcd.dispWrite_daram c v l (by omega) h112⟩
    · exact ⟨_, Lcd.dispWrite_dctrl c v l (n := l.la.toNat - 112) (by omega) (by omega) fun hn => ht (by omega)⟩

/-! ### The effect of a control register (R310 to R325) -/

theorem Lcd.controlEffect_none {n : Nat} (h : n < 9) (h6 : n ≠ 6) : Lcd.controlEffect c n v l = l := by
  unfold Lcd.controlEffect
  split
  case h_9 => rfl
  all_goals omega

theorem Lcd.controlEffect_testFill : Lcd.controlEffect c 6 v l = if c.ctrlOn l.dctrl[6] then l.fillPix else l := rfl

theorem Lcd.controlEffect_action {n : Nat} (h : 9 ≤ n) (h' : n < 16) :
    Lcd.controlEffect c n v l = if c.actionFires v then firedAction n l else l := by
  obtain ⟨k, rfl⟩ := Nat.exists_eq_add_of_le' h
  obtain rfl | rfl | rfl | rfl | rfl | rfl | rfl :
      k = 0 ∨ k = 1 ∨ k = 2 ∨ k = 3 ∨ k = 4 ∨ k = 5 ∨ k = 6 := by omega
  all_goals rfl

end

/-! ### The display-write forms -/

/-- What a display-write form leaves that is not refused: the display it wrote, and PC + 1. -/
theorem State.finishDisplay_ok (s : State) {res : Except Refusal Lcd} {l : Lcd} (h : res = .ok l) :
    ∃ t, s.finishDisplay res = .next t ∧ DisplayWritten s t ∧ t.lcd = l := by
  subst h
  exact ⟨_, rfl, ⟨⟨⟨rfl, rfl⟩, ⟨rfl, rfl⟩, ⟨rfl, rfl, rfl⟩, rfl⟩, rfl, rfl, .of_bus_eq rfl, rfl⟩, rfl⟩

theorem State.finishDisplay_error (s : State) {res : Except Refusal Lcd} {r : Refusal} (h : res = .error r) :
    s.finishDisplay res = .refused r := by
  subst h; rfl

theorem exec_dw_ok {s : State} {y : Reg} {l : Lcd} (h : s.lcd.dispWrite chipCfg (nibbleByte (s.regs.x y)) = .ok l) :
    ∃ t, exec (.dw y) s = .next t ∧ DisplayWritten s t ∧ t.lcd = l :=
  s.finishDisplay_ok h

theorem exec_dw_error {s : State} {y : Reg} {r : Refusal}
    (h : s.lcd.dispWrite chipCfg (nibbleByte (s.regs.x y)) = .error r) : exec (.dw y) s = .refused r :=
  s.finishDisplay_error h

/-- Settles O21, by the part of the address map that LA names. -/
theorem displayWriteReachesCellOrPixels : Obligations.DisplayWriteReachesCellOrPixels := by
  unfold Obligations.DisplayWriteReachesCellOrPixels
  intro s y hla
  refine ⟨rfl, ?_⟩
  by_cases h64 : s.lcd.la.toNat < 64
  · by_cases hd : chipCfg.ctrlOn s.lcd.dctrl[7] = true
    · rw [if_pos ⟨hd, h64⟩]
      exact exec_dw_ok (Lcd.dispWrite_directDraw chipCfg _ s.lcd hd h64)
    · rw [if_neg fun h => hd h.1, if_pos h64]
      have hw := Lcd.dispWrite_ddram chipCfg (nibbleByte (s.regs.x y)) s.lcd hd h64
      rw [setWidth_nibbleByte] at hw
      exact exec_dw_ok hw
  · rw [if_neg fun h => h64 h.2, if_neg h64]
    have hw := Lcd.dispWrite_daram chipCfg (nibbleByte (s.regs.x y)) s.lcd (Nat.not_lt.1 h64) hla
    rw [getLsbD_nibbleByte_zero] at hw
    exact exec_dw_ok hw

/-- Settles O22: the store into the control register, then the effect of its index. -/
theorem controlRegisterWriteAppliesEffect : Obligations.ControlRegisterWriteAppliesEffect := by
  unfold Obligations.ControlRegisterWriteAppliesEffect
  intro s y n hla hn v fires l
  have hw := Lcd.dispWrite_dctrl chipCfg (nibbleByte v) s.lcd hla (by omega) fun h15 => by
    rw [getLsbD_nibbleByte_zero]
    exact (hn.resolve_left (by omega)).2
  rw [setWidth_nibbleByte] at hw
  obtain ⟨t, hnext, hwritten, hlcd⟩ := exec_dw_ok hw
  refine ⟨t, hnext, hwritten, fun h => ?_, fun h => ?_, fun h => ?_⟩
  · rw [hlcd, Lcd.controlEffect_none chipCfg _ _ h.1 h.2]
  · subst h
    have hstored : l.dctrl[6] = v := Vector.getElem_setIfInBounds_self (by decide)
    rw [hlcd, Lcd.controlEffect_testFill, hstored]
    rfl
  · rw [hlcd, Lcd.controlEffect_action chipCfg _ _ h (by omega)]
    rfl

/-! ### The two writes of `dw2` (R205) -/

section
variable {c : Cfg} {y1 y2 : Reg} {s : State}

theorem dw2Writes_oneByte (hmode : c.dw2Mode = .oneByte) :
    dw2Writes c y1 y2 s = s.lcd.dispWrite c (s.regs.x y1 ++ s.regs.x y2) := by
  unfold dw2Writes; rw [hmode]

theorem dw2Writes_first_error (hmode : c.dw2Mode = .twoNibbles) {r : Refusal}
    (h : s.lcd.dispWrite c (nibbleByte (s.regs.x y1)) = .error r) : dw2Writes c y1 y2 s = .error r := by
  unfold dw2Writes dw2First; rw [hmode, h]

theorem dw2Writes_first_ok (hmode : c.dw2Mode = .twoNibbles) {m : Lcd}
    (h : s.lcd.dispWrite c (nibbleByte (s.regs.x y1)) = .ok m) :
    dw2Writes c y1 y2 s = m.dispWrite c (nibbleByte (s.regs.x y2)) := by
  unfold dw2Writes dw2First; rw [hmode, h]

/-- The second write of two goes to the next address. -/
theorem dw2Writes_second (hmode : c.dw2Mode = .twoNibbles) (h : s.lcd.la.toNat < 128)
    (ht : s.lcd.la.toNat = 127 → (s.regs.x y1).getLsbD 0 = false) :
    ∃ m : Lcd, m.la = s.lcd.la + 1 ∧ dw2Writes c y1 y2 s = m.dispWrite c (nibbleByte (s.regs.x y2)) := by
  obtain ⟨m, hm⟩ := Lcd.dispWrite_isOk c (nibbleByte (s.regs.x y1)) s.lcd h
    (by rwa [getLsbD_nibbleByte_zero])
  exact ⟨m, (Lcd.dispWrite_kept c _ _ m hm).2, dw2Writes_first_ok hmode hm⟩

end

theorem exec_dw2_error {s : State} {y1 y2 : Reg} {r : Refusal} (h : dw2Writes chipCfg y1 y2 s = .error r) :
    exec (.dw2 y1 y2) s = .refused r :=
  s.finishDisplay_error h

/-- Read as one byte, a `dw2` ends where its latched write is not refused. -/
theorem exec_dw2_oneByte_ok {s : State} {y1 y2 : Reg} (hmode : chipCfg.dw2Mode = .oneByte) (h : s.lcd.la.toNat < 128)
    (ht : s.lcd.la.toNat = 127 → (s.regs.x y2).getLsbD 0 = false) :
    ∃ t, exec (.dw2 y1 y2) s = .next t ∧ DisplayWritten s t := by
  obtain ⟨m, hm⟩ := Lcd.dispWrite_isOk chipCfg (s.regs.x y1 ++ s.regs.x y2) s.lcd h
    (by rwa [getLsbD_append_zero])
  obtain ⟨t, hnext, hwritten, -⟩ := s.finishDisplay_ok ((dw2Writes_oneByte hmode).trans hm)
  exact ⟨t, hnext, hwritten⟩

theorem exec_dw2_high {s : State} (y1 y2 : Reg) (h : 128 ≤ s.lcd.la.toNat) :
    exec (.dw2 y1 y2) s = .refused (.displayAddressHigh s.lcd.la) := by
  cases hmode : chipCfg.dw2Mode with
  | twoNibbles => exact exec_dw2_error (dw2Writes_first_error hmode (Lcd.dispWrite_high chipCfg _ _ h))
  | oneByte => exact exec_dw2_error ((dw2Writes_oneByte hmode).trans (Lcd.dispWrite_high chipCfg _ _ h))

/-- At LA 127 two writes stop at the first one with bit 0 set, and else at the second, which goes to 128. -/
theorem exec_dw2_twoNibbles_127 {s : State} (y1 y2 : Reg) (hmode : chipCfg.dw2Mode = .twoNibbles)
    (h : s.lcd.la.toNat = 127) :
    exec (.dw2 y1 y2) s =
      .refused (if (s.regs.x y1).getLsbD 0 = true then .transientDirectDraw else .displayAddressHigh 128) := by
  split
  · next hb =>
    exact exec_dw2_error (dw2Writes_first_error hmode
      (Lcd.dispWrite_transient chipCfg _ _ h (by rwa [getLsbD_nibbleByte_zero])))
  · next hb =>
    obtain ⟨m, hla, hm⟩ := dw2Writes_second (y2 := y2) hmode (by omega) fun _ => Bool.eq_false_of_not_eq_true hb
    have hla' : m.la = 128 := by rw [hla]; bv_omega
    have hhigh := Lcd.dispWrite_high chipCfg (nibbleByte (s.regs.x y2)) m (by rw [hla']; decide)
    rw [hla'] at hhigh
    exact exec_dw2_error (hm.trans hhigh)

/-- At LA 126 the second of two writes goes to 127. -/
theorem exec_dw2_twoNibbles_126 {s : State} (y1 y2 : Reg) (hmode : chipCfg.dw2Mode = .twoNibbles)
    (h : s.lcd.la.toNat = 126) (hb : (s.regs.x y2).getLsbD 0 = true) :
    exec (.dw2 y1 y2) s = .refused .transientDirectDraw := by
  obtain ⟨m, hla, hm⟩ := dw2Writes_second (s := s) (y1 := y1) (y2 := y2) hmode (by omega) (by omega)
  have hla' : m.la.toNat = 127 := by rw [hla]; bv_omega
  exact exec_dw2_error (hm.trans (Lcd.dispWrite_transient chipCfg _ m hla' (by rwa [getLsbD_nibbleByte_zero])))

/-- Settles O23: the refusals of one write, and for `dw2` of the write it makes at 127 or 128. -/
theorem displayWriteRefusesUnmappedAndTransient : Obligations.DisplayWriteRefusesUnmappedAndTransient := by
  unfold Obligations.DisplayWriteRefusesUnmappedAndTransient
  intro s y y2 b1 b2
  refine ⟨fun h => ⟨exec_dw_error (Lcd.dispWrite_high chipCfg _ _ h), exec_dw2_high y y2 h⟩, fun h hb => ?_,
    fun h => ?_, fun h hb => ?_⟩
  · exact exec_dw_error (Lcd.dispWrite_transient chipCfg _ _ h (by rwa [getLsbD_nibbleByte_zero]))
  · cases hmode : chipCfg.dw2Mode with
    | twoNibbles => exact exec_dw2_twoNibbles_127 y y2 hmode h
    | oneByte =>
      dsimp only
      split
      · next hb =>
        exact exec_dw2_error ((dw2Writes_oneByte hmode).trans
          (Lcd.dispWrite_transient chipCfg _ _ h (by rwa [getLsbD_append_zero])))
      · next hb => exact exec_dw2_oneByte_ok hmode (by omega) fun _ => Bool.eq_false_of_not_eq_true hb
  · cases hmode : chipCfg.dw2Mode with
    | twoNibbles => exact exec_dw2_twoNibbles_126 y y2 hmode h hb
    | oneByte => exact exec_dw2_oneByte_ok hmode (by omega) fun h127 => by omega

/-! ### ISP events and the shift buffer -/

theorem Devices.getSr_ispEvent_eq_ispRaised (c : Cfg) (n : BitIdx) (d : Devices) (j : SRIdx) :
    (d.ispEvent c n).getSr j = ispRaised c n j (d.getSr j) := by
  rw [Devices.getSr_ispEvent]
  unfold ispRaised
  split <;> rfl

/-- The special registers after a shift, SR5 first. -/
theorem Devices.getSr_setShift_eq_ite (d : Devices) (b : Byte) (j : SRIdx) :
    (d.setShift b).getSr j = if j = 5 then b.extractLsb' 4 4 else if j = 6 then b.extractLsb' 0 4 else d.getSr j := by
  rw [Devices.getSr_setShift]
  by_cases h5 : j = 5
  · subst h5; rfl
  · simp only [if_neg h5]

/-- The byte in the shift buffer, put into one again, leaves SR5 and SR6 as they were (R365). -/
theorem Devices.getSr_setShift_shiftByte (d e : Devices) :
    (e.setShift d.shiftByte).getSr 5 = d.getSr 5 ∧ (e.setShift d.shiftByte).getSr 6 = d.getSr 6 := by
  rw [Devices.getSr_setShift_eq_ite, Devices.getSr_setShift_eq_ite]
  exact ⟨BitVec.extractLsb'_append_eq_left, BitVec.extractLsb'_append_eq_right⟩

/-- The mirror of a sent byte into SR5:SR6 while receive is enabled (R364, R365). -/
def Devices.mirror (d : Devices) (b : Byte) : Devices := if d.ispRxen then d.setShift b else d

theorem Devices.mirror_on {d : Devices} (h : d.ispRxen = true) (b : Byte) : d.mirror b = d.setShift b := if_pos h

theorem Devices.mirror_frame (d : Devices) (b : Byte) : d.mirror b = { d with sr := (d.mirror b).sr } := by
  unfold Devices.mirror; split <;> rfl

theorem Devices.getSr_mirror_other (d : Devices) (b : Byte) {j : SRIdx} (h : d.ispRxen = false ∨ j ≠ 5 ∧ j ≠ 6) :
    (d.mirror b).getSr j = d.getSr j := by
  unfold Devices.mirror
  split
  · next hrx =>
    obtain ⟨h5, h6⟩ := h.resolve_left (by rw [hrx]; exact nofun)
    rw [Devices.getSr_setShift, if_neg h6, if_neg h5]
  · rfl

/-! ### The transmit slot (R363 to R365) -/

/-- The devices when the divider comes round to the slot. -/
def Devices.atSlot (d : Devices) : Devices := { d with ispDiv := 0 }

/-- The end of a transmit: done is raised, nothing is armed. -/
def Devices.endTransmit (c : Cfg) (d : Devices) : Devices := { d.ispDone c with ispTxpend := false }

/-- The end of one byte of a DMA transmit: the transmit ends with it where SA has come to a page boundary (R364). -/
def Devices.endDmaByte (c : Cfg) (sa : BitVec 11) (d : Devices) : Devices :=
  if sa.toNat % c.ispPage = 0 then d.endTransmit c else d

theorem Devices.getSr_endTransmit (c : Cfg) (d : Devices) (j : SRIdx) :
    (d.endTransmit c).getSr j = ispRaised c c.ispDoneBit j (d.getSr j) :=
  d.getSr_ispEvent_eq_ispRaised c c.ispDoneBit j

theorem Devices.getSr_endDmaByte (c : Cfg) (sa : BitVec 11) (d : Devices) (j : SRIdx) :
    (d.endDmaByte c sa).getSr j =
      if sa.toNat % c.ispPage = 0 then ispRaised c c.ispDoneBit j (d.getSr j) else d.getSr j := by
  unfold Devices.endDmaByte
  split
  · exact d.getSr_endTransmit c j
  · rfl

@[simp] theorem Devices.endDmaByte_ispRxen (c : Cfg) (sa : BitVec 11) (d : Devices) :
    (d.endDmaByte c sa).ispRxen = d.ispRxen := by
  unfold Devices.endDmaByte; split <;> rfl

/-- An armed transmit stays armed after a byte but at a page boundary. -/
theorem Devices.endDmaByte_ispTxpend (c : Cfg) (sa : BitVec 11) {d : Devices} (h : d.ispTxpend = true) :
    (d.endDmaByte c sa).ispTxpend = true ↔ ¬sa.toNat % c.ispPage = 0 := by
  unfold Devices.endDmaByte
  split
  · next hsa => exact ⟨nofun, fun hne => absurd hsa hne⟩
  · next hsa => exact ⟨fun _ => hsa, fun _ => h⟩

theorem State.regTransmit_eq (c : Cfg) (s : State) :
    s.regTransmit c =
      { s with
        dev := (s.dev.endTransmit c).mirror s.dev.shiftByte
        eng := { s.eng with trace := s.eng.trace ++ [(s.eng.cycles + 1, .tx s.dev.shiftByte)] } } := rfl

theorem State.dmaTransmit_eq (c : Cfg) (s : State) :
    s.dmaTransmit c =
      { s with
        dev := (s.dev.endDmaByte c (s.bus.sa + 1)).mirror (s.bus.xmem.read s.bus.sa.toNat)
        bus := { s.bus with sa := s.bus.sa + 1 }
        eng := { s.eng with
          trace := s.eng.trace ++ [(s.eng.cycles + 1, .tx (s.bus.xmem.read s.bus.sa.toNat))] } } := by
  unfold State.dmaTransmit MemoryBus.extReadByte Devices.endDmaByte
  dsimp only
  split <;> rfl

theorem State.ispStep_idle (c : Cfg) {s : State}
    (h : ¬((s.dev.ispDiv + 1) % 24 = 0 ∧ s.dev.ispTxpend = true ∧ s.dev.ispTxen = true)) :
    s.ispStep c = s.mapDev fun d => { d with ispDiv := (s.dev.ispDiv + 1) % 24 } :=
  if_neg h

theorem State.ispStep_slot (c : Cfg) {s : State} (hdiv : (s.dev.ispDiv + 1) % 24 = 0) (hpend : s.dev.ispTxpend = true)
    (hen : s.dev.ispTxen = true) :
    s.ispStep c =
      if s.dev.ispMode then (s.mapDev Devices.atSlot).dmaTransmit c else (s.mapDev Devices.atSlot).regTransmit c := by
  have hslot : (s.mapDev fun d => { d with ispDiv := (d.ispDiv + 1) % 24 }) = s.mapDev Devices.atSlot := by
    simp only [State.mapDev, Devices.atSlot, hdiv]
  unfold State.ispStep
  simp only [hslot]
  exact if_pos ⟨rfl, hpend, hen⟩

theorem toNat_sa_succ (a : BitVec 11) : (a + 1).toNat = (a.toNat + 1) % 0x800 := BitVec.toNat_add a 1

/-- The frame of the ISP step in its slot. -/
theorem State.ispStep_slot_frame (c : Cfg) (s : State) (hdiv : (s.dev.ispDiv + 1) % 24 = 0) :
    s.ispStep c =
      { s with
        dev := { s.dev with sr := (s.ispStep c).dev.sr, ispTxpend := (s.ispStep c).dev.ispTxpend, ispDiv := 0 }
        bus := { s.bus with sa := (s.ispStep c).bus.sa }
        eng := { s.eng with trace := (s.ispStep c).eng.trace } } := by
  have hframe := s.ispStep_frame c
  rwa [hdiv] at hframe

/-- Settles O44, by the equation of the ISP step outside the slot and in it in each mode. -/
theorem ispSlotTransmitsOneByte : Obligations.IspSlotTransmitsOneByte := by
  unfold Obligations.IspSlotTransmitsOneByte
  intro c s div t b
  refine ⟨State.ispStep_idle c, fun hdiv hpend hen hmode => ?_, fun hdiv hpend hen hmode => ?_⟩
  · have hreg : t = _ := (State.ispStep_slot c hdiv hpend hen).trans
      ((if_neg (by rw [hmode]; exact nofun)).trans (State.regTransmit_eq c _))
    have hdev : t.dev = (s.dev.atSlot.endTransmit c).mirror s.dev.shiftByte := congrArg State.dev hreg
    refine ⟨congrArg (·.eng.trace) hreg, fun hrx => ?_, fun j hj => ?_, ?_⟩
    · rw [hdev, Devices.mirror_on (d := s.dev.atSlot.endTransmit c) hrx]
      exact s.dev.getSr_setShift_shiftByte _
    · rw [hdev, Devices.getSr_mirror_other (s.dev.atSlot.endTransmit c) _ hj]
      exact s.dev.atSlot.getSr_endTransmit c j
    · have hpend' : (s.ispStep c).dev.ispTxpend = false := by
        change t.dev.ispTxpend = false
        rw [hdev, Devices.mirror_frame]; rfl
      have hsa : (s.ispStep c).bus.sa = s.bus.sa := congrArg (·.bus.sa) hreg
      have hframe := s.ispStep_slot_frame c hdiv
      rwa [hpend', hsa] at hframe
  · have hdma : t = _ := (State.ispStep_slot c hdiv hpend hen).trans
      ((if_pos hmode).trans (State.dmaTransmit_eq c _))
    have hdev : t.dev = (s.dev.atSlot.endDmaByte c (s.bus.sa + 1)).mirror b := congrArg State.dev hdma
    have hbus : t.bus = { s.bus with sa := s.bus.sa + 1 } := congrArg State.bus hdma
    have hrxen := s.dev.atSlot.endDmaByte_ispRxen c (s.bus.sa + 1)
    refine ⟨congrArg (·.eng.trace) hdma, ?_, fun a => ?_, ?_, fun hrx => ?_, fun j hj => ?_, s.ispStep_slot_frame c hdiv⟩
    · rw [hbus]; exact toNat_sa_succ s.bus.sa
    · rw [hbus]; exact ⟨rfl, rfl⟩
    · rw [hdev, hbus, Devices.mirror_frame]
      exact Devices.endDmaByte_ispTxpend c _ hpend
    · rw [hdev, Devices.mirror_on (hrxen.trans hrx)]
      exact Devices.setShift_append _ b
    · rw [hdev, hbus, Devices.getSr_mirror_other _ _ (by rwa [hrxen])]
      exact s.dev.atSlot.getSr_endDmaByte c (s.bus.sa + 1) j

/-! ### Receive (R367) -/

/-- The devices when a DMA receive has stored a byte: done is raised where SA has come to a page boundary. -/
def Devices.endReceive (c : Cfg) (sa : BitVec 11) (d : Devices) : Devices :=
  if sa.toNat % c.ispPage = 0 then d.ispDone c else d

/-- The devices when a byte is immediate data: it is raised, and a transmit is armed if transmit is enabled. -/
def Devices.immediateData (c : Cfg) (d : Devices) : Devices :=
  { d.ispEvent c c.ispImmBit with ispTxpend := d.ispTxpend || d.ispTxen }

theorem Devices.getSr_endReceive (c : Cfg) (sa : BitVec 11) (d : Devices) (j : SRIdx) :
    (d.endReceive c sa).getSr j =
      if sa.toNat % c.ispPage = 0 then ispRaised c c.ispDoneBit j (d.getSr j) else d.getSr j := by
  unfold Devices.endReceive
  split
  · exact d.getSr_ispEvent_eq_ispRaised c c.ispDoneBit j
  · rfl

theorem Devices.endReceive_frame (c : Cfg) (sa : BitVec 11) (d : Devices) :
    d.endReceive c sa = { d with sr := (d.endReceive c sa).sr } := by
  unfold Devices.endReceive; split <;> rfl

theorem Devices.immediateData_eq_ite (c : Cfg) (d : Devices) :
    d.immediateData c =
      if (d.ispEvent c c.ispImmBit).ispTxen then { d.ispEvent c c.ispImmBit with ispTxpend := true }
      else d.ispEvent c c.ispImmBit := by
  have hkept := d.ispEvent_sameHidden c c.ispImmBit
  unfold Devices.immediateData
  rw [hkept.ispTxen]
  cases d.ispTxen with
  | true => rw [Bool.or_true]; rfl
  | false => rw [Bool.or_false]; rfl

theorem Devices.getSr_immediateData (c : Cfg) (d : Devices) (j : SRIdx) :
    (d.immediateData c).getSr j = ispRaised c c.ispImmBit j (d.getSr j) :=
  d.getSr_ispEvent_eq_ispRaised c c.ispImmBit j

theorem ispRaised_other {c : Cfg} (n : BitIdx) {j : SRIdx} (v : Nibble) (h0 : j ≠ 0) (h : c.ispStatusSr ≠ j) :
    ispRaised c n j v = v :=
  (if_neg h0).trans (if_neg h.symm)

section
variable (c : Cfg) (b : Byte) {s : State}

theorem State.receive_off (h : s.dev.ispRxen = false) : s.receive c b = s := if_pos h

theorem State.receive_store (hrx : s.dev.ispRxen = true) (h : s.dev.ispMode = true ∧ s.dev.ispTxpend = false) :
    s.receive c b =
      { s with dev := (s.dev.setShift b).endReceive c (s.bus.sa + 1), bus := s.bus.extWriteByte b } := by
  unfold State.receive
  rw [if_neg (by rw [hrx]; exact nofun)]
  refine (if_pos h).trans ?_
  unfold Devices.endReceive
  by_cases hsa : (s.bus.sa + 1).toNat % c.ispPage = 0
  · rw [if_pos hsa]; exact if_pos hsa
  · rw [if_neg hsa]; exact if_neg hsa

theorem State.receive_immediate (hrx : s.dev.ispRxen = true)
    (h : ¬(s.dev.ispMode = true ∧ s.dev.ispTxpend = false)) :
    s.receive c b = { s with dev := (s.dev.setShift b).immediateData c } := by
  unfold State.receive
  rw [if_neg (by rw [hrx]; exact nofun)]
  exact (if_neg h).trans (congrArg (fun d => { s with dev := d }) ((s.dev.setShift b).immediateData_eq_ite c).symm)

/-- Whatever becomes of the byte, `rx` reaches the devices and the memory bus only. -/
theorem State.receive_kept (s : State) :
    (s.receive c b).regs = s.regs ∧ (s.receive c b).lcd = s.lcd ∧ (s.receive c b).eng = s.eng := by
  by_cases hrx : s.dev.ispRxen = true
  · by_cases h : s.dev.ispMode = true ∧ s.dev.ispTxpend = false
    · rw [State.receive_store c b hrx h]; exact ⟨rfl, rfl, rfl⟩
    · rw [State.receive_immediate c b hrx h]; exact ⟨rfl, rfl, rfl⟩
  · rw [State.receive_off c b (Bool.eq_false_of_not_eq_true hrx)]; exact ⟨rfl, rfl, rfl⟩

/-- A status register beside the shift buffer leaves the byte in it, whatever event is raised. -/
theorem State.receive_shiftByte (hrx : s.dev.ispRxen = true) (h5 : c.ispStatusSr ≠ 5) (h6 : c.ispStatusSr ≠ 6) :
    (s.receive c b).dev.getSr 5 ++ (s.receive c b).dev.getSr 6 = b := by
  have hraised : ∀ n v, ispRaised c n 5 v = v ∧ ispRaised c n 6 v = v := fun n v =>
    ⟨ispRaised_other n v (by decide) h5, ispRaised_other n v (by decide) h6⟩
  by_cases h : s.dev.ispMode = true ∧ s.dev.ispTxpend = false
  · rw [State.receive_store c b hrx h]
    simp only [Devices.getSr_endReceive, hraised, ite_self]
    exact s.dev.setShift_append b
  · rw [State.receive_immediate c b hrx h]
    simp only [Devices.getSr_immediateData, hraised]
    exact s.dev.setShift_append b

end

/-- Settles O45, by the equation of a receive that stores and of one that does not. -/
theorem receiveStoresOrRaisesImmediateData : Obligations.ReceiveStoresOrRaisesImmediateData := by
  unfold Obligations.ReceiveStoresOrRaisesImmediateData
  intro c s b t shifted
  have hshift : ∀ j, (s.dev.setShift b).getSr j = shifted j := s.dev.getSr_setShift_eq_ite b
  refine ⟨State.receive_off c b, State.receive_shiftByte c b, fun hrx hmode hpend => ?_, fun hrx h => ?_,
    s.receive_kept c b⟩
  · have hstore : t = _ := State.receive_store c b hrx ⟨hmode, hpend⟩
    rw [hstore]
    refine ⟨fun hinv => ?_, rfl, toNat_sa_succ s.bus.sa, WordSet.mem_insert _ _, rfl, fun j => ?_, ?_⟩
    · have hread := Memory.read_write xmemSize s.bus.xmem s.bus.sa.toNat b
      exact ⟨(hread _ hinv.xmem_wf).trans (if_pos rfl), fun a ha => (hread a hinv.xmem_wf).trans (if_neg ha)⟩
    · rw [← hshift j]
      exact Devices.getSr_endReceive c _ _ j
    · exact Devices.endReceive_frame c _ _
  · have himm : t = _ := State.receive_immediate c b hrx h
    rw [himm]
    refine ⟨rfl, fun a => ⟨rfl, rfl⟩, fun j => ?_, rfl⟩
    rw [← hshift j]
    exact Devices.getSr_immediateData c _ j

end Sys2Proof.Machine
end

section
/-! PROOFS. The decoder (spec/30_encoding.md): what R104 gives of a decoded form, and the step that runs it (R109,
R403 to R405). -/

namespace Sys2Proof

/-! ### What is known of the decoder -/

theorem decode_zero_ne_none : decode 0 ≠ none := Machine.chipCfg_valid.decode_zero

theorem wellFormed_of_decode {w : Word16} {i : Instr} (h : decode w = some i) : i.WellFormed = true :=
  Machine.chipCfg_valid.decode_wellFormed _ _ i h

end Sys2Proof

namespace Sys2Proof.Machine

/-- Settles O58, by the two constraints of R104 on the chip's decoder. -/
theorem zeroWordDecodesAndDecodedFormsAreWellFormed :
    Obligations.ZeroWordDecodesAndDecodedFormsAreWellFormed := by
  unfold Obligations.ZeroWordDecodesAndDecodedFormsAreWellFormed
  exact ⟨decode_zero_ne_none, fun _ _ => wellFormed_of_decode⟩

/-! ### The step of a fetched form -/

/-- What the tick makes of the outcome of the form it ran: a next state takes the rest of the form's cost as its busy
count, then the display step and the cycle count; a stop is the tick's own (R403 to R405). -/
def tickEnd (i : Instr) : Host.Outcome State Fault Refusal → Host.Outcome State Fault Refusal
  | .next t => .next ((t.setBusy (cost i - 1)).finishTick chipCfg)
  | .fault r => .fault r
  | .refused r => .refused r

/-- A free engine runs the form it fetches, in the state after the device steps (R403 to R405). -/
theorem tickOutcome_of_fetch_ok {fetch : State → FetchResult} {s : State} {i : Instr} (hmark : s.eng.mark = none)
    (hbusy : s.eng.busy = 0) (hfetch : fetch (s.deviceSteps chipCfg) = .ok i) :
    tickOutcome fetch s = tickEnd i (exec i (s.deviceSteps chipCfg)) := by
  have hfree : ¬0 < (s.deviceSteps chipCfg).eng.busy := by rw [(s.deviceSteps_kept chipCfg).busy, hbusy]; omega
  unfold tickOutcome engineStep
  simp only [hmark, if_neg hfree, hfetch]
  cases exec i (s.deviceSteps chipCfg) <;> rfl

theorem fetchDecode_undecoded {s : State} (hpc : s.regs.pc.toNat < 0xC00)
    (h : decode (s.bus.fetchOpcode s.regs.pc) = none) :
    fetchDecode s = .error (.refused (.undecoded (s.bus.fetchOpcode s.regs.pc))) := by
  unfold fetchDecode pcBacked
  rw [if_pos (decide_eq_true hpc), h]

/-- Settles O37, by what the word at PC decodes to: the device steps leave the fetch as it was, so a form is the one
the step runs, and no form is the fetch's refusal. -/
theorem stepRunsTheDecodedInstruction : Obligations.StepRunsTheDecodedInstruction := by
  unfold Obligations.StepRunsTheDecodedInstruction
  intro s hmark hbusy hpc w
  cases hd : decode w with
  | none =>
    exact tickOutcome_of_fetch_error hmark hbusy ((fetchDecode_deviceSteps s).trans (fetchDecode_undecoded hpc hd))
  | some i =>
    have hstep : step s = tickEnd i (exec i (s.deviceSteps chipCfg)) :=
      tickOutcome_of_fetch_ok hmark hbusy ((fetchDecode_deviceSteps s).trans (fetchDecode_eq_ok.2 ⟨hpc, hd⟩))
    refine ⟨wellFormed_of_decode hd, ?_⟩
    rw [hstep]
    cases exec i (s.deviceSteps chipCfg) with
    | next t | fault r | refused r => rfl

end Sys2Proof.Machine
end

section
/-! PROOFS. Arithmetic, compare and logic (spec/40_arithmetic.md): the single-digit forms (R130 to R139, R145, R146,
R148 to R150), the ranged forms with the windows read as numbers (R140 to R144, R147, R154), and the ranged shifts
(R151 to R153). -/

namespace Sys2Proof.Machine

/-! ### A form that writes, sets the flags and advances -/

/-- One register write followed by any flags and the advance. -/
theorem State.mapRegs_write_regWritten (s : State) (b : Bank) (x : Reg) (v : Nibble) (c z : Bool) :
    RegWritten s (s.mapRegs fun r => ((r.write b x v).setFlags c z).advance) b x v where
  value := (s.regs.reg_write b x v b x).trans (if_pos ⟨rfl, rfl⟩)
  bsa := rfl
  others b' i' h := (s.regs.reg_write b x v b' i').trans (if_neg h)
  banks := ⟨rfl, rfl, rfl⟩
  pc := rfl
  only := s.mapRegs_onlyRegs _

/-- The writes of one digit to each register of a window, in some order, followed by any flags and the advance. -/
theorem State.mapRegs_writeAll_windowWritten (s : State) {w : List Reg} {ds : List Nibble} {l : List (Reg × Nibble)}
    (hw : w.Nodup) (hlen : ds.length = w.length) (hl : l.Perm (w.zip ds)) (c z : Bool) :
    WindowWritten s (s.mapRegs fun r => ((RegFile.writeAll l r).setFlags c z).advance) w ds (l.map Prod.fst) := by
  have hfst : (l.map Prod.fst).Perm w := by
    simpa only [List.map_fst_zip hlen.ge] using hl.map Prod.fst
  have hk := s.regs.writeAll_sameControl l
  exact {
    digits := RegFile.writeAll_digits w ds l s.regs hw hlen hl
    bsa := RegFile.writeAll_bsa l s.regs (hfst.nodup_iff.2 hw)
    others := fun b i h => RegFile.writeAll_reg_other l s.regs b i <| by
      rw [hfst.mem_iff]; exact not_and_or.1 h
    banks := ⟨hk.cb, hk.ab, hk.stk⟩
    pc := congrArg (· + 1) hk.pc
    only := s.mapRegs_onlyRegs _ }

theorem State.mapRegs_writeAll_zip_windowWritten (s : State) {w : List Reg} {ds : List Nibble} (hw : w.Nodup)
    (hlen : ds.length = w.length) (c z : Bool) :
    WindowWritten s (s.mapRegs fun r => ((RegFile.writeAll (w.zip ds) r).setFlags c z).advance) w ds w := by
  have h := s.mapRegs_writeAll_windowWritten hw hlen (.refl _) c z
  rwa [List.map_fst_zip hlen.ge] at h

theorem State.mapRegs_writeAll_zip_reverse_windowWritten (s : State) {w : List Reg} {ds : List Nibble} (hw : w.Nodup)
    (hlen : ds.length = w.length) (c z : Bool) :
    WindowWritten s (s.mapRegs fun r => ((RegFile.writeAll (w.zip ds).reverse r).setFlags c z).advance) w ds
      w.reverse := by
  have h := s.mapRegs_writeAll_windowWritten hw hlen (List.reverse_perm _) c z
  rwa [List.map_reverse, List.map_fst_zip hlen.ge] at h

/-! ### Digit functions without a carry in -/

theorem addBin_noCarry (a b : Nibble) :
    (addBin a b false).1.toNat = (a.toNat + b.toNat) % 16 ∧
      (addBin a b false).2 = decide (16 ≤ a.toNat + b.toNat) :=
  ⟨BitVec.toNat_ofNat _ _, rfl⟩

/-- Also where a digit is not decimal: only a sum past 9 is corrected, and narrowed (R130). -/
theorem addDec_noCarry (a b : Nibble) :
    (addDec a b false).1.toNat
        = (if 9 < a.toNat + b.toNat then (a.toNat + b.toNat + 6) % 16 else a.toNat + b.toNat) ∧
      (addDec a b false).2 = decide (9 < a.toNat + b.toNat) := by
  by_cases h : 9 < a.toNat + b.toNat
  · simp [addDec, h]
  · simp [addDec, h]; omega

theorem subBin_noBorrow (a b : Nibble) :
    (subBin a b false).1.toNat = (a.toNat + 16 - b.toNat) % 16 ∧
      (subBin a b false).2 = decide (a.toNat < b.toNat) := by
  have hb := b.isLt
  refine ⟨?_, decide_eq_decide.2 ?_⟩
  · simp only [subBin, BitVec.toNat_ofInt, Bool.toNat_false]; omega
  · simp only [Bool.toNat_false]; omega

/-- Also where a digit is not decimal: only a negative difference is corrected, and narrowed (R130). -/
theorem subDec_noBorrow (a b : Nibble) :
    (subDec a b false).1.toNat
        = (if a.toNat < b.toNat then (a.toNat + 26 - b.toNat) % 16 else a.toNat - b.toNat) ∧
      (subDec a b false).2 = decide (a.toNat < b.toNat) := by
  have ha := a.isLt; have hb := b.isLt
  by_cases h : a.toNat < b.toNat
  · simp [subDec, h]; omega
  · simp [subDec, h]; omega

/-- The difference digit is 0 exactly if the digits are equal. -/
theorem subBin_noBorrow_eq_zero (a b : Nibble) : ((subBin a b false).1 == 0) = decide (a = b) := by
  have ha := a.isLt; have hb := b.isLt
  rw [Bool.beq_eq_decide_eq, decide_eq_decide, ← BitVec.toNat_inj, ← BitVec.toNat_inj, (subBin_noBorrow a b).1]
  simp only [BitVec.ofNat_eq_ofNat, BitVec.toNat_ofNat]
  omega

/-! ### Single-digit forms -/

/-- A single-digit form has the result and the carry of its digit function (R131). -/
theorem State.mapRegs_aluDigit_digitResult (s : State) (x : Reg) {g : DigitFn} {b : Nibble} {v : Nat} {carry : Bool}
    (h : (g (s.regs.x x) b false).1.toNat = v ∧ (g (s.regs.x x) b false).2 = carry) :
    DigitResult s (s.mapRegs (RegFile.aluDigit g x b)) x v carry := by
  obtain ⟨rfl, rfl⟩ := h
  have hw := s.mapRegs_write_regWritten s.regs.cb x (g (s.regs.x x) b false).1 (g (s.regs.x x) b false).2
    ((g (s.regs.x x) b false).1 == 0)
  exact {
    written := by rw [BitVec.ofNat_toNat, BitVec.setWidth_eq]; exact hw
    value := congrArg BitVec.toNat hw.value
    cf := rfl
    zf := decide_eq_decide.2 BitVec.toNat_inj.symm }

/-- Settles O1. -/
theorem binaryAddWritesSumModSixteen : Obligations.BinaryAddWritesSumModSixteen := by
  unfold Obligations.BinaryAddWritesSumModSixteen
  intro s x
  have hadd := fun b => s.mapRegs_aluDigit_digitResult x (addBin_noCarry (s.regs.x x) b)
  exact ⟨fun y => ⟨rfl, _, rfl, hadd (s.regs.x y)⟩, fun i => ⟨rfl, _, rfl, hadd i⟩⟩

/-- Settles O2. -/
theorem decimalAddCorrectsPastNine : Obligations.DecimalAddCorrectsPastNine := by
  unfold Obligations.DecimalAddCorrectsPastNine
  intro s x
  have hadd := fun b => s.mapRegs_aluDigit_digitResult x (addDec_noCarry (s.regs.x x) b)
  exact ⟨fun y => ⟨rfl, _, rfl, hadd (s.regs.x y)⟩, fun i => ⟨rfl, _, rfl, hadd i⟩⟩

/-- Settles O3. -/
theorem binarySubtractSetsBorrow : Obligations.BinarySubtractSetsBorrow := by
  unfold Obligations.BinarySubtractSetsBorrow
  intro s x
  have hsub := fun b => s.mapRegs_aluDigit_digitResult x (subBin_noBorrow (s.regs.x x) b)
  exact ⟨fun y => ⟨rfl, _, rfl, hsub (s.regs.x y)⟩, fun i => ⟨rfl, _, rfl, hsub i⟩⟩

/-- Settles O4. -/
theorem decimalSubtractCorrectsBorrow : Obligations.DecimalSubtractCorrectsBorrow := by
  unfold Obligations.DecimalSubtractCorrectsBorrow
  intro s x
  have hsub := fun b => s.mapRegs_aluDigit_digitResult x (subDec_noBorrow (s.regs.x x) b)
  exact ⟨fun y => ⟨rfl, _, rfl, hsub (s.regs.x y)⟩, fun i => ⟨rfl, _, rfl, hsub i⟩⟩

/-- Settles O5. -/
theorem compareSetsFlagsOnly : Obligations.CompareSetsFlagsOnly := by
  unfold Obligations.CompareSetsFlagsOnly
  intro s x
  have hzf := subBin_noBorrow_eq_zero (s.regs.x x)
  have hcf := fun b => (subBin_noBorrow (s.regs.x x) b).2
  have honly := s.mapRegs_onlyRegs
  exact ⟨fun y => ⟨rfl, _, rfl, ⟨rfl, rfl⟩, ⟨rfl, rfl, rfl⟩, honly _, rfl, hzf _, hcf _⟩,
    fun i => ⟨rfl, _, rfl, ⟨rfl, rfl⟩, ⟨rfl, rfl, rfl⟩, honly _, rfl, hzf i, hcf i⟩⟩

/-- A logic form writes its result and ZF, and keeps CF (R148). -/
theorem State.mapRegs_logicDigit (s : State) (g : Nibble → Nibble → Nibble) (x : Reg) (i : Imm4) :
    RegWritten s (s.mapRegs (RegFile.logicDigit g x i)) s.regs.cb x (g (s.regs.x x) i) ∧
      (s.mapRegs (RegFile.logicDigit g x i)).regs.cf = s.regs.cf ∧
      (s.mapRegs (RegFile.logicDigit g x i)).regs.zf = decide (g (s.regs.x x) i = 0) :=
  ⟨s.mapRegs_write_regWritten s.regs.cb x (g (s.regs.x x) i) s.regs.cf (g (s.regs.x x) i == 0), rfl, rfl⟩

/-- Settles O6. -/
theorem logicImmediateSetsZeroKeepsCarry : Obligations.LogicImmediateSetsZeroKeepsCarry := by
  unfold Obligations.LogicImmediateSetsZeroKeepsCarry
  intro s x i
  exact ⟨⟨rfl, _, rfl, s.mapRegs_logicDigit _ x i⟩, ⟨rfl, _, rfl, s.mapRegs_logicDigit _ x i⟩,
    ⟨rfl, _, rfl, s.mapRegs_logicDigit _ x i⟩⟩

/-! ### Ranged arithmetic and compare -/

/-- The digits and the carry out of a ranged form on two windows (R140). -/
def RegFile.rippleWindows (r : RegFile) (f : DigitFn) (pd ps : Page) (hi lo : Off3) : List Nibble × Bool :=
  rippleDigits f ((r.digits (window pd hi lo)).zip (r.digits (window ps hi lo)))

theorem RegFile.digits_window_length (r : RegFile) (p : Page) (hi lo : Off3) :
    (r.digits (window p hi lo)).length = windowLen hi lo := by
  rw [RegFile.digits, List.length_map, window_length]

theorem RegFile.rippleWindows_length (r : RegFile) (f : DigitFn) (pd ps : Page) (hi lo : Off3) :
    (r.rippleWindows f pd ps hi lo).1.length = windowLen hi lo := by
  simp [RegFile.rippleWindows, RegFile.digits_window_length]

/-- With write-back, a ranged form writes its digits from the lo end up, sets the flags and advances (R140). -/
theorem RegFile.rippleForm_keep (r : RegFile) (f : DigitFn) (pd ps : Page) (hi lo : Off3) :
    r.rippleForm f true pd ps hi lo
      = ((RegFile.writeAll ((window pd hi lo).zip (r.rippleWindows f pd ps hi lo).1).reverse r).setFlags
          (r.rippleWindows f pd ps hi lo).2 ((r.rippleWindows f pd ps hi lo).1.all (· == 0))).advance := by
  have h := r.rippleLoop_keep f _ (windowPairs_apart pd ps hi lo)
  rw [windowPairs_digits, windowPairs_fst] at h
  rw [RegFile.rippleForm, h]
  rfl

/-- Without write-back, a ranged form sets the flags and advances (R147). -/
theorem RegFile.rippleForm_noKeep (r : RegFile) (f : DigitFn) (pd ps : Page) (hi lo : Off3) :
    r.rippleForm f false pd ps hi lo
      = (r.setFlags (r.rippleWindows f pd ps hi lo).2 ((r.rippleWindows f pd ps hi lo).1.all (· == 0))).advance := by
  have h := r.rippleLoop_noKeep f (windowPairs pd ps hi lo)
  rw [windowPairs_digits] at h
  rw [RegFile.rippleForm, h]
  rfl

/-- The whole effect of a ranged arithmetic form. -/
theorem State.mapRegs_rippleForm_keep (s : State) (f : DigitFn) (pd ps : Page) (hi lo : Off3) :
    WindowWritten s (s.mapRegs (RegFile.rippleForm f true pd ps hi lo)) (window pd hi lo)
        (s.regs.rippleWindows f pd ps hi lo).1 (window pd hi lo).reverse ∧
      (s.mapRegs (RegFile.rippleForm f true pd ps hi lo)).regs.cf = (s.regs.rippleWindows f pd ps hi lo).2 ∧
      (s.mapRegs (RegFile.rippleForm f true pd ps hi lo)).regs.zf
        = (s.regs.rippleWindows f pd ps hi lo).1.all (· == 0) := by
  have hlen : (s.regs.rippleWindows f pd ps hi lo).1.length = (window pd hi lo).length := by
    rw [RegFile.rippleWindows_length, window_length]
  rw [State.mapRegs, RegFile.rippleForm_keep]
  exact ⟨s.mapRegs_writeAll_zip_reverse_windowWritten (window_nodup pd hi lo) hlen _ _, rfl, rfl⟩

/-- Settles O7, by the whole effect of the one rule that the four forms share. -/
theorem rangedArithmeticRipplesDigits : Obligations.RangedArithmeticRipplesDigits := by
  unfold Obligations.RangedArithmeticRipplesDigits
  intro s pd ps hi lo i f hif
  have h := s.mapRegs_rippleForm_keep f pd ps hi lo
  simp only [List.mem_cons, Prod.mk.injEq, List.not_mem_nil, or_false] at hif
  obtain ⟨rfl, rfl⟩ | ⟨rfl, rfl⟩ | ⟨rfl, rfl⟩ | ⟨rfl, rfl⟩ := hif
  · exact ⟨rfl, _, rfl, h⟩
  · exact ⟨rfl, _, rfl, h⟩
  · exact ⟨rfl, _, rfl, h⟩
  · exact ⟨rfl, _, rfl, h⟩

/-! ### Windows as numbers -/

/-- What a digit sum with its carry out says of the numbers: the sum modulo n, and the carry where it reaches n. -/
theorem eq_mod_and_carry_of_add {n v a b : Nat} {c : Bool} (hv : v < n) (h : v + n * c.toNat = a + b) :
    v = (a + b) % n ∧ c = decide (n ≤ a + b) := by
  rw [← h, Nat.add_mul_mod_self_left, Nat.mod_eq_of_lt hv]
  cases c with
  | false => simp [hv]
  | true => simp

/-- What a digit difference with its borrow out says of the numbers. -/
theorem eq_mod_and_borrow_of_sub {n v a b : Nat} {c : Bool} (hv : v < n) (h : v + b = a + n * c.toNat) :
    v = (a + n - b) % n ∧ c = decide (a < b) := by
  cases c with
  | false =>
    have hadd : v + b = a := h
    have hsum : a + n - b = v + n := by omega
    rw [hsum, Nat.add_mod_right, Nat.mod_eq_of_lt hv]
    exact ⟨rfl, (decide_eq_false (by omega)).symm⟩
  | true =>
    have hadd : v + b = a + n := by rwa [Bool.toNat_true, mul_one] at h
    have hsum : a + n - b = v := by omega
    rw [hsum, Nat.mod_eq_of_lt hv]
    exact ⟨rfl, (decide_eq_true (by omega)).symm⟩

theorem RegFile.digits_zip_fst (r : RegFile) (pd ps : Page) (hi lo : Off3) :
    ((r.digits (window pd hi lo)).zip (r.digits (window ps hi lo))).map Prod.fst = r.digits (window pd hi lo) :=
  List.map_fst_zip (by simp only [RegFile.digits_window_length, le_refl])

theorem RegFile.digits_zip_snd (r : RegFile) (pd ps : Page) (hi lo : Off3) :
    ((r.digits (window pd hi lo)).zip (r.digits (window ps hi lo))).map Prod.snd = r.digits (window ps hi lo) :=
  List.map_snd_zip (by simp only [RegFile.digits_window_length, le_refl])

theorem RegFile.digits_zip_length (r : RegFile) (pd ps : Page) (hi lo : Off3) :
    ((r.digits (window pd hi lo)).zip (r.digits (window ps hi lo))).length = windowLen hi lo := by
  simp only [List.length_zip, RegFile.digits_window_length, min_self]

/-- The value of a window as a number in base 16 is below 16 to its length. -/
theorem RegFile.windowValue_lt_sixteen (r : RegFile) (p : Page) (hi lo : Off3) :
    digitsValue 16 (r.digits (window p hi lo)) < 16 ^ windowLen hi lo := by
  have h := digitsValue_lt_sixteen (r.digits (window p hi lo))
  rwa [RegFile.digits_window_length] at h

theorem Decimal.digitsValue_lt {ds : List Nibble} (h : Decimal ds) : digitsValue 10 ds < 10 ^ ds.length :=
  Machine.digitsValue_lt 10 ds fun d hd => Nat.lt_succ_of_le (h d hd)

theorem RegFile.rippleWindows_addBin (r : RegFile) (pd ps : Page) (hi lo : Off3) :
    let a := digitsValue 16 (r.digits (window pd hi lo))
    let b := digitsValue 16 (r.digits (window ps hi lo))
    digitsValue 16 (r.rippleWindows addBin pd ps hi lo).1 = (a + b) % 16 ^ windowLen hi lo ∧
      (r.rippleWindows addBin pd ps hi lo).2 = decide (16 ^ windowLen hi lo ≤ a + b) := by
  have hv := digitsValue_lt_sixteen (r.rippleWindows addBin pd ps hi lo).1
  have h := rippleDigits_addBin ((r.digits (window pd hi lo)).zip (r.digits (window ps hi lo)))
  rw [RegFile.rippleWindows_length] at hv
  rw [RegFile.digits_zip_fst, RegFile.digits_zip_snd, RegFile.digits_zip_length] at h
  exact eq_mod_and_carry_of_add hv h

theorem RegFile.rippleWindows_subBin (r : RegFile) (pd ps : Page) (hi lo : Off3) :
    let a := digitsValue 16 (r.digits (window pd hi lo))
    let b := digitsValue 16 (r.digits (window ps hi lo))
    digitsValue 16 (r.rippleWindows subBin pd ps hi lo).1
        = (a + 16 ^ windowLen hi lo - b) % 16 ^ windowLen hi lo ∧
      (r.rippleWindows subBin pd ps hi lo).2 = decide (a < b) := by
  have hv := digitsValue_lt_sixteen (r.rippleWindows subBin pd ps hi lo).1
  have h := rippleDigits_subBin ((r.digits (window pd hi lo)).zip (r.digits (window ps hi lo)))
  rw [RegFile.rippleWindows_length] at hv
  rw [RegFile.digits_zip_fst, RegFile.digits_zip_snd, RegFile.digits_zip_length] at h
  exact eq_mod_and_borrow_of_sub hv h

theorem all_zero_eq_decide_digitsValue (ds : List Nibble) :
    ds.all (· == 0) = decide (digitsValue 16 ds = 0) := by
  rw [Bool.eq_iff_iff, decide_eq_true_iff, digitsValue_eq_zero 16 (by decide)]

/-- Settles O8. -/
theorem rangedBinaryFormsAreModularArithmetic : Obligations.RangedBinaryFormsAreModularArithmetic := by
  unfold Obligations.RangedBinaryFormsAreModularArithmetic
  intro s pd ps hi lo v
  obtain ⟨hadd, haddc⟩ := s.regs.rippleWindows_addBin pd ps hi lo
  obtain ⟨hsub, hsubc⟩ := s.regs.rippleWindows_subBin pd ps hi lo
  obtain ⟨hw, hcf, hzf⟩ := s.mapRegs_rippleForm_keep addBin pd ps hi lo
  obtain ⟨hw', hcf', hzf'⟩ := s.mapRegs_rippleForm_keep subBin pd ps hi lo
  refine ⟨⟨_, rfl, ?_, hcf.trans haddc, ?_⟩, ⟨_, rfl, ?_, hcf'.trans hsubc, ?_⟩⟩
  · exact (congrArg (digitsValue 16) hw.digits).trans hadd
  · rw [hzf, all_zero_eq_decide_digitsValue, ← hw.digits]
  · exact (congrArg (digitsValue 16) hw'.digits).trans hsub
  · rw [hzf', all_zero_eq_decide_digitsValue, ← hw'.digits]

theorem Decimal.of_mem_zip {ds es : List Nibble} (hd : Decimal ds) (he : Decimal es) :
    ∀ p ∈ ds.zip es, p.1.toNat ≤ 9 ∧ p.2.toNat ≤ 9 := fun _ hp =>
  ⟨hd _ (List.of_mem_zip hp).1, he _ (List.of_mem_zip hp).2⟩

theorem RegFile.rippleWindows_addDec {r : RegFile} {pd ps : Page} {hi lo : Off3}
    (hd : Decimal (r.digits (window pd hi lo))) (hs : Decimal (r.digits (window ps hi lo))) :
    let a := digitsValue 10 (r.digits (window pd hi lo))
    let b := digitsValue 10 (r.digits (window ps hi lo))
    Decimal (r.rippleWindows addDec pd ps hi lo).1 ∧
      digitsValue 10 (r.rippleWindows addDec pd ps hi lo).1 = (a + b) % 10 ^ windowLen hi lo ∧
      (r.rippleWindows addDec pd ps hi lo).2 = decide (10 ^ windowLen hi lo ≤ a + b) := by
  obtain ⟨hds, h⟩ := rippleDigits_addDec _ (hd.of_mem_zip hs)
  have hdec : Decimal (r.rippleWindows addDec pd ps hi lo).1 := hds
  have hv := hdec.digitsValue_lt
  rw [RegFile.rippleWindows_length] at hv
  rw [RegFile.digits_zip_fst, RegFile.digits_zip_snd, RegFile.digits_zip_length] at h
  exact ⟨hdec, eq_mod_and_carry_of_add hv h⟩

theorem RegFile.rippleWindows_subDec {r : RegFile} {pd ps : Page} {hi lo : Off3}
    (hd : Decimal (r.digits (window pd hi lo))) (hs : Decimal (r.digits (window ps hi lo))) :
    let a := digitsValue 10 (r.digits (window pd hi lo))
    let b := digitsValue 10 (r.digits (window ps hi lo))
    Decimal (r.rippleWindows subDec pd ps hi lo).1 ∧
      digitsValue 10 (r.rippleWindows subDec pd ps hi lo).1
        = (a + 10 ^ windowLen hi lo - b) % 10 ^ windowLen hi lo ∧
      (r.rippleWindows subDec pd ps hi lo).2 = decide (a < b) := by
  obtain ⟨hds, h⟩ := rippleDigits_subDec _ (hd.of_mem_zip hs)
  have hdec : Decimal (r.rippleWindows subDec pd ps hi lo).1 := hds
  have hv := hdec.digitsValue_lt
  rw [RegFile.rippleWindows_length] at hv
  rw [RegFile.digits_zip_fst, RegFile.digits_zip_snd, RegFile.digits_zip_length] at h
  exact ⟨hdec, eq_mod_and_borrow_of_sub hv h⟩

/-- Settles O9. -/
theorem rangedDecimalFormsAreDecimalArithmetic : Obligations.RangedDecimalFormsAreDecimalArithmetic := by
  unfold Obligations.RangedDecimalFormsAreDecimalArithmetic
  intro s pd ps hi lo hd hs v
  obtain ⟨hdec, hadd, haddc⟩ := RegFile.rippleWindows_addDec hd hs
  obtain ⟨hdec', hsub, hsubc⟩ := RegFile.rippleWindows_subDec hd hs
  obtain ⟨hw, hcf, -⟩ := s.mapRegs_rippleForm_keep addDec pd ps hi lo
  obtain ⟨hw', hcf', -⟩ := s.mapRegs_rippleForm_keep subDec pd ps hi lo
  refine ⟨⟨_, rfl, ?_, ?_, hcf.trans haddc⟩, ⟨_, rfl, ?_, ?_, hcf'.trans hsubc⟩⟩
  · rw [hw.digits]; exact hdec
  · exact (congrArg (digitsValue 10) hw.digits).trans hadd
  · rw [hw'.digits]; exact hdec'
  · exact (congrArg (digitsValue 10) hw'.digits).trans hsub

/-! ### The ranged compare -/

/-- The value of digits as Mathlib's number with the least significant digit first. -/
theorem digitsValue_eq_ofDigits (base : Nat) (ds : List Nibble) :
    digitsValue base ds = Nat.ofDigits base (ds.reverse.map BitVec.toNat) := by
  induction ds with
  | nil => rfl
  | cons d t ih =>
    rw [digitsValue_cons, ih, List.reverse_cons, List.map_append, Nat.ofDigits_append, List.length_map,
      List.length_reverse, List.map_singleton, Nat.ofDigits_singleton, mul_comm, add_comm]

/-- Digit lists of one length are equal where their numbers are. -/
theorem digitsValue_sixteen_inj {ds es : List Nibble} (hlen : ds.length = es.length) :
    digitsValue 16 ds = digitsValue 16 es ↔ ds = es := by
  have hlt (l : List Nibble) : ∀ n ∈ l.reverse.map BitVec.toNat, n < 16 := by
    intro n hn
    obtain ⟨d, -, rfl⟩ := List.mem_map.1 hn
    exact d.isLt
  refine ⟨fun h => ?_, congrArg _⟩
  rw [digitsValue_eq_ofDigits, digitsValue_eq_ofDigits] at h
  have hrev := Nat.ofDigits_inj_of_len_eq (by decide) (by simp [hlen]) (hlt ds) (hlt es) h
  exact List.reverse_injective (List.map_injective_iff.2 (fun _ _ => BitVec.eq_of_toNat_eq) hrev)

/-- The difference of two numbers below n is 0 modulo n exactly if they are equal. -/
theorem sub_mod_eq_zero_iff {n a b : Nat} (ha : a < n) (hb : b < n) : (a + n - b) % n = 0 ↔ a = b := by
  constructor
  · intro h
    obtain hlt | hle := Nat.lt_or_ge a b
    · rw [Nat.mod_eq_of_lt (by omega)] at h; omega
    · rw [Nat.mod_eq_sub_mod (by omega), Nat.mod_eq_of_lt (by omega)] at h; omega
  · rintro rfl
    rw [Nat.add_sub_cancel_left, Nat.mod_self]

/-- Every digit of the difference is 0 exactly if the windows are equal. -/
theorem RegFile.rippleWindows_subBin_all_zero (r : RegFile) (pd ps : Page) (hi lo : Off3) :
    (r.rippleWindows subBin pd ps hi lo).1.all (· == 0)
      = decide (r.digits (window pd hi lo) = r.digits (window ps hi lo)) := by
  rw [all_zero_eq_decide_digitsValue, (r.rippleWindows_subBin pd ps hi lo).1, decide_eq_decide,
    sub_mod_eq_zero_iff (r.windowValue_lt_sixteen pd hi lo) (r.windowValue_lt_sixteen ps hi lo),
    digitsValue_sixteen_inj (by simp only [RegFile.digits_window_length])]

/-- Settles O10, by the borrow and the zero test of the ranged difference. -/
theorem rangedCompareComparesNumbers : Obligations.RangedCompareComparesNumbers := by
  unfold Obligations.RangedCompareComparesNumbers
  intro s pd ps hi lo
  have hcf := (s.regs.rippleWindows_subBin pd ps hi lo).2
  have hzf := s.regs.rippleWindows_subBin_all_zero pd ps hi lo
  refine ⟨rfl, _, rfl, ?_⟩
  rw [State.mapRegs, RegFile.rippleForm_noKeep]
  exact ⟨⟨rfl, rfl⟩, ⟨rfl, rfl, rfl⟩, s.mapRegs_onlyRegs fun _ => _, rfl, hcf, hzf⟩

/-! ### Ranged shifts -/

/-- The writes of `rshl`, hi end first (R152). -/
theorem exec_rshl (s : State) (p : Page) (hi lo : Off3) :
    exec (.rshl p hi lo) s = .next (s.mapRegs fun r =>
      (RegFile.writeAll ((window p hi lo).zip ((s.regs.digits (window p hi lo)).drop 1 ++ [0])) r).advance) := by
  rw [List.drop_one]
  rfl

/-- The writes of `rshr`, lo end first (R153). -/
theorem exec_rshr (s : State) (p : Page) (hi lo : Off3) :
    exec (.rshr p hi lo) s = .next (s.mapRegs fun r =>
      (RegFile.writeAll ((window p hi lo).zip
        (0 :: (s.regs.digits (window p hi lo)).take (windowLen hi lo - 1))).reverse r).advance) := by
  rw [← s.regs.digits_window_length p hi lo, ← List.dropLast_eq_take]
  rfl

/-- Settles O11: each shift writes the moved digits to its window, `rshl` hi end first and `rshr` lo end first. -/
theorem rangedShiftsMoveDigitsOnePlace : Obligations.RangedShiftsMoveDigitsOnePlace := by
  unfold Obligations.RangedShiftsMoveDigitsOnePlace
  intro s p hi lo w old
  have hw : w.Nodup := window_nodup p hi lo
  have hlen : w.length = windowLen hi lo := window_length p hi lo
  have hold : old.length = windowLen hi lo := s.regs.digits_window_length p hi lo
  have hpos := windowLen_pos hi lo
  constructor
  · have hds : (old.drop 1 ++ [0]).length = w.length := by
      rw [List.length_append, List.length_drop, List.length_singleton]; omega
    have hk := s.regs.writeAll_sameControl (w.zip (old.drop 1 ++ [0]))
    exact ⟨rfl, _, exec_rshl s p hi lo, ⟨hk.cf, hk.zf⟩, s.mapRegs_writeAll_zip_windowWritten hw hds _ _⟩
  · have hds : (0 :: old.take (windowLen hi lo - 1)).length = w.length := by
      rw [List.length_cons, List.length_take]; omega
    have hk := s.regs.writeAll_sameControl (w.zip (0 :: old.take (windowLen hi lo - 1))).reverse
    exact ⟨rfl, _, exec_rshr s p hi lo, ⟨hk.cf, hk.zf⟩, s.mapRegs_writeAll_zip_reverse_windowWritten hw hds _ _⟩

end Sys2Proof.Machine
end

section
/-! PROOFS. Moves and bank switches (spec/41_move_bank.md): the single-register moves (R180, R181, R186, R187), the
ranged move and clear (R182 to R184), and the bank switches (R190, R191). -/

namespace Sys2Proof.Machine

/-! ### Forms that write registers, keep the flags and advance -/

/-- One register write followed by the advance. -/
theorem State.mapRegs_write_advance (s : State) (b : Bank) (x : Reg) (v : Nibble) :
    FlagsKept s (s.mapRegs fun r => (r.write b x v).advance) ∧
      RegWritten s (s.mapRegs fun r => (r.write b x v).advance) b x v :=
  ⟨⟨rfl, rfl⟩, s.mapRegs_write_regWritten b x v s.regs.cf s.regs.zf⟩

/-- The writes of one digit to each register of a window, hi end first, followed by the advance. -/
theorem State.mapRegs_writeAll_zip_advance (s : State) {w : List Reg} {ds : List Nibble} (hw : w.Nodup)
    (hlen : ds.length = w.length) :
    FlagsKept s (s.mapRegs fun r => (RegFile.writeAll (w.zip ds) r).advance) ∧
      WindowWritten s (s.mapRegs fun r => (RegFile.writeAll (w.zip ds) r).advance) w ds w :=
  have hk := s.regs.writeAll_sameControl (w.zip ds)
  ⟨⟨hk.cf, hk.zf⟩, s.mapRegs_writeAll_zip_windowWritten hw hlen _ _⟩

/-! ### Ranged move and clear -/

/-- A ranged move writes the old source digits, pd = ps included: an earlier destination is no later source (R184). -/
theorem RegFile.moveAll_windowPairs (r : RegFile) (pd ps : Page) (hi lo : Off3) :
    RegFile.moveAll (windowPairs pd ps hi lo) r
      = RegFile.writeAll ((window pd hi lo).zip (r.digits (window ps hi lo))) r := by
  have hapart : (windowPairs pd ps hi lo).Pairwise fun p q => p.1 ≠ q.2 :=
    (windowPairs_apart pd ps hi lo).imp fun h => h.2.1
  rw [RegFile.moveAll_eq_writeAll _ r hapart, RegFile.digits, ← windowPairs_fst pd ps hi lo,
    ← windowPairs_snd pd ps hi lo, List.map_map, List.zip_map']
  rfl

/-- The writes of `rmov`, hi end first (R182). -/
theorem exec_rmov (s : State) (pd ps : Page) (hi lo : Off3) :
    exec (.rmov pd ps hi lo) s = .next (s.mapRegs fun r =>
      (RegFile.writeAll ((window pd hi lo).zip (s.regs.digits (window ps hi lo))) r).advance) :=
  congrArg (fun r : RegFile => Host.Outcome.next (s.mapRegs fun _ => r.advance))
    (s.regs.moveAll_windowPairs pd ps hi lo)

/-- The writes of `rclr`, hi end first (R183). -/
theorem exec_rclr (s : State) (p : Page) (hi lo : Off3) :
    exec (.rclr p hi lo) s = .next (s.mapRegs fun r =>
      (RegFile.writeAll ((window p hi lo).zip (List.replicate (windowLen hi lo) 0)) r).advance) := by
  rw [← window_length p hi lo, ← List.map_const', ← List.map_prod_left_eq_zip]
  rfl

/-- Settles O12: both forms write their digits to the destination window hi end first, `rmov` the old digits of the
source window and `rclr` zeros. -/
theorem rangedMoveCopiesAndClearZeroes : Obligations.RangedMoveCopiesAndClearZeroes := by
  unfold Obligations.RangedMoveCopiesAndClearZeroes
  intro s pd ps hi lo
  have hw := window_nodup pd hi lo
  have hlen := window_length pd hi lo
  constructor
  · have hds := (s.regs.digits_window_length ps hi lo).trans hlen.symm
    exact ⟨rfl, _, exec_rmov s pd ps hi lo, s.mapRegs_writeAll_zip_advance hw hds⟩
  · have hds : (List.replicate (windowLen hi lo) (0 : Nibble)).length = (window pd hi lo).length :=
      List.length_replicate.trans hlen.symm
    exact ⟨rfl, _, exec_rclr s pd hi lo, s.mapRegs_writeAll_zip_advance hw hds⟩

/-! ### Single-register moves and bank switches -/

/-- Settles O13: each move is one write, in the bank it names as its destination, of the value read in its source
bank. -/
theorem movesWriteOneRegister : Obligations.MovesWriteOneRegister := by
  unfold Obligations.MovesWriteOneRegister
  intro s x y i
  exact ⟨⟨rfl, _, rfl, s.mapRegs_write_advance s.regs.cb x (s.regs.reg s.regs.cb y)⟩,
    ⟨rfl, _, rfl, s.mapRegs_write_advance s.regs.cb x i⟩,
    ⟨rfl, _, rfl, s.mapRegs_write_advance s.regs.ab x (s.regs.reg s.regs.cb y)⟩,
    ⟨rfl, _, rfl, s.mapRegs_write_advance s.regs.cb x (s.regs.reg s.regs.ab y)⟩⟩

/-- Settles O14. -/
theorem bankSwitchesSetOneBank : Obligations.BankSwitchesSetOneBank := by
  unfold Obligations.BankSwitchesSetOneBank
  intro s n
  exact ⟨⟨rfl, _, rfl, rfl, rfl, ⟨rfl, rfl⟩, ⟨rfl, rfl⟩, rfl, rfl, s.mapRegs_onlyRegs _⟩,
    ⟨rfl, _, rfl, rfl, rfl, ⟨rfl, rfl⟩, ⟨rfl, rfl⟩, rfl, rfl, s.mapRegs_onlyRegs _⟩⟩

end Sys2Proof.Machine
end

section
/-! PROOFS. Special-register I/O and paired display writes (spec/42_io_display_write.md): the read with its side effect
(R201, R206), every arm of the write dispatch (R202, R203, R208 to R219), and `dw2` under its two modes (R205). -/

namespace Sys2Proof.Machine

/-! ### What an SR access leaves of the devices -/

theorem Devices.SameHidden.hiddenKept {s t : State} (h : s.dev.SameHidden t.dev) : HiddenKept s t :=
  ⟨h.ispMode, h.ispTxen, h.ispRxen, h.ispTxpend, h.ispDiv, h.t0, h.t1, h.sw⟩

theorem HiddenKept.of_setSr {s t : State} {k : SRIdx} {v : Nibble} (h : t.dev = s.dev.setSr k v) : HiddenKept s t :=
  Devices.SameHidden.hiddenKept (h ▸ s.dev.setSr_sameHidden k v)

theorem OtherSrKept.of_setSr {s t : State} {k : SRIdx} {v : Nibble} (h : t.dev = s.dev.setSr k v) :
    OtherSrKept [k] s t := fun j hj => by
  rw [h, Devices.getSr_setSr, if_neg (List.ne_of_not_mem_cons hj)]

/-- What a write of SR1 or SR7 leaves: the value, and SR0 without the acknowledged bits (R210, R212). -/
theorem Devices.getSr_storeAck (d : Devices) {k : SRIdx} (hk : k ≠ 0) (v m : Nibble) (j : SRIdx) :
    ((d.setSr k v).modSr 0 (· &&& ~~~m)).getSr j =
      if j = 0 then d.getSr 0 &&& ~~~m else if j = k then v else d.getSr j := by
  rw [Devices.getSr_modSr, Devices.getSr_setSr, Devices.getSr_setSr, if_neg hk.symm]

/-- The common shape of the SR9 and SR12 arms: a register loses bits, and at zero SR0 loses bit n (R216, R217). -/
def Devices.clearAck (k : SRIdx) (m : Nibble) (n : BitIdx) (d : Devices) : Devices :=
  let d' := d.modSr k (· &&& ~~~m)
  if d'.getSr k = 0 then d'.modSr 0 (clearBit · n) else d'

theorem Devices.sr9Write_eq_clearAck (c : Cfg) (v : Nibble) (d : Devices) :
    d.sr9Write c v = d.clearAck 9 (v &&& 7) c.sr0SwBit := rfl

theorem Devices.sr12Write_eq_clearAck (c : Cfg) (v : Nibble) (d : Devices) :
    d.sr12Write c v = d.clearAck 12 v c.sr0TimerBit := rfl

theorem Devices.getSr_clearAck (d : Devices) {k : SRIdx} (hk : k ≠ 0) (m : Nibble) (n : BitIdx) (j : SRIdx) :
    (d.clearAck k m n).getSr j =
      if j = 0 then if d.getSr k &&& ~~~m = 0 then clearBit (d.getSr 0) n else d.getSr 0
      else if j = k then d.getSr k &&& ~~~m else d.getSr j := by
  unfold Devices.clearAck
  have hzero : (d.modSr k (· &&& ~~~m)).getSr 0 = d.getSr 0 := by rw [Devices.getSr_modSr, if_neg hk.symm]
  simp only [Devices.getSr_modSr_self]
  by_cases hj : j = 0
  · subst hj
    split
    · rw [Devices.getSr_modSr_self, hzero, if_pos rfl]
    · rw [hzero, if_pos rfl]
  · rw [if_neg hj]
    split
    · rw [Devices.getSr_modSr, if_neg hj, Devices.getSr_modSr]
    · rw [Devices.getSr_modSr]

theorem Devices.clearAck_sameHidden (k : SRIdx) (m : Nibble) (n : BitIdx) (d : Devices) :
    d.SameHidden (d.clearAck k m n) := by
  unfold Devices.clearAck
  have hclear := d.modSr_sameHidden k (· &&& ~~~m)
  dsimp only
  split
  · exact hclear.trans (Devices.modSr_sameHidden _ 0 _)
  · exact hclear

/-! ### The SR-write forms -/

section
variable {i : Instr} {s : State} {k : SRIdx} {v : Nibble}

theorem WritesSr.cost_eq (h : WritesSr i s k v) : cost i = 1 := by
  obtain rfl | ⟨y, rfl, -⟩ := h <;> rfl

theorem WritesSr.exec_eq (h : WritesSr i s k v) :
    exec i s = .next ((s.srWrite chipCfg k v).mapRegs RegFile.advance) := by
  obtain rfl | ⟨y, rfl, rfl⟩ := h <;> rfl

/-- Both SR-write forms run the arm of the register, record the audio commands of SR15 alone, and advance (R202, R203,
R208, R219). -/
theorem WritesSr.exec_next (h : WritesSr i s k v) :
    ∃ t, exec i s = .next t ∧ AdvancedOnly s t ∧ t.bus = s.bus ∧ SameMemory s t ∧ t.lcd = s.lcd ∧
      t.dev = s.dev.srWrite chipCfg k v ∧
      t.eng = { s.eng with
        trace := s.eng.trace ++
          if k = 15 then (audioCommands v).map fun a => (s.eng.cycles + 1, PortEvent.audio a) else [] } := by
  refine ⟨_, h.exec_eq, ?_⟩
  rw [State.srWrite_eq]
  exact ⟨⟨⟨rfl, rfl⟩, ⟨rfl, rfl⟩, ⟨rfl, rfl, rfl⟩, rfl⟩, rfl, .of_bus_eq rfl, rfl, rfl, rfl⟩

/-- Beside SR15, the arm of the register is all that such a form does. -/
theorem WritesSr.exec_written (h : WritesSr i s k v) (hk : k ≠ 15) :
    ∃ t, exec i s = .next t ∧ SrWritten s t ∧ t.dev = s.dev.srWrite chipCfg k v := by
  obtain ⟨t, hnext, hadvanced, hbus, hmemory, hlcd, hdev, heng⟩ := h.exec_next
  rw [if_neg hk, List.append_nil] at heng
  exact ⟨t, hnext, ⟨hadvanced, hbus, hmemory, hlcd, heng⟩, hdev⟩

/-- An arm that stores one value and does nothing else (R209, R211, R218). -/
theorem WritesSr.exec_store (h : WritesSr i s k v) (hk : k ≠ 15) {w : Nibble}
    (harm : s.dev.srWrite chipCfg k v = s.dev.setSr k w) :
    ∃ t, exec i s = .next t ∧ SrWritten s t ∧ t.dev.getSr k = w ∧ OtherSrKept [k] s t ∧ HiddenKept s t := by
  obtain ⟨t, hnext, hwritten, hdev⟩ := h.exec_written hk
  rw [harm] at hdev
  exact ⟨t, hnext, hwritten, by rw [hdev, Devices.getSr_setSr_self], .of_setSr hdev, .of_setSr hdev⟩

/-- An arm that stores the value and acknowledges bits of SR0 (R210, R212). -/
theorem WritesSr.exec_storeAck (h : WritesSr i s k v) (hk : k ≠ 15) (hk0 : k ≠ 0) {m : Nibble}
    (harm : s.dev.srWrite chipCfg k v = (s.dev.setSr k v).modSr 0 (· &&& ~~~m)) :
    ∃ t, exec i s = .next t ∧ SrWritten s t ∧ t.dev.getSr k = v ∧ t.dev.getSr 0 = s.dev.getSr 0 &&& ~~~m ∧
      OtherSrKept [0, k] s t ∧ HiddenKept s t := by
  obtain ⟨t, hnext, hwritten, hdev⟩ := h.exec_written hk
  rw [harm] at hdev
  have hsr := s.dev.getSr_storeAck hk0 v m
  rw [← hdev] at hsr
  have hhidden := (s.dev.setSr_sameHidden k v).trans (Devices.modSr_sameHidden _ 0 (· &&& ~~~m))
  rw [← hdev] at hhidden
  refine ⟨t, hnext, hwritten, ?_, ?_, fun j hj => ?_, hhidden.hiddenKept⟩
  · rw [hsr, if_neg hk0, if_pos rfl]
  · rw [hsr, if_pos rfl]
  · obtain ⟨hj0, hjk⟩ : j ≠ 0 ∧ j ≠ k := by simpa using hj
    rw [hsr, if_neg hj0, if_neg hjk]

/-- An arm that clears bits of its register and, with the register at zero, one bit of SR0 (R216, R217). -/
theorem WritesSr.exec_clearAck (h : WritesSr i s k v) (hk : k ≠ 15) (hk0 : k ≠ 0) {m : Nibble} {n : BitIdx}
    (harm : s.dev.srWrite chipCfg k v = s.dev.clearAck k m n) :
    ∃ t, exec i s = .next t ∧ SrWritten s t ∧ t.dev.getSr k = s.dev.getSr k &&& ~~~m ∧
      t.dev.getSr 0 = (if t.dev.getSr k = 0 then clearBit (s.dev.getSr 0) n else s.dev.getSr 0) ∧
      OtherSrKept [0, k] s t ∧ HiddenKept s t := by
  obtain ⟨t, hnext, hwritten, hdev⟩ := h.exec_written hk
  rw [harm] at hdev
  have hsr := s.dev.getSr_clearAck hk0 m n
  rw [← hdev] at hsr
  have hhidden := s.dev.clearAck_sameHidden k m n
  rw [← hdev] at hhidden
  have hself : t.dev.getSr k = s.dev.getSr k &&& ~~~m := by rw [hsr, if_neg hk0, if_pos rfl]
  refine ⟨t, hnext, hwritten, hself, ?_, fun j hj => ?_, hhidden.hiddenKept⟩
  · rw [hself, hsr, if_pos rfl]
  · obtain ⟨hj0, hjk⟩ : j ≠ 0 ∧ j ≠ k := by simpa using hj
    rw [hsr, if_neg hj0, if_neg hjk]

end

/-! ### Special-register reads and writes -/

/-- Settles O15: one register write in the state after the read's clear. -/
theorem inReadsThenClearsTransientBits : Obligations.InReadsThenClearsTransientBits := by
  unfold Obligations.InReadsThenClearsTransientBits
  intro s x k
  obtain ⟨hflags, hwritten⟩ :=
    State.mapRegs_write_advance { s with dev := s.dev.afterRead k } s.regs.cb x (s.dev.getSr k)
  exact ⟨rfl, _, rfl, hwritten.value, hwritten.bsa, hwritten.others, hwritten.banks, hflags, hwritten.pc,
    s.dev.getSr_afterRead k, (s.dev.afterRead_sameHidden k).hiddenKept, rfl, .of_bus_eq rfl, rfl, rfl⟩

/-- Settles O16, arm by arm. -/
theorem storingArmsStoreAndAcknowledge : Obligations.StoringArmsStoreAndAcknowledge := by
  unfold Obligations.StoringArmsStoreAndAcknowledge
  intro i s v
  refine ⟨fun k h => h.cost_eq, fun k h hk => ?_, fun h => ?_, fun h => ?_, fun h => ?_⟩
  · have hk15 : k ≠ 15 := by rintro rfl; exact absurd hk (by decide)
    have hstore : k ∈ ([0, 2, 5, 6, 8, 11, 13] ++ [15] : List SRIdx) := List.mem_append_left _ hk
    exact h.exec_store hk15 (s.dev.srWrite_store chipCfg k v hstore)
  · exact h.exec_storeAck (by decide) (by decide) (s.dev.srWrite_1 chipCfg v)
  · exact h.exec_storeAck (by decide) (by decide) (s.dev.srWrite_7 chipCfg v)
  · exact h.exec_store (by decide) (s.dev.srWrite_14 chipCfg v)

/-- Settles O17: the two arms as updates of the hidden ISP state. -/
theorem ispControlArmsSetHiddenState : Obligations.IspControlArmsSetHiddenState := by
  unfold Obligations.IspControlArmsSetHiddenState
  intro i s v
  refine ⟨fun h => h.exec_written (by decide), fun h => ?_⟩
  obtain ⟨t, hnext, hwritten, hdev⟩ := h.exec_written (by decide)
  have harm : (s.dev.ispTxpend || testBit v chipCfg.ispTxreqBit) =
      if v.getLsbD chipCfg.ispTxreqBit then true else s.dev.ispTxpend := by
    rw [Bool.or_comm, testBit]
    cases v.getLsbD chipCfg.ispTxreqBit.val <;> rfl
  rw [Devices.srWrite_4, harm] at hdev
  exact ⟨t, hnext, hwritten, hdev⟩

/-- Settles O18: both arms clear their register and acknowledge at zero. -/
theorem clearingArmsClearAndAcknowledge : Obligations.ClearingArmsClearAndAcknowledge := by
  unfold Obligations.ClearingArmsClearAndAcknowledge
  intro i s v
  exact ⟨fun h => h.exec_clearAck (by decide) (by decide) (s.dev.sr9Write_eq_clearAck chipCfg v),
    fun h => h.exec_clearAck (by decide) (by decide) (s.dev.sr12Write_eq_clearAck chipCfg v)⟩

/-- Settles O19, by the command the chip's parameter names. -/
theorem stopwatchCommandArmFollowsCommand : Obligations.StopwatchCommandArmFollowsCommand := by
  unfold Obligations.StopwatchCommandArmFollowsCommand
  intro i s v h
  obtain ⟨t, hnext, hwritten, hdev⟩ := h.exec_written (by decide)
  refine ⟨t, hnext, hwritten, ?_⟩
  rw [hdev, Devices.srWrite_10, Devices.sr10Write]
  cases chipCfg.sr10Cmd v with
  | enable => dsimp only; split <;> rfl
  | disable | clear | gate | none => rfl

/-- Settles O20: a store, and the audio commands on the record. -/
theorem audioArmIssuesCommandsInOrder : Obligations.AudioArmIssuesCommandsInOrder := by
  unfold Obligations.AudioArmIssuesCommandsInOrder
  intro i s v h
  obtain ⟨t, hnext, hadvanced, hbus, hmemory, hlcd, hdev, heng⟩ := h.exec_next
  rw [Devices.srWrite_store chipCfg 15 v s.dev (by decide)] at hdev
  exact ⟨t, hnext, hadvanced, hbus, hmemory, hlcd, by rw [hdev, Devices.getSr_setSr_self], .of_setSr hdev,
    .of_setSr hdev, heng⟩

/-! ### Two display writes in one form -/

theorem DisplayWritten.regs_x {s t : State} (h : DisplayWritten s t) (y : Reg) : t.regs.x y = s.regs.x y := by
  obtain ⟨hgr, -⟩ := h.advanced.regs
  obtain ⟨hcb, -, -⟩ := h.advanced.banks
  simp only [RegFile.x, RegFile.reg, hgr, hcb]

/-- Read as two nibbles, `dw2` is `dw y1` and then `dw y2`, where neither is refused (R205). -/
theorem exec_dw2_twoNibbles_ok {s : State} {y1 y2 : Reg} (hmode : chipCfg.dw2Mode = .twoNibbles)
    (h : s.lcd.la.toNat < 126 ∨ s.lcd.la.toNat = 126 ∧ (s.regs.x y2).getLsbD 0 = false) :
    ∃ t t1 t2, exec (.dw2 y1 y2) s = .next t ∧ DisplayWritten s t ∧ t.lcd.la = s.lcd.la + 2 ∧
      exec (.dw y1) s = .next t1 ∧ exec (.dw y2) t1 = .next t2 ∧ t.lcd = t2.lcd := by
  obtain ⟨m, hm⟩ := Lcd.dispWrite_isOk chipCfg (nibbleByte (s.regs.x y1)) s.lcd (by omega) (by omega)
  have hmla : m.la = s.lcd.la + 1 := (Lcd.dispWrite_kept chipCfg _ _ m hm).2
  have hmla' : m.la.toNat = s.lcd.la.toNat + 1 := by rw [hmla]; bv_omega
  obtain ⟨l, hl⟩ := Lcd.dispWrite_isOk chipCfg (nibbleByte (s.regs.x y2)) m (by omega) fun h127 => by
    rw [getLsbD_nibbleByte_zero]
    exact (h.resolve_left (by omega)).2
  obtain ⟨t, hnext, hwritten, hlcd⟩ := s.finishDisplay_ok ((dw2Writes_first_ok hmode hm).trans hl)
  obtain ⟨t1, hnext1, hwritten1, hlcd1⟩ := exec_dw_ok hm
  rw [← hwritten1.regs_x y2, ← hlcd1] at hl
  obtain ⟨t2, hnext2, -, hlcd2⟩ := exec_dw_ok hl
  refine ⟨t, t1, t2, hnext, hwritten, ?_, hnext1, hnext2, hlcd.trans hlcd2.symm⟩
  calc t.lcd.la = t1.lcd.la + 1 := by rw [hlcd]; exact (Lcd.dispWrite_kept chipCfg _ _ l hl).2
    _ = s.lcd.la + 2 := by rw [hlcd1, hmla, BitVec.add_assoc]; rfl

/-! ### Two nibbles as one byte -/

/-- The low nibble of the byte of two nibbles is the second (R205). -/
theorem setWidth_append_low (v w : Nibble) : (v ++ w).setWidth 4 = w := by
  revert v w; decide

/-- The control registers below 9 do not look at the written value (R310 to R318). -/
theorem Lcd.controlEffect_of_lt_nine (c : Cfg) (v w : Byte) (l : Lcd) {n : Nat} (h : n < 9) :
    Lcd.controlEffect c n v l = Lcd.controlEffect c n w l := by
  by_cases h6 : n = 6
  · rw [h6, Lcd.controlEffect_testFill, Lcd.controlEffect_testFill]
  · rw [Lcd.controlEffect_none c v l h h6, Lcd.controlEffect_none c w l h h6]

/-- Below DCTRL 9 and outside direct draw, a latched write reads the low nibble of its value alone (R85, R302). -/
theorem Lcd.dispWrite_nibbleByte (c : Cfg) (v w : Nibble) (l : Lcd)
    (hd : ¬(c.ctrlOn l.dctrl[7] = true ∧ l.la.toNat < 64)) (h : l.la.toNat < 121) :
    Lcd.dispWrite c (v ++ w) l = Lcd.dispWrite c (nibbleByte w) l := by
  by_cases h64 : l.la.toNat < 64
  · have hd' : ¬c.ctrlOn l.dctrl[7] = true := fun hon => hd ⟨hon, h64⟩
    rw [Lcd.dispWrite_ddram c _ l hd' h64, Lcd.dispWrite_ddram c _ l hd' h64, setWidth_append_low, setWidth_nibbleByte]
  · by_cases h112 : l.la.toNat < 112
    · rw [Lcd.dispWrite_daram c _ l (by omega) h112, Lcd.dispWrite_daram c _ l (by omega) h112, getLsbD_append_zero,
        getLsbD_nibbleByte_zero]
    · obtain ⟨n, hn⟩ : ∃ n, l.la.toNat = 112 + n := Nat.exists_eq_add_of_le (by omega)
      rw [Lcd.dispWrite_dctrl c _ l hn (by omega) (by omega), Lcd.dispWrite_dctrl c _ l hn (by omega) (by omega),
        setWidth_append_low, setWidth_nibbleByte, Lcd.controlEffect_of_lt_nine c _ (nibbleByte w) _ (by omega)]

/-- At DCTRL 9 to 15 the low nibble is stored, and the action is tested on all 8 bits (R310). -/
theorem Lcd.dispWrite_action (c : Cfg) (v w : Nibble) (l : Lcd) (h : 121 ≤ l.la.toNat)
    (h' : l.la.toNat < 127 ∨ l.la.toNat = 127 ∧ w.getLsbD 0 = false) :
    let n := l.la.toNat - 112
    let m := { l with dctrl := l.dctrl.setIfInBounds n w, la := l.la + 1 }
    Lcd.dispWrite c (v ++ w) l = .ok (if c.actionFires (v ++ w) then firedAction n m else m) := by
  intro n m
  have hw := Lcd.dispWrite_dctrl c (v ++ w) l (n := n) (by omega) (by omega) fun h15 => by
    rw [getLsbD_append_zero]
    exact (h'.resolve_left (by omega)).2
  rw [setWidth_append_low, Lcd.controlEffect_action c _ _ (by omega) (by omega)] at hw
  exact hw

/-- Read as one byte, `dw2` is one latched write of the byte (R205). -/
theorem exec_dw2_oneByte_lcd {s : State} {y1 y2 : Reg} (hmode : chipCfg.dw2Mode = .oneByte) {l : Lcd}
    (h : s.lcd.dispWrite chipCfg (s.regs.x y1 ++ s.regs.x y2) = .ok l) :
    ∃ t, exec (.dw2 y1 y2) s = .next t ∧ DisplayWritten s t ∧ t.lcd.la = s.lcd.la + 1 ∧ t.lcd = l := by
  obtain ⟨t, hnext, hwritten, hlcd⟩ := s.finishDisplay_ok ((dw2Writes_oneByte hmode).trans h)
  exact ⟨t, hnext, hwritten, hlcd ▸ (Lcd.dispWrite_kept chipCfg _ _ l h).2, hlcd⟩

/-- Settles O24: under its mode, `dw2` is two latched writes or one, and the one by the part of the address map that LA
names. -/
theorem pairedDisplayWriteFollowsItsMode : Obligations.PairedDisplayWriteFollowsItsMode := by
  unfold Obligations.PairedDisplayWriteFollowsItsMode
  intro s y1 y2 even
  refine ⟨rfl, ?_⟩
  cases hmode : chipCfg.dw2Mode with
  | twoNibbles =>
    refine imp_and.1 fun h => ?_
    obtain ⟨t, t1, t2, hnext, hwritten, hla, hnext1, hnext2, hlcd⟩ := exec_dw2_twoNibbles_ok hmode h
    exact ⟨⟨t, hnext, hwritten⟩, t, t1, t2, hnext, hla, hnext1, hnext2, hlcd⟩
  | oneByte =>
    refine ⟨fun h => exec_dw2_oneByte_ok hmode (by omega) (by omega), fun h => ?_⟩
    split
    · next hd => exact exec_dw2_oneByte_lcd hmode (Lcd.dispWrite_directDraw chipCfg _ s.lcd hd.1 hd.2)
    · next hd =>
      split
      · next h121 =>
        obtain ⟨l, hl⟩ := Lcd.dispWrite_isOk chipCfg (s.regs.x y1 ++ s.regs.x y2) s.lcd (by omega) (by omega)
        obtain ⟨t, hnext, hwritten, hla, hlcd⟩ := exec_dw2_oneByte_lcd hmode hl
        rw [Lcd.dispWrite_nibbleByte chipCfg _ _ s.lcd hd h121] at hl
        obtain ⟨t2, hnext2, -, hlcd2⟩ := exec_dw_ok hl
        exact ⟨t, hnext, hwritten, hla, t2, hnext2, hlcd.trans hlcd2.symm⟩
      · next h121 =>
        exact exec_dw2_oneByte_lcd hmode (Lcd.dispWrite_action chipCfg _ _ s.lcd (Nat.not_lt.1 h121) h)

end Sys2Proof.Machine
end

section
/-! PROOFS. The jumps, the test-and-branch forms and wait-for-event (spec/43_control.md R243 to R251, R253): forms that
write the PC alone. -/

namespace Sys2Proof.Machine

/-! ### Forms that write the PC alone -/

theorem State.mapRegs_onlyPc (s : State) {f : RegFile → RegFile} {a : Addr12} (h : f s.regs = { s.regs with pc := a }) :
    OnlyPc s (s.mapRegs f) := by
  have hregs : (s.mapRegs f).regs = { s.regs with pc := a } := h
  constructor
  case regs => rw [RegsKept, hregs]; exact ⟨rfl, rfl⟩
  case flags => rw [FlagsKept, hregs]; exact ⟨rfl, rfl⟩
  case banks => rw [SameBanksAndStack, hregs]; exact ⟨rfl, rfl, rfl⟩
  case only => exact s.mapRegs_onlyRegs f

/-- Taken or not, a branch writes the PC and no other part of the register file. -/
theorem RegFile.branch_eq (r : RegFile) (taken : Bool) (target : Addr12) :
    r.branch taken target = { r with pc := if taken = true then target else r.pc + 1 } := by
  cases taken <;> rfl

/-- A form that ends in a branch writes the PC alone, by the condition `p` that its test decides. -/
theorem exec_branch_next {i : Instr} {s : State} {taken : Bool} {target : Addr12} {p : Prop} [Decidable p]
    (h : exec i s = .next (s.mapRegs fun r => r.branch taken target)) (hp : taken = true ↔ p) :
    ∃ t, exec i s = .next t ∧ OnlyPc s t ∧ t.regs.pc = if p then target else s.regs.pc + 1 := by
  have hbranch := s.regs.branch_eq taken target
  refine ⟨_, h, s.mapRegs_onlyPc hbranch, ?_⟩
  rw [State.mapRegs_regs, hbranch]
  exact ite_congr (propext hp) (fun _ => rfl) fun _ => rfl

/-! ### The jumps, the tests and the wait -/

/-- Settles O27, by the branch each of the seven forms ends in. -/
theorem jumpsGoToTargetOrFallThrough : Obligations.JumpsGoToTargetOrFallThrough := by
  unfold Obligations.JumpsGoToTargetOrFallThrough
  intro s v x f i taken target h
  simp only [List.mem_cons, Prod.mk.injEq, List.not_mem_nil, or_false] at h
  obtain ⟨rfl, rfl, rfl⟩ | ⟨rfl, rfl, rfl⟩ | ⟨rfl, rfl, rfl⟩ | ⟨rfl, rfl, rfl⟩ | ⟨rfl, rfl, rfl⟩ | ⟨rfl, rfl, rfl⟩ |
    ⟨rfl, rfl, rfl⟩ := h
  all_goals exact ⟨rfl, exec_branch_next rfl Iff.rfl⟩

/-- Settles O28: each form is a branch on a comparison of Booleans. -/
theorem testAndBranchFormsTestOneRegister : Obligations.TestAndBranchFormsTestOneRegister := by
  unfold Obligations.TestAndBranchFormsTestOneRegister
  intro s x b i pol f
  exact ⟨⟨rfl, exec_branch_next rfl beq_iff_eq⟩, ⟨rfl, exec_branch_next rfl beq_iff_eq⟩⟩

/-- Settles O29, by whether the whole of SR0 is zero. -/
theorem waitForEventHoldsPcWhileNoEvent : Obligations.WaitForEventHoldsPcWhileNoEvent := by
  unfold Obligations.WaitForEventHoldsPcWhileNoEvent
  intro s
  refine ⟨rfl, ?_⟩
  rw [exec, execWfe]
  split
  · exact ⟨s, rfl, s.mapRegs_onlyPc (f := id) rfl, rfl⟩
  · exact ⟨_, rfl, s.mapRegs_onlyPc rfl, rfl⟩

end Sys2Proof.Machine
end

section
/-! PROOFS. The forms the source implies but does not describe (spec/44_implied.md R280 to R284). -/

namespace Sys2Proof.Machine

/-- Settles O30: each of the five arms of `exec` is `refuseUnmodelled` of its own form, which reads nothing of the
state (D52). -/
theorem impliedFormsAreRefused : Obligations.ImpliedFormsAreRefused := by
  unfold Obligations.ImpliedFormsAreRefused
  intro s
  have hxld : exec .xld s = refuseUnmodelled .xld := rfl
  have hxst : exec .xst s = refuseUnmodelled .xst := rfl
  have hssa : exec .ssa s = refuseUnmodelled .ssa := rfl
  have hsla : exec .sla s = refuseUnmodelled .sla := rfl
  have hbsar : exec .bsar s = refuseUnmodelled .bsar := rfl
  exact ⟨hxld, hxst, hssa, hsla, hbsar⟩

end Sys2Proof.Machine
end

section
/-! PROOFS. The display step of a tick (spec/45_display_controller.md): the blink step (R331), the raster step and its
cursor (R314 to R317, R328, R329), the steady frame (R333), and the opacities (R330). -/

namespace Sys2Proof.Machine

/-! ### Opacities -/

theorem opacityOff_eq (n : Nat) : opacityOff n = ((min (6 * (n - 15)) 255 : Nat) : Rat) / 255 := by
  have hclamp : clamp255 (((n : Int) - 15) * 6) = ((min (6 * (n - 15)) 255 : Nat) : Int) := by
    unfold clamp255; omega
  rw [opacityOff, hclamp, Int.cast_natCast]

theorem opacityOn_eq (n : Nat) : opacityOn n = ((min (15 * n) 255 : Nat) : Rat) / 255 := by
  have hclamp : clamp255 (15 * (n : Int)) = ((min (15 * n) 255 : Nat) : Int) := by
    unfold clamp255; omega
  rw [opacityOn, hclamp, Int.cast_natCast]

theorem natCast_div_255_mono {a b : Nat} (h : a ≤ b) : (a : Rat) / 255 ≤ (b : Rat) / 255 :=
  div_le_div_of_nonneg_right (Nat.cast_le.2 h) (by norm_num)

theorem opacityOff_nonneg (n : Nat) : 0 ≤ opacityOff n := by
  rw [opacityOff_eq]
  exact div_nonneg (Nat.cast_nonneg _) (by norm_num)

theorem opacityOff_le_opacityOn (n : Nat) : opacityOff n ≤ opacityOn n := by
  rw [opacityOff_eq, opacityOn_eq]
  exact natCast_div_255_mono (by omega)

theorem opacityOn_le_one (n : Nat) : opacityOn n ≤ 1 := by
  rw [opacityOn_eq, ← div_self (show (255 : Rat) ≠ 0 by norm_num)]
  exact natCast_div_255_mono (Nat.min_le_right _ _)

theorem opacityOff_eq_zero {n : Nat} (h : n ≤ 15) : opacityOff n = 0 := by
  have hmin : min (6 * (n - 15)) 255 = 0 := by omega
  rw [opacityOff_eq, hmin, Nat.cast_zero, zero_div]

theorem opacityOn_eq_one {n : Nat} (h : 17 ≤ n) : opacityOn n = 1 := by
  have hmin : min (15 * n) 255 = 255 := by omega
  rw [opacityOn_eq, hmin]
  exact div_self (by norm_num)

theorem Lcd.outPixel_eq (c : Cfg) (l : Lcd) (y : Fin 28) (x : Fin 50) :
    l.outPixel c y x =
      if l.testFill c then 1 else if (l.pix[y])[x] then opacityOn l.contrast else opacityOff l.contrast := by
  rw [Lcd.outPixel, Lcd.opOn, Lcd.opOff]
  split
  · rfl
  · rfl

/-- Settles O51, by the two clamps as natural numbers over 255. -/
theorem opacityFollowsContrast : Obligations.OpacityFollowsContrast := by
  unfold Obligations.OpacityFollowsContrast
  exact ⟨fun n => ⟨opacityOff_eq n, opacityOn_eq n, opacityOff_nonneg n, opacityOff_le_opacityOn n, opacityOn_le_one n,
    opacityOff_eq_zero, opacityOn_eq_one⟩, Lcd.outPixel_eq⟩

/-! ### The blink step -/

/-- One blink step as one update: the glyph flips, and auto-reset clears the cursor, where the counter wraps (R331). -/
theorem Lcd.blinkStep_eq (c : Cfg) (l : Lcd) :
    l.blinkStep c =
      { l with
        blinkCtr := l.blinkCtr + 1
        blinkOn := l.blinkOn ^^ decide (l.blinkCtr + 1 = 0)
        cursor := if l.blinkCtr + 1 = 0 ∧ l.autoReset c = true then 0 else l.cursor } := by
  unfold Lcd.blinkStep
  dsimp only
  by_cases hwrap : l.blinkCtr + 1 = 0
  · have hauto : Lcd.autoReset c { l with blinkCtr := l.blinkCtr + 1, blinkOn := !l.blinkOn } = l.autoReset c := rfl
    rw [if_pos hwrap, hauto, decide_eq_true hwrap, Bool.xor_true]
    by_cases hreset : l.autoReset c = true
    · rw [if_pos hreset, if_pos ⟨hwrap, hreset⟩]
    · rw [if_neg hreset, if_neg fun h => hreset h.2]
  · rw [if_neg hwrap, if_neg fun h => hwrap h.1, decide_eq_false hwrap, Bool.xor_false]

theorem ofNat_add_one_eq_zero_iff (n : Nat) : BitVec.ofNat 10 n + 1 = 0 ↔ (n + 1) % 1024 = 0 := by
  rw [← BitVec.toNat_inj]
  simp [BitVec.toNat_add]

/-- The parity of the wraps changes exactly at a wrap. -/
theorem decide_odd_periods_succ (n : Nat) :
    (decide (n / 1024 % 2 = 1) ^^ decide ((n + 1) % 1024 = 0)) = decide ((n + 1) / 1024 % 2 = 1) := by
  rw [Bool.eq_iff_iff]
  simp only [bne_iff_ne, ne_eq, decide_eq_decide, decide_eq_true_eq]
  omega

/-- What n blink steps do from a counter of 0 (R331). -/
theorem Lcd.blinkStep_iterate (c : Cfg) (l : Lcd) (h : l.blinkCtr = 0) (n : Nat) :
    (Lcd.blinkStep c)^[n] l =
      { l with
        blinkCtr := BitVec.ofNat 10 n
        blinkOn := l.blinkOn ^^ decide (n / 1024 % 2 = 1)
        cursor := if 1024 ≤ n ∧ l.autoReset c = true then 0 else l.cursor } := by
  induction n with
  | zero =>
    have hctr : BitVec.ofNat 10 0 = l.blinkCtr := h.symm
    rw [hctr]
    simp
  | succ n ih =>
    rw [Function.iterate_succ_apply', ih, Lcd.blinkStep_eq]
    simp only [ofNat_add_one_eq_zero_iff]
    congr 1
    case e_cursor =>
      rw [← ite_or]
      exact if_congr (or_and_right.symm.trans (and_congr_left' (by omega))) rfl rfl
    case e_blinkOn => rw [Bool.xor_assoc, decide_odd_periods_succ]
    case e_blinkCtr => rw [BitVec.ofNat_add]; rfl

/-- Settles O48, by the n-fold blink step. -/
theorem blinkGlyphFlipsEveryPeriod : Obligations.BlinkGlyphFlipsEveryPeriod := by
  unfold Obligations.BlinkGlyphFlipsEveryPeriod
  intro c l n h
  rw [Lcd.blinkStep_iterate c l h n]
  refine ⟨BitVec.toNat_ofNat n 10, rfl, rfl, rfl, rfl, rfl, rfl, rfl, rfl, fun hoff => ?_, fun hon => ?_⟩
  · exact if_neg fun hreset => Bool.eq_false_iff.1 hoff hreset.2
  · by_cases hn : n < 1024
    · rw [if_pos hn]
      exact if_neg fun hreset => absurd hn (Nat.not_lt.2 hreset.1)
    · rw [if_neg hn]
      exact if_pos ⟨Nat.not_lt.1 hn, hon⟩

/-! ### The raster step -/

section
variable {c : Cfg} {l : Lcd}

theorem Lcd.rasterSkipped_iff :
    l.rasterSkipped c = true ↔ c.ctrlOn l.dctrl[4] = true ∨ c.ctrlOn l.dctrl[6] = true ∨ c.ctrlOn l.dctrl[7] = true := by
  have hlevels : l.rasterSkipped c = (c.ctrlOn l.dctrl[7] || c.ctrlOn l.dctrl[4] || c.ctrlOn l.dctrl[6]) := rfl
  rw [hlevels, Bool.or_eq_true, Bool.or_eq_true, or_assoc, or_comm, or_assoc]

/-- Under direct draw, scan-stop or test-fill nothing is drawn (R314, R316, R317). -/
theorem Lcd.rasterStep_skipped (h : l.rasterSkipped c = true) : l.rasterStep c = l := if_pos h

/-- Inside the frame one raster step is drawn (R328). -/
theorem Lcd.rasterStep_drawing (h : l.rasterSkipped c ≠ true) (hcur : l.cursor < 512) :
    l.rasterStep c = l.rasterAt c ⟨l.cursor, hcur⟩ := by
  rw [Lcd.rasterStep, if_neg h, dif_pos hcur]

/-- A finished frame stays while no redraw is requested (R329). -/
theorem Lcd.rasterStep_finished (hcur : ¬l.cursor < 512) (hreq : l.redrawReq = false) : l.rasterStep c = l := by
  rw [Lcd.rasterStep, dif_neg hcur, if_neg (Bool.eq_false_iff.1 hreq), ite_self]

/-- A redraw request starts the finished frame over, and is used up (R329). -/
theorem Lcd.rasterStep_wrap (h : l.rasterSkipped c ≠ true) (hcur : ¬l.cursor < 512) (hreq : l.redrawReq = true) :
    l.rasterStep c = Lcd.rasterAt c { l with cursor := 0, redrawReq := false } 0 := by
  rw [Lcd.rasterStep, if_neg h, dif_neg hcur, if_pos hreq]

end

/-- Settles O49, by the four cases of the raster step. -/
theorem rasterStepMovesCursorByFour : Obligations.RasterStepMovesCursorByFour := by
  unfold Obligations.RasterStepMovesCursorByFour
  intro c l _ m
  have hcells : l.SameCells m := (l.rasterStep_kept c).1
  refine ⟨fun hskip => Lcd.rasterStep_skipped (Lcd.rasterSkipped_iff.2 hskip), fun h4 h6 h7 => ?_, hcells.ddram,
    hcells.daram, hcells.dctrl, hcells.la, hcells.contrast, hcells.blinkOn, hcells.blinkCtr⟩
  have hdraws : l.rasterSkipped c ≠ true := by simp [Lcd.rasterSkipped_iff, h4, h6, h7]
  refine ⟨fun hcur => ?drawing, fun hcur hreq => ?finished, fun hcur hreq => ?wrap⟩
  case drawing =>
    have hm : m = l.rasterAt c ⟨l.cursor, hcur⟩ := Lcd.rasterStep_drawing hdraws hcur
    rw [hm, Lcd.rasterAt_eq]
    exact ⟨rfl, rfl⟩
  case finished => exact Lcd.rasterStep_finished hcur.not_lt hreq
  case wrap =>
    have hm : m = Lcd.rasterAt c { l with cursor := 0, redrawReq := false } 0 :=
      Lcd.rasterStep_wrap hdraws hcur.not_lt hreq
    rw [hm, Lcd.rasterAt_eq]
    exact ⟨rfl, rfl⟩

/-! ### The steady frame -/

/-- The mode of R333: no mirroring, no skip, no blinking and, with log 20, no auto-reset. -/
structure Lcd.Steady (c : Cfg) (l : Lcd) : Prop where
  mirror : ∀ h, l.mirrorOf c h = .none
  draws : l.rasterSkipped c ≠ true
  noBlink : l.blinkEnable c = false
  noReset : l.autoReset c = false

/-- The mode is one of the control registers alone. -/
theorem Lcd.Steady.of_dctrl_eq {c : Cfg} {l m : Lcd} (h : l.Steady c) (hd : m.dctrl = l.dctrl) : m.Steady c where
  mirror half := by
    rw [← h.mirror half]
    cases half with
    | top | bot => rw [Lcd.mirrorOf, hd, Lcd.mirrorOf]
  draws := by rw [Ne, Lcd.rasterSkipped_iff, hd, ← Lcd.rasterSkipped_iff]; exact h.draws
  noBlink := by rw [← h.noBlink, Lcd.blinkEnable, Lcd.level, hd]; rfl
  noReset := by rw [← h.noReset, Lcd.autoReset, Lcd.level, hd]; rfl

/-- The dot of the steady frame at a pixel: its cell's font row, bit 4 leftmost (R327, R333). -/
def frameDot (c : Cfg) (ddram : Vector Nibble 64) (y : Fin 28) (x : Fin 50) : Bool :=
  (c.font ddram[c.cellCode ⟨y.val / 7, by omega⟩ ⟨x.val / 5, by omega⟩] ⟨y.val % 7, by omega⟩).getLsbD (4 - x.val % 5)

theorem frameDot_cell (c : Cfg) (ddram : Vector Nibble 64) (r : Fin 4) (k : Fin 10) (d : Fin 7) (dx : Fin 5)
    (hy : 7 * r.val + d.val < 28) (hx : 5 * k.val + dx.val < 50) :
    frameDot c ddram ⟨7 * r.val + d.val, hy⟩ ⟨5 * k.val + dx.val, hx⟩ =
      (c.font ddram[c.cellCode r k] d).getLsbD (4 - dx.val) := by
  have hr : (⟨(7 * r.val + d.val) / 7, by omega⟩ : Fin 4) = r := Fin.ext (by dsimp only; omega)
  have hk : (⟨(5 * k.val + dx.val) / 5, by omega⟩ : Fin 10) = k := Fin.ext (by dsimp only; omega)
  have hd : (⟨(7 * r.val + d.val) % 7, by omega⟩ : Fin 7) = d := Fin.ext (by dsimp only; omega)
  have hdx : (5 * k.val + dx.val) % 5 = dx.val := by omega
  simp only [frameDot, hr, hk, hd, hdx]

theorem mem_rasterColumns {col : Fin 16} {k : Fin 10} :
    k ∈ rasterColumns col ↔ col.val - 1 ≤ k.val ∧ k.val < col.val + 3 := by
  have hall : k ∈ charColumns := by revert k; decide
  simp [rasterColumns, hall]

section
variable {c : Cfg} {l : Lcd}

/-- In the steady mode one dot row of one cell is written as the frame has it, where the frame has it (R326, R327). -/
theorem Lcd.Steady.cellPixels_eq (h : l.Steady c) (hc : c.Valid) (row : Fin 4) (d : Fin 7) (k : Fin 10) :
    l.cellPixels c row d k = [(0 : Fin 5), 1, 2, 3, 4].map fun dx =>
      ⟨⟨7 * row.val + d.val, by omega⟩, ⟨5 * k.val + dx.val, by omega⟩,
        frameDot c l.ddram ⟨7 * row.val + d.val, by omega⟩ ⟨5 * k.val + dx.val, by omega⟩⟩ := by
  have hglyph : l.glyph c row k d = c.font l.ddram[c.cellCode row k] d :=
    if_neg fun hblink => Bool.eq_false_iff.1 h.noBlink hblink.1
  simp only [Lcd.cellPixels, h.mirror, hc.mirrorApply_none, hglyph, frameDot_cell]

theorem Lcd.Steady.mem_cellPixels (h : l.Steady c) (hc : c.Valid) {row : Fin 4} {d : Fin 7} {k : Fin 10}
    {p : PixelWrite} :
    p ∈ l.cellPixels c row d k ↔
      p.y.val = 7 * row.val + d.val ∧ p.x.val / 5 = k.val ∧ p.on = frameDot c l.ddram p.y p.x := by
  rw [h.cellPixels_eq hc, List.mem_map]
  constructor
  · rintro ⟨dx, -, rfl⟩
    exact ⟨rfl, by dsimp only; omega, rfl⟩
  · obtain ⟨y, x, on⟩ := p
    rintro ⟨hy, hx, hon⟩
    dsimp only at hy hx hon
    have hdots : ∀ dx : Fin 5, dx ∈ [(0 : Fin 5), 1, 2, 3, 4] := by decide
    have hy' : y = ⟨7 * row.val + d.val, by omega⟩ := Fin.ext hy
    have hx' : x = ⟨5 * k.val + x.val % 5, by omega⟩ := Fin.ext (by dsimp only; omega)
    refine ⟨⟨x.val % 5, by omega⟩, hdots _, ?_⟩
    rw [hon]
    exact congrArg₂ (fun y x => (⟨y, x, frameDot c l.ddram y x⟩ : PixelWrite)) hy'.symm hx'.symm

/-- The pixels of a raster step in the steady mode: one dot row, in the columns around the cursor (R328). -/
theorem Lcd.Steady.mem_rasterPixels (h : l.Steady c) (hc : c.Valid) {pos : ScanPos} {p : PixelWrite} :
    p ∈ l.rasterPixels c pos ↔
      pos.dotRow.val < 7 ∧ p.y.val = 7 * pos.row.val + pos.dotRow.val ∧
        pos.col.val - 1 ≤ p.x.val / 5 ∧ p.x.val / 5 < pos.col.val + 3 ∧ p.on = frameDot c l.ddram p.y p.x := by
  unfold Lcd.rasterPixels
  split
  · next hd =>
    simp only [List.mem_flatMap, mem_rasterColumns, h.mem_cellPixels hc, hd, true_and]
    constructor
    · rintro ⟨k, ⟨hlo, hhi⟩, hy, hx, hon⟩
      exact ⟨hy, hx ▸ hlo, hx ▸ hhi, hon⟩
    · rintro ⟨hy, hlo, hhi, hon⟩
      exact ⟨⟨p.x.val / 5, by omega⟩, ⟨hlo, hhi⟩, hy, rfl, hon⟩
  · next hd => simp [hd]

end

/-- The raster step of a sweep from cursor 0 that draws a pixel, under the reference cursor decode (R328): 32 steps
for a row of cells, 4 for a dot row, and the columns 0 to 2, 3 to 6 and 7 to 9 in the first three of the 4. -/
def sweepStep (y : Fin 28) (x : Fin 50) : Nat := 32 * (y.val / 7) + 4 * (y.val % 7) + (x.val / 5 + 1) / 4

/-- After n steps of a sweep: the mode and the cells are as at its start, and what the steps drew is in the buffer. -/
structure Lcd.SweptTo (c : Cfg) (ddram : Vector Nibble 64) (n : Nat) (l : Lcd) : Prop where
  steady : l.Steady c
  ddram_eq : l.ddram = ddram
  cursor_eq : l.cursor = 4 * n
  drawn : ∀ y x, sweepStep y x < n → (l.pix[y])[x] = frameDot c ddram y x

section
variable {c : Cfg} {l : Lcd} {ddram : Vector Nibble 64} {n : Nat}

/-- Without auto-reset the blink step has no part in the sweep (R331). -/
theorem Lcd.SweptTo.blinkStep (h : l.SweptTo c ddram n) : (l.blinkStep c).SweptTo c ddram n := by
  have hcur : (l.blinkStep c).cursor = l.cursor := by
    rw [Lcd.blinkStep_eq]
    exact if_neg fun hreset => Bool.eq_false_iff.1 h.steady.noReset hreset.2
  obtain ⟨-, -, hddram, -, hdctrl, -, hpix, -⟩ := l.blinkStep_kept c
  exact ⟨h.steady.of_dctrl_eq hdctrl, hddram.trans h.ddram_eq, hcur.trans h.cursor_eq, by rw [hpix]; exact h.drawn⟩

/-- Step n of a sweep names every pixel it is to draw. -/
theorem exists_mem_rasterPixels_of_sweepStep (h : l.Steady c) (hc : c.Valid) {m : Fin 512} (hm : m.val = 4 * n)
    {y : Fin 28} {x : Fin 50} (hstep : sweepStep y x = n) :
    ∃ p ∈ l.rasterPixels c (Config.refScanCells m), p.y = y ∧ p.x = x := by
  refine ⟨⟨y, x, frameDot c l.ddram y x⟩, (h.mem_rasterPixels hc).2 ?_, rfl, rfl⟩
  unfold sweepStep at hstep
  have hrow : m.val / 128 = y.val / 7 := by omega
  have hdot : m.val / 16 % 8 = y.val % 7 := by omega
  have hcol : m.val % 16 = 4 * ((x.val / 5 + 1) / 4) := by omega
  dsimp only [Config.refScanCells]
  rw [hrow, hdot, hcol]
  refine ⟨?_, ?_, ?_, ?_, rfl⟩
  all_goals omega

theorem Lcd.SweptTo.rasterStep (h : l.SweptTo c ddram n) (hc : c.Valid) (hscan : c.scanCells = Config.refScanCells)
    (hn : n < 128) : (l.rasterStep c).SweptTo c ddram (n + 1) := by
  have hcur : l.cursor < 512 := by rw [h.cursor_eq]; omega
  rw [Lcd.rasterStep_drawing h.steady.draws hcur, Lcd.rasterAt_eq, hscan]
  refine ⟨h.steady.of_dctrl_eq rfl, h.ddram_eq, ?cursor, fun y x hyx => ?drawn⟩
  case cursor =>
    dsimp only
    rw [h.cursor_eq]
    omega
  case drawn =>
    by_cases hp : ∃ p ∈ l.rasterPixels c (Config.refScanCells ⟨l.cursor, hcur⟩), p.y = y ∧ p.x = x
    · refine Lcd.pix_paint_mem _ l y x _ hp fun p hmem hy hx => ?_
      obtain ⟨-, -, -, -, hon⟩ := (h.steady.mem_rasterPixels hc).1 hmem
      rw [hon, hy, hx, h.ddram_eq]
    · have hne : sweepStep y x ≠ n := fun hstep =>
        hp (exists_mem_rasterPixels_of_sweepStep h.steady hc h.cursor_eq hstep)
      exact (Lcd.pix_paint_other _ l y x fun p hmem hyx => hp ⟨p, hmem, hyx⟩).trans (h.drawn y x (by omega))

theorem Lcd.SweptTo.iterate_displayStep (h : l.SweptTo c ddram 0) (hc : c.Valid)
    (hscan : c.scanCells = Config.refScanCells) (hn : n ≤ 128) :
    Lcd.SweptTo c ddram n ((Lcd.displayStep c)^[n] l) := by
  induction n with
  | zero => exact h
  | succ n ih =>
    rw [Function.iterate_succ_apply']
    exact (ih (by omega)).blinkStep.rasterStep hc hscan (by omega)

end

/-- Settles O50, by the sweep of 128 steps. -/
theorem steadyFrameIsDrawnInOneSweep : Obligations.SteadyFrameIsDrawnInOneSweep := by
  unfold Obligations.SteadyFrameIsDrawnInOneSweep
  intro c l hc hscan htop hbot h4 h5 h6 h7 h8 hcur m
  have hsteady : l.Steady c :=
    { mirror := fun half => by cases half with | top => exact htop | bot => exact hbot
      draws := by simp [Lcd.rasterSkipped_iff, h4, h6, h7]
      noBlink := h5
      noReset := h8 }
  have hstart : l.SweptTo c l.ddram 0 := ⟨hsteady, rfl, hcur, fun y x h => absurd h (Nat.not_lt_zero _)⟩
  have hm : m.SweptTo c l.ddram 128 := hstart.iterate_displayStep hc hscan le_rfl
  refine ⟨hm.cursor_eq, hm.ddram_eq, fun r k d dx hy hx => ?_⟩
  have hlast : sweepStep ⟨7 * r.val + d.val, hy⟩ ⟨5 * k.val + dx.val, hx⟩ < 128 := by
    unfold sweepStep; dsimp only; omega
  exact (hm.drawn _ _ hlast).trans (frameDot_cell c l.ddram r k d dx hy hx)

end Sys2Proof.Machine
end

section
/-! PROOFS. The event sources (spec/60_exceptions.md): Timer0 and its sources (R354 to R357), Timer1 with its digit and
its rollover (R358 to R360), and the keys with the stopwatch (R370 to R372). -/

namespace Sys2Proof.Machine

/-! ### Counters and bits that are set once or more -/

/-- Nibble w is v with the 2-bit counter at shift k gone up by r mod 4, the other bits kept. -/
def CounterAdvanced (k : Fin 3) (r : Nat) (v w : Nibble) : Prop :=
  (w >>> k.val &&& 3).toNat = ((v >>> k.val &&& 3).toNat + r) % 4 ∧
  w &&& ~~~(3#4 <<< k.val) = v &&& ~~~(3#4 <<< k.val)

theorem CounterAdvanced.zero (k : Fin 3) (v : Nibble) : CounterAdvanced k 0 v v := by
  have hlt : (v >>> k.val &&& 3).toNat < 4 := by revert v k; decide
  exact ⟨(Nat.mod_eq_of_lt hlt).symm, rfl⟩

theorem CounterAdvanced.bump {k : Fin 3} {r : Nat} {v w : Nibble} (h : CounterAdvanced k r v w) :
    CounterAdvanced k (r + 1) v (bumpCounter w k) := by
  obtain ⟨hcount, hrest⟩ := h
  refine ⟨?_, (bumpCounter_rest w k).trans hrest⟩
  rw [bumpCounter_count, hcount]
  omega

theorem setBit_setBit (v : Nibble) (n : BitIdx) : setBit (setBit v n) n = setBit v n := by
  unfold setBit; rw [BitVec.or_assoc, BitVec.or_self]

theorem setBit_ite_setBit (p : Prop) [Decidable p] (v : Nibble) (n : BitIdx) :
    setBit (if p then v else setBit v n) n = setBit v n := by
  split
  · rfl
  · exact setBit_setBit v n

theorem testBit_setBit_of_testBit {v : Nibble} {m : BitIdx} (h : testBit v m = true) (n : BitIdx) :
    testBit (setBit v n) m = true := by
  unfold testBit at h ⊢
  rw [testBit_setBit, h, Bool.true_or]

/-! ### Timer0: the count of the seconds nibble -/

theorem nibble_succ_eq_zero_iff (v : Nibble) : v + 1 = 0 ↔ v.toNat = 15 := by revert v; decide

theorem toNat_succ {w : Nat} (hw : 0 < w) (v : BitVec w) : (v + 1).toNat = (v.toNat + 1) % 2 ^ w := by
  rw [BitVec.toNat_add]
  simp [hw]

theorem Devices.timer0Step_t0 (c : Cfg) (d : Devices) : (d.timer0Step c).t0 = d.t0 + 1 := (d.timer0Step_hidden c).t0

/-- What n Timer0 steps from a count of 0 have made of d, as far as R354 and R355 fix it without the sources. -/
structure Devices.Timer0Ran (c : Cfg) (d : Devices) (n : Nat) (e : Devices) : Prop where
  t0 : e.t0.toNat = n % 1024
  seconds : (e.getSr 14).toNat = ((d.getSr 14).toNat + n / 256) % 16
  counter : CounterAdvanced c.sr4CntShift (((d.getSr 14).toNat + n / 256) / 16) (d.getSr 4) (e.getSr 4)
  others : ∀ j, j ∉ [0, 4, 12, 14] → e.getSr j = d.getSr j

section
variable {c : Cfg} {d e : Devices} {n : Nat}

theorem Devices.Timer0Ran.zero (h : d.t0 = 0) : d.Timer0Ran c 0 d where
  t0 := by rw [h]; rfl
  seconds := (Nat.mod_eq_of_lt (d.getSr 14).isLt).symm
  counter := by
    have hnone : ((d.getSr 14).toNat + 0 / 256) / 16 = 0 := Nat.div_eq_of_lt (d.getSr 14).isLt
    rw [hnone]
    exact .zero _ _
  others _ _ := rfl

theorem Devices.Timer0Ran.succ (h : d.Timer0Ran c n e) : d.Timer0Ran c (n + 1) (e.timer0Step c) := by
  have hsecond : (e.t0.toNat + 1) % 256 = 0 ↔ (n + 1) % 256 = 0 := by rw [h.t0]; omega
  have hrollover : e.getSr 14 + 1 = 0 ↔ ((d.getSr 14).toNat + n / 256) % 16 = 15 := by
    rw [nibble_succ_eq_zero_iff, h.seconds]
  have hsr : ∀ j, j ≠ 0 → j ≠ 12 → (e.timer0Step c).getSr j = _ := Devices.getSr_timer0Step c e
  refine ⟨?_, ?_, ?_, fun j hj => ?_⟩
  · rw [Devices.timer0Step_t0, toNat_succ (by decide), h.t0]
    exact Nat.mod_add_mod n 1024 1
  · rw [hsr 14 (by decide) (by decide)]
    by_cases hs : (n + 1) % 256 = 0
    · rw [if_pos ⟨hsecond.2 hs, rfl⟩, toNat_succ (by decide), h.seconds]
      omega
    · rw [if_neg fun hc => hs (hsecond.1 hc.1), if_neg fun hc => hs (hsecond.1 hc.1), h.seconds]
      omega
  · rw [hsr 4 (by decide) (by decide), if_neg fun hc => absurd hc.2 (by decide)]
    by_cases hr : (n + 1) % 256 = 0 ∧ ((d.getSr 14).toNat + n / 256) % 16 = 15
    · obtain ⟨hs, h15⟩ := hr
      have hcount : ((d.getSr 14).toNat + (n + 1) / 256) / 16 = ((d.getSr 14).toNat + n / 256) / 16 + 1 := by omega
      rw [if_pos ⟨hsecond.2 hs, hrollover.2 h15, rfl⟩, hcount]
      exact h.counter.bump
    · have hcount : ((d.getSr 14).toNat + (n + 1) / 256) / 16 = ((d.getSr 14).toNat + n / 256) / 16 := by omega
      rw [if_neg fun hc => hr ⟨hsecond.1 hc.1, hrollover.1 hc.2.1⟩, hcount]
      exact h.counter
  · have hne : j ≠ 0 ∧ j ≠ 4 ∧ j ≠ 12 ∧ j ≠ 14 := by simpa using hj
    obtain ⟨h0, h4, h12, h14⟩ := hne
    rw [hsr j h0 h12, if_neg fun hc => h14 hc.2, if_neg fun hc => h4 hc.2.2]
    exact h.others j hj

theorem Devices.timer0Ran_iterate (c : Cfg) (h : d.t0 = 0) (n : Nat) :
    d.Timer0Ran c n ((Devices.timer0Step c)^[n] d) := by
  induction n with
  | zero => exact .zero h
  | succ n ih => rw [Function.iterate_succ_apply']; exact ih.succ

end

/-- Settles O41, by induction on the number of steps. -/
theorem timerZeroCountsSecondsNibble : Obligations.TimerZeroCountsSecondsNibble := by
  unfold Obligations.TimerZeroCountsSecondsNibble
  intro c d n h
  have hran := Devices.timer0Ran_iterate c h n
  obtain ⟨hcount, hrest⟩ := hran.counter
  exact ⟨hran.t0, hran.seconds, hcount, hrest, hran.others⟩

/-! ### Timer0: the sources -/

/-- The three sources of the loop of R354, at the count already advanced. -/
def Devices.timer0Loop (c : Cfg) (d : Devices) : Devices :=
  Devices.timer0Source c .t1024 (Devices.timer0Source c .t256 (Devices.timer0Source c .t128 { d with t0 := d.t0 + 1 }))

/-- A Timer0 step before its SR0 timer bit: the loop, then the seconds (R354, R355). -/
def Devices.timer0Raised (c : Cfg) (d : Devices) : Devices :=
  if (d.timer0Loop c).t0.toNat % 256 = 0 then (d.timer0Loop c).secStep c else d.timer0Loop c

theorem Devices.timer0Step_eq_timerEvent (c : Cfg) (d : Devices) :
    d.timer0Step c = (d.timer0Raised c).timerEvent c := rfl

section
variable (c : Cfg) (d : Devices)

/-- The SR0 timer bit follows the SR12 bits of the step; every other register is as the step left it before (R356). -/
theorem Devices.getSr_timer0Step_eq_ite (j : SRIdx) :
    (d.timer0Step c).getSr j =
      if j = 0 ∧ (d.timer0Raised c).getSr 12 ≠ 0 then setBit ((d.timer0Raised c).getSr 0) c.sr0TimerBit
      else (d.timer0Raised c).getSr j := by
  rw [Devices.timer0Step_eq_timerEvent, Devices.getSr_timerEvent]

theorem Devices.timer0Loop_t0 : (d.timer0Loop c).t0 = d.t0 + 1 := by
  unfold Devices.timer0Loop
  simp only [Devices.timer0Source_t0]

theorem Devices.getSr_timer0Loop {j : SRIdx} (hj : j ≠ 12) : (d.timer0Loop c).getSr j = d.getSr j := by
  unfold Devices.timer0Loop
  simp only [Devices.getSr_timer0Source, hj, false_and, if_false]
  rfl

/-- A source of the loop fires at the advanced count exactly when it is due. -/
theorem timer0Period_dvd_iff_due {src : Timer0Source} (h : src ≠ .sec) :
    (d.t0 + 1).toNat % timer0Period src = 0 ↔ Timer0Due d src := by
  rw [toNat_succ (by decide)]
  cases src with
  | t128 | t256 | t1024 => simp only [timer0Period, Timer0Due]; omega
  | sec => exact absurd rfl h

theorem Devices.testBit_timer0Loop (n : BitIdx) :
    ((d.timer0Loop c).getSr 12).getLsbD n = true ↔
      (d.getSr 12).getLsbD n = true ∨
        ∃ src, src ≠ .sec ∧ c.sr12Bit src = n ∧ c.sr13Enables src (d.getSr 13) = true ∧ Timer0Due d src := by
  have hsr13 : ∀ (src : Timer0Source) (e : Devices), (e.timer0Source c src).getSr 13 = e.getSr 13 := fun src e => by
    rw [Devices.getSr_timer0Source, if_neg fun h => absurd h.1 (by decide)]
  unfold Devices.timer0Loop
  simp only [Devices.testBit_timer0Source, hsr13, Devices.timer0Source_t0,
    timer0Period_dvd_iff_due d (src := .t128) nofun, timer0Period_dvd_iff_due d (src := .t256) nofun,
    timer0Period_dvd_iff_due d (src := .t1024) nofun]
  constructor
  · rintro (((h | h) | h) | h)
    · exact .inl h
    · exact .inr ⟨.t128, nofun, h⟩
    · exact .inr ⟨.t256, nofun, h⟩
    · exact .inr ⟨.t1024, nofun, h⟩
  · rintro (h | ⟨src, hsrc, h⟩)
    · exact .inl (.inl (.inl h))
    · cases src with
      | t128 => exact .inl (.inl (.inr h))
      | t256 => exact .inl (.inr h)
      | t1024 => exact .inr h
      | sec => exact absurd rfl hsrc

theorem Devices.timer0Loop_second : (d.timer0Loop c).t0.toNat % 256 = 0 ↔ (d.t0.toNat + 1) % 256 = 0 := by
  rw [Devices.timer0Loop_t0]
  exact timer0Period_dvd_iff_due d (src := .t256) nofun

theorem Devices.getSr_timer0Raised {j : SRIdx} (h4 : j ≠ 4) (h12 : j ≠ 12) (h14 : j ≠ 14) :
    (d.timer0Raised c).getSr j = d.getSr j := by
  unfold Devices.timer0Raised
  split
  · rw [Devices.getSr_secStep, if_neg h14, if_neg fun h => h4 h.2, if_neg fun h => h12 h.2.1]
    exact d.getSr_timer0Loop c h12
  · exact d.getSr_timer0Loop c h12

/-- The SR12 bits of a step: those of the loop, and SEC at the rollover of the seconds nibble (R354, R355, R357). -/
theorem Devices.testBit_timer0Raised (n : BitIdx) :
    ((d.timer0Raised c).getSr 12).getLsbD n = true ↔
      (d.getSr 12).getLsbD n = true ∨
        ∃ src, c.sr12Bit src = n ∧ c.sr13Enables src (d.getSr 13) = true ∧ Timer0Due d src := by
  have hraised : ((d.timer0Raised c).getSr 12).getLsbD n = true ↔
      ((d.timer0Loop c).getSr 12).getLsbD n = true ∨
        c.sr12Bit .sec = n ∧ c.sr13Enables .sec (d.getSr 13) = true ∧ Timer0Due d .sec := by
    unfold Devices.timer0Raised
    split
    · next hsecond =>
      rw [Devices.testBit_secStep, d.getSr_timer0Loop c (j := 13) (by decide),
        d.getSr_timer0Loop c (j := 14) (by decide)]
      simp only [Timer0Due, (d.timer0Loop_second c).1 hsecond, true_and]
    · next hsecond =>
      exact ⟨.inl, fun h => h.resolve_right fun ⟨_, _, hdue⟩ => hsecond ((d.timer0Loop_second c).2 hdue.1)⟩
  rw [hraised, Devices.testBit_timer0Loop, or_assoc]
  refine or_congr_right ⟨?_, ?_⟩
  · rintro (⟨src, -, h⟩ | h)
    · exact ⟨src, h⟩
    · exact ⟨.sec, h⟩
  · rintro ⟨src, h⟩
    by_cases hsrc : src = .sec
    · subst hsrc; exact .inr h
    · exact .inl ⟨src, hsrc, h⟩

end

/-- Settles O42, by the SR12 bits of the loop and the seconds, then the SR0 timer bit. -/
theorem timerZeroRaisesEnabledSources : Obligations.TimerZeroRaisesEnabledSources := by
  unfold Obligations.TimerZeroRaisesEnabledSources
  intro c d e
  have hsr : ∀ j, e.getSr j = _ := d.getSr_timer0Step_eq_ite c
  have h12 : e.getSr 12 = (d.timer0Raised c).getSr 12 := (hsr 12).trans (if_neg fun h => absurd h.1 (by decide))
  have hkept : ∀ {j : SRIdx}, j ≠ 4 → j ≠ 12 → j ≠ 14 → (d.timer0Raised c).getSr j = d.getSr j :=
    d.getSr_timer0Raised c
  refine ⟨fun n => ?_, ?_, ?_⟩
  · rw [h12]; exact d.testBit_timer0Raised c n
  · rw [hsr 13, if_neg fun h => absurd h.1 (by decide)]
    exact hkept (by decide) (by decide) (by decide)
  · rw [hsr 0, h12, hkept (j := 0) (by decide) (by decide) (by decide)]
    simp only [true_and, ne_eq, ite_not]

/-! ### Timer1 -/

/-- The count of Timer1 with its digit, where a digit of 10 to 15 counts as 9 (R359, R360). -/
def Devices.timer1Total (d : Devices) : Nat := 38 * min (d.getSr 10).toNat 9 + d.t1

theorem Devices.timer1Step_closed {c : Cfg} {d : Devices} (h : testBit (d.getSr 9) c.t1GateBit = false) :
    d.timer1Step c = d := by
  unfold Devices.timer1Step
  rw [if_neg (by rw [h]; exact nofun)]

/-- What a step with the gate open can be: a count below 37 goes up; from 37 on the count starts again and the digit
steps (R358, R359). -/
theorem Devices.timer1Step_open {c : Cfg} {d : Devices} (h : testBit (d.getSr 9) c.t1GateBit = true)
    (ht : d.t1 ≤ 37) :
    d.t1 < 37 ∧ d.timer1Step c = { d with t1 := d.t1 + 1 } ∨
    d.t1 = 37 ∧ d.timer1Step c = Devices.digitStep c { d with t1 := 0 } := by
  unfold Devices.timer1Step
  rw [if_pos h]
  by_cases h37 : d.t1 = 37
  · exact .inr ⟨h37, if_pos (by rw [h37])⟩
  · exact .inl ⟨by omega, if_neg (by omega)⟩

/-- A digit step below 9 touches the digit alone; the digit goes up (R359). -/
theorem Devices.digitStep_of_lt {c : Cfg} {d : Devices} (h : (d.getSr 10).toNat < 9) :
    ((d.digitStep c).getSr 10).toNat = (d.getSr 10).toNat + 1 ∧
      ∀ j, j ≠ 10 → (d.digitStep c).getSr j = d.getSr j := by
  refine ⟨?_, fun j hj => ?_⟩
  · rw [Devices.getSr_digitStep, if_neg (Nat.not_le.2 h), if_pos rfl, toNat_succ (by decide)]
    omega
  · rw [Devices.getSr_digitStep, if_neg (Nat.not_le.2 h), if_neg hj]

/-- A digit step from 9 on is the rollover (R359, R360). -/
theorem Devices.digitStep_of_ge {c : Cfg} {d : Devices} (h : 9 ≤ (d.getSr 10).toNat) :
    (d.digitStep c).getSr 10 = 0 ∧
      (d.digitStep c).getSr 9 = setBit (d.getSr 9) (c.swPendBit.castLE (by omega)) ∧
      (d.digitStep c).getSr 0 = setBit (d.getSr 0) c.sr0SwBit ∧
      (d.digitStep c).getSr 3 = bumpCounter (d.getSr 3) c.sr3CntShift ∧
      ∀ j, j ∉ [0, 3, 9, 10] → (d.digitStep c).getSr j = d.getSr j := by
  have hsr : ∀ j, (d.digitStep c).getSr j = _ := fun j => (d.getSr_digitStep c j).trans (if_pos h)
  refine ⟨hsr 10, hsr 9, hsr 0, hsr 3, fun j hj => ?_⟩
  have hne : j ≠ 0 ∧ j ≠ 3 ∧ j ≠ 9 ∧ j ≠ 10 := by simpa using hj
  obtain ⟨h0, h3, h9, h10⟩ := hne
  rw [hsr j, if_neg h3, if_neg h0, if_neg h9, if_neg h10]

/-- What n Timer1 steps with the gate open have made of the special registers and the count of d (R358 to R360). -/
structure Devices.Timer1Ran (c : Cfg) (d : Devices) (n : Nat) (e : Devices) : Prop where
  total : e.timer1Total = (d.timer1Total + n) % 380
  t1 : e.t1 ≤ 37
  digit_before : d.t1 + n < 38 → e.getSr 10 = d.getSr 10
  digit_after : 38 ≤ d.t1 + n → (e.getSr 10).toNat ≤ 9
  pending : e.getSr 9 =
    if d.timer1Total + n < 380 then d.getSr 9 else setBit (d.getSr 9) (c.swPendBit.castLE (by omega))
  event : e.getSr 0 = if d.timer1Total + n < 380 then d.getSr 0 else setBit (d.getSr 0) c.sr0SwBit
  counter : CounterAdvanced c.sr3CntShift ((d.timer1Total + n) / 380) (d.getSr 3) (e.getSr 3)
  others : ∀ j, j ∉ [0, 3, 9, 10] → e.getSr j = d.getSr j

section
variable {c : Cfg} {d e : Devices} {n : Nat}

theorem Devices.timer1Total_lt (h : d.t1 ≤ 37) : d.timer1Total < 380 := by
  unfold Devices.timer1Total; omega

theorem Devices.Timer1Ran.zero (h : d.t1 ≤ 37) : d.Timer1Ran c 0 d := by
  have hlt : d.timer1Total + 0 < 380 := d.timer1Total_lt h
  have hnone : (d.timer1Total + 0) / 380 = 0 := Nat.div_eq_of_lt hlt
  exact
    { total := (Nat.mod_eq_of_lt hlt).symm
      t1 := h
      digit_before := fun _ => rfl
      digit_after := fun h38 => by omega
      pending := (if_pos hlt).symm
      event := (if_pos hlt).symm
      counter := by rw [hnone]; exact .zero _ _
      others := fun _ _ => rfl }

theorem Devices.Timer1Ran.gate (h : d.Timer1Ran c n e) (hgate : testBit (d.getSr 9) c.t1GateBit = true) :
    testBit (e.getSr 9) c.t1GateBit = true := by
  rw [h.pending]
  split
  · exact hgate
  · exact testBit_setBit_of_testBit hgate _

/-- A step that is no rollover: the total goes up without coming round, and the digit alone may be written. -/
theorem Devices.Timer1Ran.succ_of_kept {e' : Devices} (h : d.Timer1Ran c n e)
    (htotal : e'.timer1Total = e.timer1Total + 1) (ht1 : e'.t1 ≤ 37)
    (hbefore : d.t1 + (n + 1) < 38 → e'.getSr 10 = e.getSr 10)
    (hafter : 38 ≤ d.t1 + (n + 1) → (e'.getSr 10).toNat ≤ 9)
    (hkept : ∀ j, j ≠ 10 → e'.getSr j = e.getSr j) :
    d.Timer1Ran c (n + 1) e' := by
  have hlt : e'.timer1Total < 380 := Devices.timer1Total_lt ht1
  have htot := h.total
  have hround : d.timer1Total + (n + 1) < 380 ↔ d.timer1Total + n < 380 := by omega
  have hcount : (d.timer1Total + (n + 1)) / 380 = (d.timer1Total + n) / 380 := by omega
  exact
    { total := by omega
      t1 := ht1
      digit_before := fun h38 => (hbefore h38).trans (h.digit_before (by omega))
      digit_after := hafter
      pending := by simp only [hround, hkept 9 (by decide), h.pending]
      event := by simp only [hround, hkept 0 (by decide), h.event]
      counter := by rw [hcount, hkept 3 (by decide)]; exact h.counter
      others := fun j hj => (hkept j (by rintro rfl; exact absurd hj (by decide))).trans (h.others j hj) }

/-- A rollover: the total comes round, and the rollover's bits and counter are written. -/
theorem Devices.Timer1Ran.succ_of_rollover (h : d.Timer1Ran c n e) (h37 : e.t1 = 37) (h9 : 9 ≤ (e.getSr 10).toNat) :
    d.Timer1Ran c (n + 1) (Devices.digitStep c { e with t1 := 0 }) := by
  obtain ⟨hdigit, hpending, hevent, hcounter, hothers⟩ :=
    Devices.digitStep_of_ge (c := c) (d := { e with t1 := 0 }) h9
  have htot := h.total
  have he : e.timer1Total = 379 := by unfold Devices.timer1Total; omega
  have hround : ¬d.timer1Total + (n + 1) < 380 := by omega
  have hcount : (d.timer1Total + (n + 1)) / 380 = (d.timer1Total + n) / 380 + 1 := by omega
  have ht1 : (Devices.digitStep c { e with t1 := 0 }).t1 = 0 := Devices.digitStep_t1 c _
  exact
    { total := by
        unfold Devices.timer1Total at *
        rw [hdigit, ht1]
        change 0 = _
        omega
      t1 := by rw [ht1]; omega
      digit_before := fun h38 => by unfold Devices.timer1Total at *; omega
      digit_after := fun _ => by rw [hdigit]; exact Nat.zero_le 9
      pending := by
        rw [if_neg hround, hpending]
        exact (congrArg (setBit · _) h.pending).trans (setBit_ite_setBit _ _ _)
      event := by
        rw [if_neg hround, hevent]
        exact (congrArg (setBit · _) h.event).trans (setBit_ite_setBit _ _ _)
      counter := by rw [hcount, hcounter]; exact h.counter.bump
      others := fun j hj => (hothers j hj).trans (h.others j hj) }

theorem Devices.Timer1Ran.succ (h : d.Timer1Ran c n e) (hgate : testBit (d.getSr 9) c.t1GateBit = true) :
    d.Timer1Ran c (n + 1) (e.timer1Step c) := by
  have htot := h.total
  have hmod : e.t1 = (d.t1 + n) % 38 := by
    have ht1 := h.t1
    unfold Devices.timer1Total at htot
    omega
  rcases Devices.timer1Step_open (h.gate hgate) h.t1 with ⟨hlt, hstep⟩ | ⟨h37, hstep⟩
  · rw [hstep]
    refine h.succ_of_kept rfl hlt (fun _ => rfl) (fun h38 => ?_) fun _ _ => rfl
    exact h.digit_after (by omega)
  · rw [hstep]
    by_cases h9 : 9 ≤ (e.getSr 10).toNat
    · exact h.succ_of_rollover h37 h9
    · have h9' : (e.getSr 10).toNat < 9 := Nat.not_le.1 h9
      obtain ⟨hdigit, hkept⟩ := Devices.digitStep_of_lt (c := c) (d := { e with t1 := 0 }) h9'
      have ht1 : (Devices.digitStep c { e with t1 := 0 }).t1 = 0 := Devices.digitStep_t1 c _
      have hdigit' : _ = (e.getSr 10).toNat + 1 := hdigit
      refine h.succ_of_kept ?_ (by rw [ht1]; exact Nat.zero_le _) (fun h38 => by omega) (fun _ => by omega) hkept
      unfold Devices.timer1Total
      rw [ht1]
      omega

theorem Devices.timer1Ran_iterate (hgate : testBit (d.getSr 9) c.t1GateBit = true) (ht : d.t1 ≤ 37) (n : Nat) :
    d.Timer1Ran c n ((Devices.timer1Step c)^[n] d) := by
  induction n with
  | zero => exact .zero ht
  | succ n ih => rw [Function.iterate_succ_apply']; exact ih.succ hgate

/-- However many steps, Timer1 touches the special registers and its count only. -/
theorem Devices.timer1Step_iterate_only (c : Cfg) (d : Devices) (n : Nat) :
    (Devices.timer1Step c)^[n] d =
      { d with sr := ((Devices.timer1Step c)^[n] d).sr, t1 := ((Devices.timer1Step c)^[n] d).t1 } := by
  induction n with
  | zero => rfl
  | succ n ih =>
    rw [Function.iterate_succ_apply']
    generalize (Devices.timer1Step c)^[n] d = e at ih
    exact (e.timer1Step_only c).trans
      (congrArg (fun x : Devices => { x with sr := (e.timer1Step c).sr, t1 := (e.timer1Step c).t1 }) ih)

end

/-- Settles O43, by induction on the number of steps: a count below 37, a digit below 9, a rollover. -/
theorem timerOneCountsGatedTicks : Obligations.TimerOneCountsGatedTicks := by
  unfold Obligations.TimerOneCountsGatedTicks
  intro c d n
  refine ⟨Devices.timer1Step_closed, fun hgate ht => ?_⟩
  have hran := Devices.timer1Ran_iterate (c := c) hgate ht n
  obtain ⟨hcount, hrest⟩ := hran.counter
  exact ⟨hran.total, hran.t1, hran.digit_before, hran.digit_after, hran.pending, hran.event, hran.gate hgate, hcount,
    hrest, hran.others, Devices.timer1Step_iterate_only c d n⟩

/-! ### The keys -/

@[simp] theorem State.raise_regs (s : State) (m : Mark) : (s.raise m).regs = s.regs := by
  unfold State.raise; split <;> rfl
@[simp] theorem State.raise_dev (s : State) (m : Mark) : (s.raise m).dev = s.dev := by
  unfold State.raise; split <;> rfl
@[simp] theorem State.raise_bus (s : State) (m : Mark) : (s.raise m).bus = s.bus := by
  unfold State.raise; split <;> rfl
@[simp] theorem State.raise_lcd (s : State) (m : Mark) : (s.raise m).lcd = s.lcd := by
  unfold State.raise; split <;> rfl

theorem State.raise_marked {s : State} (h : s.eng.mark ≠ none) (m : Mark) : s.raise m = s := by
  unfold State.raise
  split
  · rfl
  · next hnone => exact absurd hnone h

@[simp] theorem Devices.keyDown_sw (c : Cfg) (l : BitIdx) (d : Devices) : (d.keyDown c l).sw = d.sw := rfl

theorem Devices.getSr_keyDown (c : Cfg) (l : BitIdx) (d : Devices) (j : SRIdx) :
    (d.keyDown c l).getSr j =
      if j = 0 then setBit (d.getSr 0) c.sr0KeyBit
      else if j = 8 then setBit (d.getSr 8) l
      else if j = 7 then setBit (d.getSr 7) l
      else d.getSr j := by
  unfold Devices.keyDown
  simp only [Devices.getSr_modSr, show (0 : SRIdx) ≠ 8 by decide, show (0 : SRIdx) ≠ 7 by decide,
    show (8 : SRIdx) ≠ 7 by decide, if_false]

theorem Devices.getSr_keyDown_other (c : Cfg) (l : BitIdx) (d : Devices) {j : SRIdx} (hj : j ∉ [0, 7, 8]) :
    (d.keyDown c l).getSr j = d.getSr j := by
  have hne : j ≠ 0 ∧ j ≠ 7 ∧ j ≠ 8 := by simpa using hj
  obtain ⟨h0, h7, h8⟩ := hne
  rw [Devices.getSr_keyDown, if_neg h0, if_neg h8, if_neg h7]

/-- What a press on line 1 does beside its key bits: the stopwatch starts, stops or starts again, the gate with it,
unless it is disabled (R372). -/
def Devices.pressLineOne (c : Cfg) (d : Devices) : Devices :=
  match d.sw with
  | .disabled => d
  | .enabled | .stopped => { d.modSr 9 (setBit · c.t1GateBit) with sw := .running }
  | .running => { d.modSr 9 (clearBit · c.t1GateBit) with sw := .stopped }

/-- What a press on line 0 does beside its key bits: a stopped stopwatch is cleared (R372). -/
def Devices.pressLineZero (d : Devices) : Devices :=
  match d.sw with
  | .stopped => { d.setSr 10 0 with t1 := 0 }
  | .disabled | .enabled | .running => d

section
variable (c : Cfg) (d : Devices)

theorem Devices.getSr_pressLineOne_other {j : SRIdx} (hj : j ≠ 9) : (d.pressLineOne c).getSr j = d.getSr j := by
  have hmod : ∀ f, (d.modSr 9 f).getSr j = d.getSr j := fun f => (d.getSr_modSr 9 f j).trans (if_neg hj)
  unfold Devices.pressLineOne
  split
  · rfl
  · exact hmod (setBit · c.t1GateBit)
  · exact hmod (setBit · c.t1GateBit)
  · exact hmod (clearBit · c.t1GateBit)

theorem Devices.pressLineOne_frame :
    d.pressLineOne c = { d with sr := (d.pressLineOne c).sr, sw := (d.pressLineOne c).sw } := by
  unfold Devices.pressLineOne; split <;> rfl

theorem Devices.getSr_pressLineZero_other {j : SRIdx} (hj : j ≠ 10) : d.pressLineZero.getSr j = d.getSr j := by
  unfold Devices.pressLineZero
  split
  · exact (d.getSr_setSr 10 0 j).trans (if_neg hj)
  · rfl
  · rfl
  · rfl

theorem Devices.pressLineZero_frame :
    d.pressLineZero = { d with sr := d.pressLineZero.sr, t1 := d.pressLineZero.t1 } := by
  unfold Devices.pressLineZero; split <;> rfl

variable {d}

theorem Devices.pressLineOne_of_disabled (h : d.sw = .disabled) : d.pressLineOne c = d := by
  unfold Devices.pressLineOne; rw [h]

theorem Devices.pressLineOne_of_running (h : d.sw = .running) :
    d.pressLineOne c = { d.modSr 9 (clearBit · c.t1GateBit) with sw := .stopped } := by
  unfold Devices.pressLineOne; rw [h]

theorem Devices.pressLineOne_of_enabled_or_stopped (h : d.sw = .enabled ∨ d.sw = .stopped) :
    d.pressLineOne c = { d.modSr 9 (setBit · c.t1GateBit) with sw := .running } := by
  unfold Devices.pressLineOne
  rcases h with h | h
  · rw [h]
  · rw [h]

theorem Devices.pressLineZero_of_stopped (h : d.sw = .stopped) :
    d.pressLineZero = { d.setSr 10 0 with t1 := 0 } := by
  unfold Devices.pressLineZero; rw [h]

theorem Devices.pressLineZero_of_ne_stopped (h : d.sw ≠ .stopped) : d.pressLineZero = d := by
  unfold Devices.pressLineZero
  split
  · next hs => exact absurd hs h
  · rfl
  · rfl
  · rfl

variable (d)

theorem Devices.swPress_one : d.swPress c 1 = some (d.pressLineOne c) := by
  unfold Devices.swPress Devices.pressLineOne
  cases d.sw with
  | disabled | enabled | running | stopped => rfl

/-- A lap is the one press on line 0 that `swPress` does not answer. -/
theorem Devices.swPress_zero : d.swPress c 0 = if d.sw = .running then none else some d.pressLineZero := by
  unfold Devices.swPress Devices.pressLineZero
  cases d.sw with
  | disabled | enabled | running | stopped => rfl

end

section
variable (c : Cfg) (s : State)

/-- A press that reaches no transition of the stopwatch writes its key bits alone (R370). -/
theorem State.press_keysOnly {l : Nat} (h : l < 4) (hidle : s.dev.sw = .disabled ∨ 2 ≤ l) :
    s.press c l = s.mapDev (Devices.keyDown c ⟨l, h⟩) := by
  unfold State.press
  rw [dif_pos h]
  refine if_neg fun hactive => ?_
  obtain ⟨hsw, hl⟩ := hactive
  exact hidle.elim hsw (Nat.not_le.2 hl)

section
variable {c s} {l : Nat} (h : l < 4) (hactive : s.dev.sw ≠ .disabled ∧ l < 2)
include hactive

/-- A press that reaches a transition of the stopwatch which is not a lap (R372). -/
theorem State.press_of_swPress_eq_some {d : Devices} (hd : (s.dev.keyDown c ⟨l, h⟩).swPress c l = some d) :
    s.press c l = { s with dev := d } := by
  unfold State.press
  rw [dif_pos h]
  refine (if_pos hactive).trans ?_
  rw [State.mapDev_dev, hd]
  rfl

/-- A lap (R372, log 11). -/
theorem State.press_of_swPress_eq_none (hd : (s.dev.keyDown c ⟨l, h⟩).swPress c l = none) :
    s.press c l = (s.mapDev (Devices.keyDown c ⟨l, h⟩)).raise (.refused (.unmodelled .lap)) := by
  unfold State.press
  rw [dif_pos h]
  refine (if_pos hactive).trans ?_
  rw [State.mapDev_dev, hd]

end

/-- A press on line 1 in every mode. -/
theorem State.press_one : s.press c 1 = { s with dev := (s.dev.keyDown c 1).pressLineOne c } := by
  by_cases hsw : s.dev.sw = .disabled
  · have hidle : (s.dev.keyDown c 1).pressLineOne c = s.dev.keyDown c 1 := Devices.pressLineOne_of_disabled c hsw
    rw [hidle]
    exact State.press_keysOnly c s (by decide) (.inl hsw)
  · exact State.press_of_swPress_eq_some (by decide) ⟨hsw, by decide⟩ (Devices.swPress_one c _)

/-- The state after a press on line 0, but for the refusal of a lap. -/
def State.afterLineZero : State := { s with dev := (s.dev.keyDown c 0).pressLineZero }

/-- A press on line 0 in every mode: while running it is a lap, refused with the key bits written (R372, log 11). -/
theorem State.press_zero :
    s.press c 0 =
      if s.dev.sw = .running then (s.afterLineZero c).raise (.refused (.unmodelled .lap)) else s.afterLineZero c := by
  have hpress := (s.dev.keyDown c 0).swPress_zero c
  rw [Devices.keyDown_sw] at hpress
  have hidle : s.dev.sw ≠ .stopped → (s.dev.keyDown c 0).pressLineZero = s.dev.keyDown c 0 :=
    Devices.pressLineZero_of_ne_stopped (d := s.dev.keyDown c 0)
  by_cases hrun : s.dev.sw = .running
  · rw [if_pos hrun] at hpress ⊢
    rw [State.afterLineZero, hidle (by rw [hrun]; exact nofun)]
    exact State.press_of_swPress_eq_none (by decide) ⟨by rw [hrun]; exact nofun, by decide⟩ hpress
  · rw [if_neg hrun] at hpress ⊢
    by_cases hsw : s.dev.sw = .disabled
    · rw [State.afterLineZero, hidle (by rw [hsw]; exact nofun)]
      exact State.press_keysOnly c s (by decide) (.inl hsw)
    · exact State.press_of_swPress_eq_some (by decide) ⟨hsw, by decide⟩ hpress

theorem State.press_one_dev : (s.press c 1).dev = (s.dev.keyDown c 1).pressLineOne c := by rw [State.press_one]

theorem State.press_zero_dev : (s.press c 0).dev = (s.dev.keyDown c 0).pressLineZero := by
  rw [State.press_zero]
  split
  · exact (s.afterLineZero c).raise_dev _
  · rfl

/-- What a press on any of the four lines keeps and writes, whatever the stopwatch does (R370). -/
theorem State.press_keys {l : Nat} (h : l < 4) :
    (∀ j, j ≠ 9 → j ≠ 10 → (s.press c l).dev.getSr j = (s.dev.keyDown c ⟨l, h⟩).getSr j) ∧
      (s.press c l).regs = s.regs ∧ (s.press c l).bus = s.bus ∧ (s.press c l).lcd = s.lcd := by
  have hzero : ∀ j, j ≠ 10 → (s.afterLineZero c).dev.getSr j = (s.dev.keyDown c 0).getSr j := fun j h10 =>
    Devices.getSr_pressLineZero_other _ h10
  by_cases hidle : 2 ≤ l
  · rw [State.press_keysOnly c s h (.inr hidle)]
    exact ⟨fun _ _ _ => rfl, rfl, rfl, rfl⟩
  · obtain rfl | rfl : l = 0 ∨ l = 1 := by omega
    · rw [State.press_zero]
      split
      · rw [State.raise_regs, State.raise_dev, State.raise_bus, State.raise_lcd]
        exact ⟨fun j _ h10 => hzero j h10, rfl, rfl, rfl⟩
      · exact ⟨fun j _ h10 => hzero j h10, rfl, rfl, rfl⟩
    · rw [State.press_one]
      exact ⟨fun j h9 _ => Devices.getSr_pressLineOne_other c _ h9, rfl, rfl, rfl⟩

/-- The three key bits of a press (R370). -/
theorem State.press_keyBits {l : Nat} (h : l < 4) :
    (s.press c l).dev.getSr 7 = setBit (s.dev.getSr 7) ⟨l, h⟩ ∧
      (s.press c l).dev.getSr 8 = setBit (s.dev.getSr 8) ⟨l, h⟩ ∧
      (s.press c l).dev.getSr 0 = setBit (s.dev.getSr 0) c.sr0KeyBit := by
  obtain ⟨hsr, -⟩ := State.press_keys c s h
  have hkeys : ∀ j, j ≠ 9 → j ≠ 10 → (s.press c l).dev.getSr j = _ := fun j h9 h10 =>
    (hsr j h9 h10).trans (s.dev.getSr_keyDown c ⟨l, h⟩ j)
  exact ⟨hkeys 7 (by decide) (by decide), hkeys 8 (by decide) (by decide), hkeys 0 (by decide) (by decide)⟩

end

/-- Settles O46, by what a press of any line keeps and writes; a line beyond 3 is the refusal alone. -/
theorem keysSetAndClearLineBits : Obligations.KeysSetAndClearLineBits := by
  unfold Obligations.KeysSetAndClearLineBits
  intro c s l
  refine ⟨fun h => ?_, fun h => dif_pos h, fun h hmark => ?_⟩
  · obtain ⟨-, hregs, hbus, hlcd⟩ := State.press_keys c s h
    obtain ⟨h7, h8, h0⟩ := State.press_keyBits c s h
    refine ⟨h7, h8, h0, hregs, hbus, hlcd, fun hidle => ?_⟩
    rw [State.press_keysOnly c s h hidle]
    exact ⟨rfl, rfl, rfl, fun _ => s.dev.getSr_keyDown_other c ⟨l, h⟩⟩
  · have hrefused : s.raise (.refused (.keyLine l)) = s.withMark (.refused (.keyLine l)) :=
      State.raise_unmarked hmark _
    exact ⟨(dif_neg (Nat.not_lt.2 h)).trans hrefused, (dif_neg (Nat.not_lt.2 h)).trans hrefused⟩

section
variable (c : Cfg) (s : State)

/-- Line 1 moves the mode and the Timer1 gate as the table says (R372). -/
theorem State.press_one_table :
    (s.dev.sw = .enabled ∨ s.dev.sw = .stopped → (s.press c 1).dev.sw = .running ∧
      (s.press c 1).dev.getSr 9 = setBit (s.dev.getSr 9) c.t1GateBit) ∧
    (s.dev.sw = .running → (s.press c 1).dev.sw = .stopped ∧
      (s.press c 1).dev.getSr 9 = clearBit (s.dev.getSr 9) c.t1GateBit) ∧
    (s.dev.sw = .disabled → (s.press c 1).dev.sw = .disabled ∧ (s.press c 1).dev.getSr 9 = s.dev.getSr 9) := by
  have hkeys : (s.dev.keyDown c 1).getSr 9 = s.dev.getSr 9 := s.dev.getSr_keyDown_other c 1 (by decide)
  rw [State.press_one_dev, ← hkeys, ← s.dev.keyDown_sw c 1]
  refine ⟨fun h => ?_, fun h => ?_, fun h => ?_⟩
  · rw [Devices.pressLineOne_of_enabled_or_stopped c h]
    exact ⟨rfl, Devices.getSr_modSr_self _ 9 (setBit · c.t1GateBit)⟩
  · rw [Devices.pressLineOne_of_running c h]
    exact ⟨rfl, Devices.getSr_modSr_self _ 9 (clearBit · c.t1GateBit)⟩
  · rw [Devices.pressLineOne_of_disabled c h]
    exact ⟨h, rfl⟩

theorem State.press_one_frame :
    OtherSrKept [0, 7, 8, 9] s (s.press c 1) ∧
      (s.press c 1).dev = { s.dev with sr := (s.press c 1).dev.sr, sw := (s.press c 1).dev.sw } ∧
      (s.press c 1).eng = s.eng := by
  rw [State.press_one]
  refine ⟨fun j hj => ?_, (s.dev.keyDown c 1).pressLineOne_frame c, rfl⟩
  have hne : j ∉ [0, 7, 8] ∧ j ≠ 9 := by simpa [and_assoc] using hj
  obtain ⟨hkeys, h9⟩ := hne
  exact (Devices.getSr_pressLineOne_other c _ h9).trans (s.dev.getSr_keyDown_other c 1 hkeys)

/-- Line 0 clears the counter while the stopwatch is stopped, and only then (R372). -/
theorem State.press_zero_table :
    (s.dev.sw = .stopped → (s.press c 0).dev.t1 = 0 ∧ (s.press c 0).dev.getSr 10 = 0) ∧
    (s.dev.sw ≠ .stopped → (s.press c 0).dev.t1 = s.dev.t1 ∧ (s.press c 0).dev.getSr 10 = s.dev.getSr 10) := by
  rw [State.press_zero_dev, ← s.dev.keyDown_sw c 0]
  refine ⟨fun h => ?_, fun h => ?_⟩
  · rw [Devices.pressLineZero_of_stopped h]
    exact ⟨rfl, Devices.getSr_setSr_self _ 10 0⟩
  · rw [Devices.pressLineZero_of_ne_stopped h]
    exact ⟨rfl, s.dev.getSr_keyDown_other c 0 (by decide)⟩

/-- A lap is refused, unless an earlier mark stands; no other press on line 0 touches the engine (R372, log 11). -/
theorem State.press_zero_eng :
    (s.dev.sw = .running → s.eng.mark = none →
      (s.press c 0).eng = { s.eng with mark := some (.refused (.unmodelled .lap)) }) ∧
    (s.dev.sw ≠ .running ∨ s.eng.mark ≠ none → (s.press c 0).eng = s.eng) := by
  rw [State.press_zero]
  refine ⟨fun hrun hmark => ?_, fun h => ?_⟩
  · have hmark' : (s.afterLineZero c).eng.mark = none := hmark
    rw [if_pos hrun, State.raise_unmarked hmark']
    rfl
  · by_cases hrun : s.dev.sw = .running
    · have hmark : (s.afterLineZero c).eng.mark ≠ none := h.resolve_left (not_not_intro hrun)
      rw [if_pos hrun, State.raise_marked hmark]
      rfl
    · rw [if_neg hrun]
      rfl

theorem State.press_zero_frame :
    OtherSrKept [0, 7, 8, 10] s (s.press c 0) ∧
      (s.press c 0).dev = { s.dev with sr := (s.press c 0).dev.sr, t1 := (s.press c 0).dev.t1 } := by
  unfold OtherSrKept
  rw [State.press_zero_dev]
  refine ⟨fun j hj => ?_, (s.dev.keyDown c 0).pressLineZero_frame⟩
  have hne : j ∉ [0, 7, 8] ∧ j ≠ 10 := by simpa [and_assoc] using hj
  obtain ⟨hkeys, h10⟩ := hne
  exact (Devices.getSr_pressLineZero_other _ h10).trans (s.dev.getSr_keyDown_other c 0 hkeys)

end

/-- Settles O47, by the press on line 1 and the press on line 0: the table, the frame and the engine of each. -/
theorem stopwatchFollowsItsTable : Obligations.StopwatchFollowsItsTable := by
  unfold Obligations.StopwatchFollowsItsTable
  intro c s p1 p0 gate
  obtain ⟨hstart, hstop, hdisabled⟩ := State.press_one_table c s
  obtain ⟨hclear, hkept⟩ := State.press_zero_table c s
  obtain ⟨hlap, heng⟩ := State.press_zero_eng c s
  exact ⟨hstart, hstop, hdisabled, State.press_one_frame c s, hclear, hkept, hlap, heng,
    State.press_keyBits c s (by decide), State.press_keyBits c s (by decide), State.press_zero_frame c s⟩

end Sys2Proof.Machine
end

section
/-! PROOFS. The tick of a busy engine, debugger patches and whole runs (spec/70_reset_and_hazards.md): the order of a
tick's steps (R403, R404), the raw stores of a patch (R412), and the ranges of R29, R35, R36, R38, R40, R70 and R78
along any ticks and host events (R402, R412, R416). -/

namespace Sys2Proof.Machine

/-! ### The raw stores of a debugger patch -/

section
variable (s : State) (v : Nat)

theorem State.patchStore_sr {i : Nat} (h : i < 16) :
    s.patchStore (.sr i) v = s.mapDev fun d => d.setSr ⟨i, h⟩ (BitVec.ofNat 4 v) := dif_pos h

theorem State.patchStore_gr {b i : Nat} (hb : b < 4) (hi : i < 32) :
    s.patchStore (.gr b i) v = s.mapRegs fun r => r.rawWrite ⟨b, hb⟩ ⟨i, hi⟩ (BitVec.ofNat 4 v) := dif_pos ⟨hb, hi⟩

theorem State.patchStore_ddram {a : Nat} (h : a < 64) :
    s.patchStore (.ddram a) v = s.setLcd { s.lcd with ddram := s.lcd.ddram.set a (BitVec.ofNat 4 v) } := dif_pos h

theorem State.patchStore_daram {a : Nat} (h : a < 64) :
    s.patchStore (.daram a) v = s.setLcd { s.lcd with daram := s.lcd.daram.set a (v % 2 == 1) } := dif_pos h

theorem State.patchStore_dctrl {a : Nat} (h : a < 16) :
    s.patchStore (.dctrl a) v = s.setLcd { s.lcd with dctrl := s.lcd.dctrl.set a (BitVec.ofNat 4 v) } := dif_pos h

theorem State.patchStore_sr_beyond {i : Nat} (h : 16 ≤ i) : s.patchStore (.sr i) v = s := dif_neg (Nat.not_lt.2 h)

theorem State.patchStore_gr_beyond {b i : Nat} (h : 4 ≤ b ∨ 32 ≤ i) : s.patchStore (.gr b i) v = s :=
  dif_neg fun hlt => h.elim (Nat.not_le.2 hlt.1) (Nat.not_le.2 hlt.2)

theorem State.patchStore_ddram_beyond {a : Nat} (h : 64 ≤ a) : s.patchStore (.ddram a) v = s :=
  dif_neg (Nat.not_lt.2 h)

theorem State.patchStore_daram_beyond {a : Nat} (h : 64 ≤ a) : s.patchStore (.daram a) v = s :=
  dif_neg (Nat.not_lt.2 h)

theorem State.patchStore_dctrl_beyond {a : Nat} (h : 16 ≤ a) : s.patchStore (.dctrl a) v = s :=
  dif_neg (Nat.not_lt.2 h)

theorem State.patchStore_memory_beyond {addr : Nat} (h : 3072 ≤ addr) : s.patchStore (.memory addr) v = s :=
  if_neg (Nat.not_lt.2 h)

end

/-- A store in one cell reads back, and the other cells read as before. -/
theorem cell_stored {α : Type} {n : Nat} (w : Vector α n) (a : Fin n) (x : α) :
    (w.set a x)[a] = x ∧ ∀ j : Fin n, j ≠ a → (w.set a x)[j] = w[j] :=
  ⟨Vector.getElem_set_self a.isLt, fun j hj => Vector.getElem_set_ne a.isLt j.isLt fun h => hj (Fin.ext h.symm)⟩

section
variable (s : State) (v : Nat)

theorem State.patchStore_gr_stored (b : Bank) (i : Reg) :
    ((s.patchStore (.gr b i) v).regs.reg b i).toNat = v % 16 ∧ OtherRegsKept b i s (s.patchStore (.gr b i) v) ∧
      (s.patchStore (.gr b i) v).regs = { s.regs with gr := (s.patchStore (.gr b i) v).regs.gr } ∧
      OnlyRegs s (s.patchStore (.gr b i) v) := by
  have hread := s.regs.reg_rawWrite b i (BitVec.ofNat 4 v)
  rw [State.patchStore_gr s v b.isLt i.isLt]
  refine ⟨?_, fun b' i' hne => (hread b' i').trans (if_neg hne), rfl, s.mapRegs_onlyRegs _⟩
  rw [State.mapRegs_regs, hread, if_pos ⟨rfl, rfl⟩]
  exact BitVec.toNat_ofNat v 4

theorem State.patchStore_sr_stored (k : SRIdx) :
    ((s.patchStore (.sr k) v).dev.getSr k).toNat = v % 16 ∧ OtherSrKept [k] s (s.patchStore (.sr k) v) ∧
      HiddenKept s (s.patchStore (.sr k) v) ∧
      s.patchStore (.sr k) v = { s with dev := (s.patchStore (.sr k) v).dev } := by
  rw [State.patchStore_sr s v k.isLt]
  refine ⟨?_, .of_setSr rfl, .of_setSr rfl, rfl⟩
  rw [State.mapDev_dev, Devices.getSr_setSr_self]
  exact BitVec.toNat_ofNat v 4

end

theorem OnlyRegs.of_eq {s t : State} (h : t = { s with regs := t.regs }) : OnlyRegs s t := by
  rw [h]; exact s.mapRegs_onlyRegs fun _ => t.regs

/-- Settles O57, key by key: each in range is one update of its own element, and each out of range is none. -/
theorem debugPatchStoresRaw : Obligations.DebugPatchStoresRaw := by
  unfold Obligations.DebugPatchStoresRaw
  intro s v
  have hpc := BitVec.toNat_ofNat v 12
  have hla := BitVec.toNat_ofNat v 8
  have hsa := BitVec.toNat_ofNat v 11
  have hflag : (v % 2 == 1) = true ↔ v % 2 = 1 := beq_iff_eq
  refine ⟨⟨hpc, ⟨rfl, rfl⟩, ⟨rfl, rfl⟩, ⟨rfl, rfl, rfl⟩, .of_eq rfl⟩,
    ⟨rfl, rfl, .of_eq rfl⟩, ⟨rfl, rfl, .of_eq rfl⟩,
    ⟨hflag, rfl, .of_eq rfl⟩, ⟨hflag, rfl, .of_eq rfl⟩,
    ⟨hla, rfl⟩, ⟨hsa, rfl, fun a => ⟨rfl, rfl⟩⟩,
    s.patchStore_gr_stored v, s.patchStore_sr_stored v,
    fun a => ?ddram, fun a => ?daram, fun a => ?dctrl,
    fun k hk => ⟨s.patchStore_sr_beyond v hk, s.patchStore_dctrl_beyond v hk⟩,
    fun a ha => ⟨s.patchStore_ddram_beyond v ha, s.patchStore_daram_beyond v ha⟩,
    fun b i h => s.patchStore_gr_beyond v h, rfl⟩
  case ddram =>
    obtain ⟨hcell, hothers⟩ := cell_stored s.lcd.ddram a (BitVec.ofNat 4 v)
    rw [State.patchStore_ddram s v a.isLt]
    exact ⟨(congrArg BitVec.toNat hcell).trans (BitVec.toNat_ofNat v 4), hothers, rfl⟩
  case daram =>
    obtain ⟨hcell, hothers⟩ := cell_stored s.lcd.daram a (v % 2 == 1)
    rw [State.patchStore_daram s v a.isLt]
    exact ⟨(Bool.eq_iff_iff.1 hcell).trans hflag, hothers, rfl⟩
  case dctrl =>
    obtain ⟨hcell, hothers⟩ := cell_stored s.lcd.dctrl a (BitVec.ofNat 4 v)
    rw [State.patchStore_dctrl s v a.isLt]
    exact ⟨(congrArg BitVec.toNat hcell).trans (BitVec.toNat_ofNat v 4), hothers, rfl⟩

/-! ### Changes of one part of a state in the ranges -/

/-- The part of the ranges that speaks of the memory bus: both regions and both dirty sets are canonical (R70, R78). -/
structure MemoryBus.Canonical (m : MemoryBus) : Prop where
  imem : m.imem.wf imemSize = true
  xmem : m.xmem.wf xmemSize = true
  dirtyI : WordSet.wf (imemSize / 2) m.dirtyI = true
  dirtyX : WordSet.wf (xmemSize / 2) m.dirtyX = true

section
variable {s : State}

theorem State.Inv.bus_canonical (h : s.Inv) : s.bus.Canonical := ⟨h.imem_wf, h.xmem_wf, h.dirtyI_wf, h.dirtyX_wf⟩

theorem State.Inv.withBus (h : s.Inv) {m : MemoryBus} (hm : m.Canonical) : { s with bus := m }.Inv :=
  { h with imem_wf := hm.imem, xmem_wf := hm.xmem, dirtyI_wf := hm.dirtyI, dirtyX_wf := hm.dirtyX }

theorem State.Inv.withDev (h : s.Inv) {d : Devices} (hdiv : d.ispDiv = s.dev.ispDiv)
    (ht1 : d.t1 = s.dev.t1 ∨ d.t1 = 0) : { s with dev := d }.Inv :=
  { h with
    ispDiv_range := hdiv.trans_le h.ispDiv_range
    t1_range := ht1.elim (fun hkept => hkept.trans_le h.t1_range) fun hzero => hzero.trans_le (Nat.zero_le 37) }

theorem State.Inv.mapRegs (h : s.Inv) {f : RegFile → RegFile} (hstk : (f s.regs).stk = s.regs.stk) :
    (s.mapRegs f).Inv :=
  { h with stk_length := (congrArg List.length hstk).trans_le h.stk_length }

theorem State.Inv.setLcd (h : s.Inv) {l : Lcd} (hl : s.lcd.WriteKept l) : (s.setLcd l).Inv :=
  { h with cursor_range := hl.cursor h.cursor_range, contrast_range := hl.contrast h.contrast_range }

theorem State.Inv.withMark (h : s.Inv) (m : Mark) : (s.withMark m).Inv := { h with }

theorem State.Inv.raise (h : s.Inv) (m : Mark) : (s.raise m).Inv := by
  by_cases hmark : s.eng.mark = none
  · rw [State.raise_unmarked hmark]; exact h.withMark m
  · rw [State.raise_marked hmark]; exact h

end

/-! ### The memory bus stays canonical -/

section
variable {m : MemoryBus}

theorem MemoryBus.Canonical.writeRaw (h : m.Canonical) (addr value : Nat) : (m.writeRaw addr value).Canonical := by
  unfold MemoryBus.writeRaw
  split
  · next haddr =>
    exact { h with
      imem := Memory.write_wf imemSize _ addr _ h.imem haddr
      dirtyI := WordSet.insert_wf _ _ _ h.dirtyI (by unfold imemSize at haddr ⊢; omega) }
  · exact h

theorem MemoryBus.Canonical.writeRawWord (h : m.Canonical) (addr value : Nat) :
    (m.writeRawWord addr value).Canonical :=
  (h.writeRaw _ _).writeRaw _ _

/-- SA has as many values as the external region has bytes (R79), so a received byte lands in the region. -/
theorem MemoryBus.Canonical.extWriteByte (h : m.Canonical) (b : Byte) : (m.extWriteByte b).Canonical :=
  have hsa : m.sa.toNat < xmemSize := m.sa.isLt
  { h with
    xmem := Memory.write_wf xmemSize _ _ b h.xmem hsa
    dirtyX := WordSet.insert_wf _ _ _ h.dirtyX (by unfold xmemSize at hsa ⊢; omega) }

theorem MemoryBus.Canonical.setSA (h : m.Canonical) (v : Nat) : (m.setSA v).Canonical := { h with }

theorem MemoryBus.Canonical.load (h : m.Canonical) (image : Option (List Byte)) (r : Region) :
    (m.load image r).Canonical := by
  cases r with
  | internal =>
    obtain ⟨himem, hdirtyI, hxmem, hdirtyX, -⟩ := MemoryBus.load_internal image m
    exact
      { imem := by rw [himem]; exact Memory.ofBytes_wf _ imemSize
        xmem := by rw [hxmem]; exact h.xmem
        dirtyI := by rw [hdirtyI]; exact WordSet.range_wf _
        dirtyX := by rw [hdirtyX]; exact h.dirtyX }
  | external =>
    obtain ⟨hxmem, hdirtyX, himem, hdirtyI, -⟩ := MemoryBus.load_external image m
    exact
      { imem := by rw [himem]; exact h.imem
        xmem := by rw [hxmem]; exact Memory.ofBytes_wf _ xmemSize
        dirtyI := by rw [hdirtyI]; exact h.dirtyI
        dirtyX := by rw [hdirtyX]; exact WordSet.range_wf _ }

theorem MemoryBus.Canonical.drain (h : m.Canonical) (r : Region) : (m.drain r).2.Canonical := by
  cases r with
  | internal => exact { h with dirtyI := rfl }
  | external => exact { h with dirtyX := rfl }

end

/-! ### Host events keep the ranges -/

section
variable {s : State}

theorem Devices.pressLineZero_t1 (d : Devices) : d.pressLineZero.t1 = d.t1 ∨ d.pressLineZero.t1 = 0 := by
  by_cases h : d.sw = .stopped
  · rw [Devices.pressLineZero_of_stopped h]; exact .inr rfl
  · rw [Devices.pressLineZero_of_ne_stopped h]; exact .inl rfl

/-- Of the elements with a range a press can change the Timer1 count alone, and that to 0 (R370, R372). -/
theorem State.Inv.press (h : s.Inv) (c : Cfg) (l : Nat) : (s.press c l).Inv := by
  by_cases hl : l < 4
  · by_cases hidle : 2 ≤ l
    · rw [State.press_keysOnly c s hl (.inr hidle)]
      exact h.withDev rfl (.inl rfl)
    · obtain rfl | rfl : l = 0 ∨ l = 1 := by omega
      · have hzero : (s.afterLineZero c).Inv :=
          h.withDev (by rw [Devices.pressLineZero_frame]; rfl) (Devices.pressLineZero_t1 (s.dev.keyDown c 0))
        rw [State.press_zero]
        split
        · exact hzero.raise _
        · exact hzero
      · rw [State.press_one]
        exact h.withDev (by rw [Devices.pressLineOne_frame]; rfl) (.inl (by rw [Devices.pressLineOne_frame]; rfl))
  · rw [State.press, dif_neg hl]
    exact h.raise _

theorem State.Inv.release (h : s.Inv) (l : Nat) : (s.release l).Inv := by
  unfold State.release
  split
  · exact h.withDev rfl (.inl rfl)
  · exact h.raise _

theorem State.Inv.receive (h : s.Inv) (c : Cfg) (b : Byte) : (s.receive c b).Inv := by
  by_cases hrx : s.dev.ispRxen = true
  · by_cases hdma : s.dev.ispMode = true ∧ s.dev.ispTxpend = false
    · have hdev : { s with dev := (s.dev.setShift b).endReceive c (s.bus.sa + 1) }.Inv := by
        rw [Devices.endReceive_frame]
        exact h.withDev rfl (.inl rfl)
      rw [State.receive_store c b hrx hdma]
      exact hdev.withBus (h.bus_canonical.extWriteByte b)
    · rw [State.receive_immediate c b hrx hdma]
      exact h.withDev rfl (.inl rfl)
  · rw [State.receive_off c b (Bool.eq_false_of_not_eq_true hrx)]
    exact h

/-- No key of a patch names the call stack, a hidden counter, the cursor or the contrast (R412). -/
theorem State.Inv.patchStore (h : s.Inv) (k : PatchKey) (v : Nat) : (s.patchStore k v).Inv := by
  cases k with
  | pc | cb | ab | cf | zf => exact { h with }
  | la => exact h.setLcd ⟨id, id, rfl, rfl⟩
  | sa => exact h.withBus (h.bus_canonical.setSA v)
  | sr i =>
    obtain hi | hi := Nat.lt_or_ge i 16
    · rw [State.patchStore_sr s v hi]; exact h.withDev rfl (.inl rfl)
    · rw [State.patchStore_sr_beyond s v hi]; exact h
  | gr b i =>
    by_cases hbi : b < 4 ∧ i < 32
    · rw [State.patchStore_gr s v hbi.1 hbi.2]; exact h.mapRegs rfl
    · rw [State.patchStore_gr_beyond s v (by omega)]; exact h
  | ddram a =>
    obtain ha | ha := Nat.lt_or_ge a 64
    · rw [State.patchStore_ddram s v ha]; exact h.setLcd ⟨id, id, rfl, rfl⟩
    · rw [State.patchStore_ddram_beyond s v ha]; exact h
  | daram a =>
    obtain ha | ha := Nat.lt_or_ge a 64
    · rw [State.patchStore_daram s v ha]; exact h.setLcd ⟨id, id, rfl, rfl⟩
    · rw [State.patchStore_daram_beyond s v ha]; exact h
  | dctrl a =>
    obtain ha | ha := Nat.lt_or_ge a 16
    · rw [State.patchStore_dctrl s v ha]; exact h.setLcd ⟨id, id, rfl, rfl⟩
    · rw [State.patchStore_dctrl_beyond s v ha]; exact h
  | memory addr =>
    obtain haddr | haddr := Nat.lt_or_ge addr 3072
    · rw [State.patchStore_memory s v haddr]; exact h.withBus (h.bus_canonical.writeRawWord addr v)
    · rw [State.patchStore_memory_beyond s v haddr]; exact h
  | unknown => exact h

theorem State.Inv.debugPatch (h : s.Inv) (p : Patch) : (s.debugPatch p).Inv := by
  induction p generalizing s with
  | nil => exact h
  | cons e t ih =>
    obtain ⟨k, _ | v⟩ := e
    · exact ih h
    · exact ih (h.patchStore k v)

theorem State.Inv.deviceReset (h : s.Inv) : s.deviceReset.Inv :=
  have hreset : State.reset.Inv := resetStateIsInRange
  hreset.withBus h.bus_canonical

theorem State.Inv.hostEvent (h : s.Inv) (c : Cfg) (e : HostEvent) : (hostEvent c e s).Inv := by
  cases e with
  | press l => exact h.press c l
  | release l => exact h.release l
  | rx b => exact h.receive c b
  | load image r => exact h.withBus (h.bus_canonical.load image r)
  | reset => exact h.deviceReset
  | debugPatch p => exact h.debugPatch p
  | writeRaw addr value => exact h.withBus (h.bus_canonical.writeRaw addr value)
  | writeRawWord addr value => exact h.withBus (h.bus_canonical.writeRawWord addr value)
  | drain r => exact h.withBus (h.bus_canonical.drain r)

end

/-! ### Ticks keep the ranges -/

theorem outcome_next_or_mark (o : Host.Outcome State Fault Refusal) :
    (∃ t, o = .next t) ∨ ∃ m : Mark, o = m.outcome := by
  cases o with
  | next t => exact .inl ⟨t, rfl⟩
  | fault r => exact .inr ⟨.fault r, rfl⟩
  | refused r => exact .inr ⟨.refused r, rfl⟩

/-- The write a stopped `dw2` has done is a display write like any other (R205, log 21). -/
theorem stateAtRefusal_lcd_kept (c : Cfg) (i : Instr) (s : State) : s.lcd.WriteKept (stateAtRefusal c i s).lcd := by
  by_cases h : ∃ l, FirstWriteDone c i s l
  · obtain ⟨l, hl⟩ := h
    rw [stateAtRefusal_of_firstWriteDone hl]
    obtain ⟨y1, y2, -, -, hfirst⟩ := hl
    exact (Lcd.dispWrite_kept c _ _ l hfirst).1
  · rw [stateAtRefusal_of_not_firstWriteDone h]
    exact .refl _

theorem lcdAtStop_kept (fetch : State → FetchResult) (s : State) : s.lcd.WriteKept (lcdAtStop fetch s) := by
  unfold lcdAtStop
  split
  · next i _ => exact stateAtRefusal_lcd_kept chipCfg i s
  · exact .refl _

/-- A tick that stops keeps the ranges too: the device steps do, and so does what is written before the stop. -/
theorem State.Inv.tick {s : State} (h : s.Inv) : (tick s).Inv := by
  cases hmark : s.eng.mark with
  | some m =>
    have hkept : Machine.tick s = s := tickWith_marked fetchDecode hmark
    rw [hkept]; exact h
  | none =>
    obtain ⟨t, ht⟩ | ⟨m, hm⟩ := outcome_next_or_mark (step s)
    · have hnext : Machine.tick s = t := tickWith_of_next ht
      rw [hnext]; exact stepKeepsRanges s t h ht
    · have hstop : Machine.tick s = _ := tickWith_of_stop hmark hm
      rw [hstop]; exact ((h.deviceSteps chipCfg).setLcd (lcdAtStop_kept fetchDecode _)).withMark m

/-! ### Runs -/

/-- What every tick and every host event keeps holds along every run (R416). -/
theorem runEvents_induction {p : State → Prop} (htick : ∀ s, p s → p (tick s))
    (hhost : ∀ e s, p s → p (hostEvent chipCfg e s)) (es : List RunEvent) {s : State} (hs : p s) :
    p (runEvents es s) := by
  induction es generalizing s with
  | nil => exact hs
  | cons e es ih =>
    cases e with
    | tick => exact ih (htick s hs)
    | host e => exact ih (hhost e s hs)

/-- Settles O54, by induction on the run: every tick and every host event keeps the ranges. -/
theorem runsKeepRanges : Obligations.RunsKeepRanges := by
  unfold Obligations.RunsKeepRanges
  intro es s hs
  exact runEvents_induction (fun _ h => h.tick) (fun e _ h => h.hostEvent chipCfg e) es hs

/-! ### The tick of a busy engine -/

/-- While the engine is busy nothing is fetched: the device steps, the count-down and the end of the tick are all
there is (R403, R404). -/
theorem tickOutcome_of_busy (fetch : State → FetchResult) {s : State} (hmark : s.eng.mark = none)
    (hbusy : 0 < s.eng.busy) :
    tickOutcome fetch s = .next (((s.deviceSteps chipCfg).setBusy (s.eng.busy - 1)).finishTick chipCfg) := by
  have hkept : (s.deviceSteps chipCfg).eng.busy = s.eng.busy := (s.deviceSteps_kept chipCfg).busy
  unfold tickOutcome engineStep
  simp only [hmark, hkept, if_pos hbusy]

/-- Settles O38, by the tick of a busy engine and what its device steps keep. -/
theorem busyTickExecutesNothing : Obligations.BusyTickExecutesNothing := by
  unfold Obligations.BusyTickExecutesNothing
  intro s hmark hbusy u
  have hk := s.deviceSteps_kept chipCfg
  refine ⟨_, tickOutcome_of_busy fetchDecode hmark hbusy, hk.regs, hk.imem, rfl, rfl, ?_, hk.mark.trans hmark,
    congrArg (Lcd.displayStep chipCfg) hk.lcd⟩
  rw [State.finishTick_eng, State.setBusy_eng, hk.cycles]
  rfl

end Sys2Proof.Machine
end
